-- ==== Sys2Proof/Word.lean ====
section
/-! DEFINITION. The word types of the block (00_scope.md R9, R10): `u8`, `u16`, `u32` and byte sequences. -/

namespace Sys2Proof

/-- `u8` (R9). -/
abbrev Byte := BitVec 8

/-- `u16` (R9): transaction ids, tags (`TAG_W` = 16, R7), the CRC remainder, MBAP fields. -/
abbrev U16 := BitVec 16

/-- `u32` (R9): configuration registers and timer counts (`TIMER_W` = 32, R7). -/
abbrev U32 := BitVec 32

/-- `bytes` (R10): a finite sequence of `u8`, in wire order. -/
abbrev Bytes := List Byte

end Sys2Proof
end

