-- ==== Sys2Proof/Machine/Operands.lean ====
section
/-! DEFINITION. Byte order and byte sequences (00_scope.md R10; 30_encoding.md R102): how 16-bit and 32-bit values are
put into and taken out of byte sequences. Every command operand and every wire field is read through these. -/

namespace Sys2Proof.Machine

/-- `be16(v)`: high byte first (R10). -/
def be16 (v : U16) : Bytes := [v.extractLsb' 8 8, v.extractLsb' 0 8]

/-- `le16(v)`: low byte first (R10). -/
def le16 (v : U16) : Bytes := [v.extractLsb' 0 8, v.extractLsb' 8 8]

/-- A 32-bit operand, high byte first (R110). -/
def be32 (v : U32) : Bytes := [v.extractLsb' 24 8, v.extractLsb' 16 8, v.extractLsb' 8 8, v.extractLsb' 0 8]

/-- The 16-bit value of a high and a low byte: `(hi << 8) | lo`. -/
def word16 (hi lo : Byte) : U16 := hi ++ lo

/-- The 32-bit value of four bytes, high byte first. -/
def word32 (b3 b2 b1 b0 : Byte) : U32 := b3 ++ b2 ++ b1 ++ b0

/-- `s[i]` (R10). The rules read only indices inside the sequence. -/
def byteAt (s : Bytes) (i : Nat) : Byte := s.getD i 0

/-- `rd_be16(s, i)` = `(s[i] << 8) | s[i+1]` (R10). -/
def rdBe16 (s : Bytes) (i : Nat) : U16 := word16 (byteAt s i) (byteAt s (i + 1))

/-- `rd_le16(s, i)` = `s[i] | (s[i+1] << 8)` (R10). -/
def rdLe16 (s : Bytes) (i : Nat) : U16 := word16 (byteAt s (i + 1)) (byteAt s i)

/-- `n` bytes of `s` from index `i` on, that is `s[i .. i+n-1]` (R10). -/
def slice (s : Bytes) (i n : Nat) : Bytes := (s.drop i).take n

end Sys2Proof.Machine
end

