-- ==== Sys2Proof/Syntax.lean ====
section
/-! DEFINITION. The operation set (30_encoding.md R110): one constructor per row of spec/opcode_table.json. A counted
operand is the byte sequence itself; its count `n` or `m` is the sequence's length (R114). -/

namespace Sys2Proof

/-- The operations of R110. -/
inductive Instr where
  /-- `NOP` (R304) -/
  | nop
  /-- `CRC.INIT` (R153) -/
  | crcInit
  /-- `CRC.UPD b` (R154) -/
  | crcUpd (b : Byte)
  /-- `CRC.GET` (R155) -/
  | crcGet
  /-- `RTU.FRAME unit fc [payload]` (R172) -/
  | rtuFrame (unit fc : Byte) (payload : Bytes)
  /-- `RTU.PARSE [adu]` (R174) -/
  | rtuParse (adu : Bytes)
  /-- `TCP.FRAME tid unit fc [payload]` (R192) -/
  | tcpFrame (tid : U16) (unit fc : Byte) (payload : Bytes)
  /-- `TCP.PARSEHDR [hdr]` (R194) -/
  | tcpParseHdr (hdr : Bytes)
  /-- `RTU.OPEN` (R213) -/
  | rtuOpen
  /-- `RTU.CLOSE` (R214) -/
  | rtuClose
  /-- `RTU.SUBMIT tag unit fc [payload]` (R215) -/
  | rtuSubmit (tag : U16) (unit fc : Byte) (payload : Bytes)
  /-- `RTU.RXB b` (R221) -/
  | rtuRxb (b : Byte)
  /-- `RTU.WRDONE` (R219) -/
  | rtuWrDone
  /-- `TCP.OPEN` (R261) -/
  | tcpOpen
  /-- `TCP.CLOSE` (R262) -/
  | tcpClose
  /-- `TCP.SUBMIT tag unit fc [payload]` (R263) -/
  | tcpSubmit (tag : U16) (unit fc : Byte) (payload : Bytes)
  /-- `TCP.RXB b` (R267) -/
  | tcpRxb (b : Byte)
  /-- `TCP.WRDONE tid` (R265) -/
  | tcpWrDone (tid : U16)
  /-- `CFG.WR idx val` (R301) -/
  | cfgWr (idx : Byte) (val : U32)
  /-- `CFG.RD idx` (R302) -/
  | cfgRd (idx : Byte)
  /-- `TICK` (R305) -/
  | tick
deriving DecidableEq, Repr

/-- The input ports that carry operations (10_state.md R48). -/
inductive Port where
  | cmd | serRx | serWc | tcpRx | tcpWc | tickIn
deriving DecidableEq, Repr

end Sys2Proof
end

