-- ==== Sys2Proof/WellFormed.lean ====
section
/-! DEFINITION. Which terms of `Instr` a command word can carry (30_encoding.md R110, R111): a payload count fits
its byte, an ADU count fits its `u16`, and an MBAP header has 7 bytes. -/

namespace Sys2Proof

/-- A counted payload fits the count byte `n` (R111: "`n` may be any value from 0 to 255 in the encoding"). -/
def payloadFits (payload : Bytes) : Bool := decide (payload.length ≤ 255)

/-- The instruction is one that a command word can carry (R110, R111). -/
def Instr.wf : Instr → Bool
  | .rtuFrame _ _ payload    => payloadFits payload
  | .rtuParse adu            => decide (adu.length ≤ 65535)
  | .tcpFrame _ _ _ payload  => payloadFits payload
  | .tcpParseHdr hdr         => decide (hdr.length = 7)
  | .rtuSubmit _ _ _ payload => payloadFits payload
  | .tcpSubmit _ _ _ payload => payloadFits payload
  | .nop | .crcInit | .crcUpd _ | .crcGet | .rtuOpen | .rtuClose | .rtuRxb _ | .rtuWrDone | .tcpOpen | .tcpClose
  | .tcpRxb _ | .tcpWrDone _ | .cfgWr _ _ | .cfgRd _ | .tick => true

end Sys2Proof
end

