-- ==== Sys2Proof/Decode.lean ====
section
/-! DEFINITION. Command words (30_encoding.md R110 to R112): the decoder, total on any bytes, and the encoder, both
written from the table of R110. -/

namespace Sys2Proof

open Machine (be16 be32 word16 word32)

/-- What a byte string presented to the block holds at its front. -/
inductive Decoded where
  /-- a whole command word, and the bytes after it -/
  | op (i : Instr) (rest : Bytes)
  /-- a reserved opcode: one byte long (R112), and the bytes after it -/
  | reserved (opcode : Byte) (rest : Bytes)
  /-- no whole command word: the string is empty or ends inside the operands (R111). DESIGN CHOICE: log 2 -/
  | truncated
deriving DecidableEq, Repr

/-- Operands `b:u8`. -/
def opU8 (f : Byte → Instr) : Bytes → Decoded
  | b :: r => .op (f b) r
  | _      => .truncated

/-- Operands `v:u16`, big-endian (R110). -/
def opU16 (f : U16 → Instr) : Bytes → Decoded
  | h :: l :: r => .op (f (word16 h l)) r
  | _           => .truncated

/-- Operands `idx:u8, val:u32`, big-endian (R110). -/
def opIdxU32 (f : Byte → U32 → Instr) : Bytes → Decoded
  | i :: b3 :: b2 :: b1 :: b0 :: r => .op (f i (word32 b3 b2 b1 b0)) r
  | _                              => .truncated

/-- `k` bytes of operand. -/
def opCounted (f : Bytes → Instr) (k : Nat) (r : Bytes) : Decoded :=
  if k ≤ r.length then .op (f (r.take k)) (r.drop k) else .truncated

/-- Operands `unit:u8, fc:u8, n:u8, payload:n bytes`. -/
def opPdu (f : Byte → Byte → Bytes → Instr) : Bytes → Decoded
  | u :: c :: n :: r => opCounted (f u c) n.toNat r
  | _                => .truncated

/-- Operands `v:u16, unit:u8, fc:u8, n:u8, payload:n bytes`. -/
def opU16Pdu (f : U16 → Byte → Byte → Bytes → Instr) : Bytes → Decoded
  | h :: l :: r => opPdu (f (word16 h l)) r
  | _           => .truncated

/-- Operands `m:u16, adu:m bytes`. -/
def opM16 (f : Bytes → Instr) : Bytes → Decoded
  | h :: l :: r => opCounted f (word16 h l).toNat r
  | _           => .truncated

/-- The table of R110: what the bytes `r` after the opcode byte are. -/
def decodeOperands (opcode : Byte) (r : Bytes) : Decoded :=
  match opcode.toNat with
  | 0x00 => .op .nop r
  | 0x01 => .op .crcInit r
  | 0x02 => opU8 .crcUpd r
  | 0x03 => .op .crcGet r
  | 0x10 => opPdu .rtuFrame r
  | 0x11 => opM16 .rtuParse r
  | 0x12 => opU16Pdu .tcpFrame r
  | 0x13 => opCounted .tcpParseHdr 7 r
  | 0x20 => .op .rtuOpen r
  | 0x21 => .op .rtuClose r
  | 0x22 => opU16Pdu .rtuSubmit r
  | 0x23 => opU8 .rtuRxb r
  | 0x24 => .op .rtuWrDone r
  | 0x30 => .op .tcpOpen r
  | 0x31 => .op .tcpClose r
  | 0x32 => opU16Pdu .tcpSubmit r
  | 0x33 => opU8 .tcpRxb r
  | 0x34 => opU16 .tcpWrDone r
  | 0x40 => opIdxU32 .cfgWr r
  | 0x41 => opU8 .cfgRd r
  | 0x7F => .op .tick r
  | _    => .reserved opcode r

/-- The command word at the front of a byte string (R110 to R112). -/
def decode : Bytes → Decoded
  | []          => .truncated
  | opcode :: r => decodeOperands opcode r

/-- The opcode byte of each operation (R110). -/
def Instr.opcode : Instr → Byte
  | .nop => 0x00
  | .crcInit => 0x01
  | .crcUpd _ => 0x02
  | .crcGet => 0x03
  | .rtuFrame _ _ _ => 0x10
  | .rtuParse _ => 0x11
  | .tcpFrame _ _ _ _ => 0x12
  | .tcpParseHdr _ => 0x13
  | .rtuOpen => 0x20
  | .rtuClose => 0x21
  | .rtuSubmit _ _ _ _ => 0x22
  | .rtuRxb _ => 0x23
  | .rtuWrDone => 0x24
  | .tcpOpen => 0x30
  | .tcpClose => 0x31
  | .tcpSubmit _ _ _ _ => 0x32
  | .tcpRxb _ => 0x33
  | .tcpWrDone _ => 0x34
  | .cfgWr _ _ => 0x40
  | .cfgRd _ => 0x41
  | .tick => 0x7F

/-- `n:u8, payload:n bytes`. -/
def encodePayload (payload : Bytes) : Bytes := BitVec.ofNat 8 payload.length :: payload

/-- The operand bytes of each operation (R110). -/
def Instr.operands : Instr → Bytes
  | .crcUpd b | .rtuRxb b | .tcpRxb b => [b]
  | .rtuFrame u c p => u :: c :: encodePayload p
  | .rtuParse adu => be16 (BitVec.ofNat 16 adu.length) ++ adu
  | .tcpFrame t u c p => be16 t ++ u :: c :: encodePayload p
  | .tcpParseHdr hdr => hdr
  | .rtuSubmit t u c p => be16 t ++ u :: c :: encodePayload p
  | .tcpSubmit t u c p => be16 t ++ u :: c :: encodePayload p
  | .tcpWrDone t => be16 t
  | .cfgWr i v => i :: be32 v
  | .cfgRd i => [i]
  | .nop | .crcInit | .crcGet | .rtuOpen | .rtuClose | .rtuWrDone | .tcpOpen | .tcpClose | .tick => []

/-- The command word of a well-formed instruction (R110). -/
def encode (i : Instr) : Bytes := i.opcode :: i.operands

/-- The length of the command word whose bytes are `at 0`, `at 1`, … (R111); a reserved opcode is one byte (R112). -/
def wordLength (byteOf : Nat → Byte) : Nat :=
  match (byteOf 0).toNat with
  | 0x02 | 0x23 | 0x33 | 0x41 => 2
  | 0x34 => 3
  | 0x40 => 6
  | 0x13 => 8
  | 0x10 => 4 + (byteOf 3).toNat
  | 0x11 => 3 + (word16 (byteOf 1) (byteOf 2)).toNat
  | 0x12 | 0x22 | 0x32 => 6 + (byteOf 5).toNat
  | _ => 1

/-- Byte `k` of a word numbered as spec/opcode_table.json numbers it: bits `8k+7..8k` of its low `nbits` bits. -/
def tableByte (nbits w k : Nat) : Byte := BitVec.ofNat 8 ((w % 2 ^ nbits) >>> (8 * k))

/-- The command word, in wire order, that a table word stands for: operand bytes the table gives no bits are zero. -/
def tableBytes (nbits w : Nat) : Bytes :=
  (List.range (wordLength (tableByte nbits w))).map (tableByte nbits w)

/-- The instruction the decoder reads from a table word. -/
def decodeTableWord (nbits w : Nat) : Option Instr :=
  match decode (tableBytes nbits w) with
  | .op i _ => some i
  | _       => none

end Sys2Proof
end

