-- ==== Sys2Proof/Config.lean ====
section
/-! DEFINITION. What is fixed for the machine: the sizes of R7, the response size classes of R133, the
constants the spec leaves OPEN (D28, D30), and the free values of the model. A constant with no body is open:
nothing can be proved of its value. -/

namespace Sys2Proof

/-- Response size classes (40_pdu.md R133). -/
inductive SizeClass where
  /-- the payload has `k` bytes -/
  | fixed (k : Nat)
  /-- the payload has `1 + payload[0]` bytes -/
  | byteCount1
  /-- the payload has `rd_be16(payload, 0) + 2` bytes -/
  | fifo16
  /-- never computable -/
  | unknown
deriving DecidableEq, Repr

/-- `RSP_SIZER` (R7, R133): rows (base function code, class); a code in no row is `Unknown` (R136). -/
abbrev Sizer := List (Byte × SizeClass)

/-- The build parameters of R7 that are not fixed numbers. They are no state: no step writes them (R55).
A capacity is stored less one, so that `RTU_Q_DEPTH` is at least 1 and `TT_DEPTH` is 1 to 65536 by their form
(R7, R263). -/
structure Build where
  rtuQDepthLess1  : Nat
  ttDepthLess1    : U16
  rspSizer        : Sizer
  resetRtuTimeout : U32
  resetRtuRetries : U32
  resetTcpTimeout : U32
  resetTcpRetries : U32
deriving DecidableEq, Repr

/-- `RTU_Q_DEPTH` (R7), at least 1. -/
def Build.rtuQDepth (p : Build) : Nat := p.rtuQDepthLess1 + 1

/-- `TT_DEPTH` (R7), 1 to 65536. -/
def Build.ttDepth (p : Build) : Nat := p.ttDepthLess1.toNat + 1

namespace Config

/-- `RTU_RXBUF_CAP` (R7, D16). -/
def rtuRxbufCap : Nat := 256

/-- `TCP_RXBUF_CAP` (R7, D16). -/
def tcpRxbufCap : Nat := 260

/-- `RTU_Q_DEPTH` less 1, OPEN (R7, D30). DESIGN CHOICE, safe: log 4. -/
opaque rtuQDepthLess1 : Nat

/-- `TT_DEPTH` less 1, OPEN (R7, D30). DESIGN CHOICE, safe: log 4. -/
opaque ttDepthLess1 : U16

/-- `RESET_RTU_TIMEOUT`, OPEN (R44, D28). DESIGN CHOICE, safe: log 4. -/
opaque resetRtuTimeout : U32

/-- `RESET_RTU_RETRIES`, OPEN (R45, D28). DESIGN CHOICE, safe: log 4. -/
opaque resetRtuRetries : U32

/-- `RESET_TCP_TIMEOUT`, OPEN (R46, D28). DESIGN CHOICE, safe: log 4. -/
opaque resetTcpTimeout : U32

/-- `RESET_TCP_RETRIES`, OPEN (R47, D28). DESIGN CHOICE, safe: log 4. -/
opaque resetTcpRetries : U32

/-- Free value: `IfdFloor(0)`, which R212 leaves without a value (`baud >= 1`). DESIGN CHOICE, safe: log 6. -/
opaque ifdFloorAtBaudZero : U32

/-- Free value: what a 32-bit count view (R39) reads when the count does not fit 32 bits. DESIGN CHOICE, safe: log 7. -/
opaque countBeyond32 : Nat → U32

end Config
end Sys2Proof
end

