-- ==== Sys2Proof/Machine/Sizer.lean ====
section
/-! DEFINITION. The default table `RSP_SIZER` (40_pdu.md R136) and the build parameters of `State.reset`. -/

namespace Sys2Proof.Machine

/-- The default `RSP_SIZER` (R136), row by row; every base code not listed is `Unknown`. -/
def defaultSizer : Sizer :=
  [ (0x01, .byteCount1),  -- ReadCoils
    (0x02, .byteCount1),  -- ReadDiscreteInputs
    (0x03, .byteCount1),  -- ReadHoldingRegisters
    (0x04, .byteCount1),  -- ReadInputRegisters
    (0x05, .fixed 4),     -- WriteSingleCoil
    (0x06, .fixed 4),     -- WriteSingleRegister
    (0x07, .fixed 1),     -- ReadExceptionStatus
    (0x08, .fixed 4),     -- Diagnostics
    (0x0B, .fixed 4),     -- GetCommEventCounter
    (0x0C, .byteCount1),  -- GetCommEventLog
    (0x0F, .fixed 4),     -- WriteMultipleCoils
    (0x10, .fixed 4),     -- WriteMultipleRegisters
    (0x11, .byteCount1),  -- ReportServerId
    (0x14, .byteCount1),  -- ReadFileRecord
    (0x15, .byteCount1),  -- WriteFileRecord
    (0x16, .fixed 6),     -- MaskWriteRegister
    (0x17, .byteCount1),  -- ReadWriteMultipleRegisters
    (0x18, .fifo16),      -- ReadFifoQueue
    (0x2B, .unknown) ]    -- EncapsulatedInterfaceTransport

/-- `RSP_SIZER[code]` (R133); a code in no row is `Unknown` (R136). -/
def sizeClassOf : Sizer → Byte → SizeClass
  | [], _              => .unknown
  | (c, k) :: rows, fc => if c = fc then k else sizeClassOf rows fc

/-- The build parameters of the machine that `State.reset` is the state of: the OPEN ones are the constants of
Config, which have no value (log 4); `RSP_SIZER` is the spec's default table. DESIGN CHOICE, unsafe: log 5. -/
def defaultBuild : Build :=
  { rtuQDepthLess1  := Config.rtuQDepthLess1
    ttDepthLess1    := Config.ttDepthLess1
    rspSizer        := defaultSizer
    resetRtuTimeout := Config.resetRtuTimeout
    resetRtuRetries := Config.resetRtuRetries
    resetTcpTimeout := Config.resetTcpTimeout
    resetTcpRetries := Config.resetTcpRetries }

end Sys2Proof.Machine
end

