-- ==== Sys2Proof/Machine/State.lean ====
section
/-! DEFINITION. The state of the block (10_state.md R20), what it emits (R50, R52) and answers (30_encoding.md R113),
what the environment presents to it (R48, R360), the reasons a step stops, and the reset state (R56). -/

namespace Sys2Proof.Machine

/-- A timer (R38): a one-shot down-counter of milliseconds. -/
structure Timer where
  armed : Bool
  cnt   : U32
deriving DecidableEq, Repr

/-- `RTU_STATE` (R24): the three states; the code 3 is reserved and "never written by any rule". DEDUCED: log 15. -/
inductive RtuState where
  | idle | waitingForReply | processReply
deriving DecidableEq, Repr

/-- An element (R28) of `RTU_Q`, and the part of a transaction-table entry besides its timer. -/
structure Elem where
  tag     : U16
  unit    : Byte
  fc      : Byte
  payload : Bytes
  retries : Nat
  adu     : Bytes
deriving DecidableEq, Repr

/-- An entry of `TCP_TT` (R28, R33): an element with its own response timer `tmr`. -/
structure Entry where
  elem : Elem
  tmr  : Timer
deriving DecidableEq, Repr

/-- `TCP_TT` (R33): a finite partial map from transaction id to entry, as the list of its pairs in ascending id order
(log 9). -/
abbrev TransTable := List (U16 × Entry)

/-- The `port` field of `DONE` and `IERR` (R52): RTU = 0, TCP = 1. -/
inductive Transport where
  | rtu | tcp
deriving DecidableEq, Repr

/-- The terminal ReplyState of a `DONE` (R52). `Running` = 0 is never emitted. -/
inductive ReplyState where
  | running | finished | error
deriving DecidableEq, Repr

/-- The Error codes, in the order of 60_exceptions.md R320. -/
inductive ErrCode where
  | noError | readError | writeError | connectionError | configurationError | timeoutError | protocolError
  | replyAbortedError | unknownError | invalidResponseError
deriving DecidableEq, Repr

/-- The intermediate errors (R323). -/
inductive IErrCode where
  | responseCrcError | responseRequestMismatch
deriving DecidableEq, Repr

/-- The kind of a `LOG` event (R325). -/
inductive LogKind where
  | unmatchedTid
deriving DecidableEq, Repr

/-- The output events (R50, R52). -/
inductive Event where
  /-- a whole ADU to write to the serial device -/
  | serTx (adu : Bytes)
  /-- a whole ADU to write to the TCP device -/
  | tcpTx (adu : Bytes)
  /-- the completion of one request (R52) -/
  | done (port : Transport) (tag : U16) (state : ReplyState) (err : ErrCode) (fc : Byte) (payload : Bytes)
  /-- an intermediate error (R323) -/
  | ierr (port : Transport) (tag : U16) (code : IErrCode)
  /-- a logged, discarded TCP response (R325) -/
  | log (kind : LogKind) (tid : U16)
deriving DecidableEq, Repr

/-- The refusal codes (R326), `RC_OK` apart. -/
inductive RefusalCode where
  | notOpen | alreadyOpen | badPdu | full | badCfg | badReg | badOpcode | badLen
deriving DecidableEq, Repr

/-- The value an accepted `CMD` operation returns (R113). -/
inductive Returned where
  | nothing
  /-- CRC.GET: `crcLow:u8, crcHigh:u8` -/
  | crc (low high : Byte)
  /-- RTU.FRAME, TCP.FRAME: `m:u16, adu:m bytes` -/
  | adu (adu : Bytes)
  /-- RTU.PARSE: `unit:u8, fc:u8, n:u8, payload:n bytes, crcValid:u8` -/
  | parsed (unit fc : Byte) (payload : Bytes) (crcValid : Bool)
  /-- TCP.PARSEHDR: `tid:u16, proto:u16, length:u16, unit:u8, pduBytes:u16` -/
  | header (tid proto length : U16) (unit : Byte) (pduBytes : U16)
  /-- TCP.SUBMIT: `tid:u16` -/
  | tid (tid : U16)
  /-- CFG.RD: `val:u32` -/
  | val (val : U32)
deriving DecidableEq, Repr

/-- A command response on port `RSP` (R113). -/
inductive Response where
  | ok (value : Returned)
  | refused (code : RefusalCode)
deriving DecidableEq, Repr

/-- The RTU transport's state (R23 to R30). -/
structure Rtu where
  /-- `RTU_OPEN` (R23) -/
  isOpen : Bool
  /-- `RTU_STATE` (R24) -/
  st     : RtuState
  /-- `RTU_DLY` (R25) -/
  dly    : Timer
  /-- `RTU_RSPT` (R26) -/
  rspt   : Timer
  /-- `RTU_Q` (R27), head first -/
  q      : List Elem
  /-- `RTU_RXBUF` (R29) -/
  rxbuf  : Bytes
  /-- `RTU_RXOVF` (R30) -/
  rxovf  : Bool
deriving DecidableEq, Repr

/-- The TCP transport's state (R32 to R36). -/
structure Tcp where
  /-- `TCP_OPEN` (R32) -/
  isOpen  : Bool
  /-- `TCP_TT` (R33) -/
  tt      : TransTable
  /-- `TCP_NEXT_TID` (R34) -/
  nextTid : U16
  /-- `TCP_RXBUF` (R35) -/
  rxbuf   : Bytes
  /-- `TCP_RXFAULT` (R36) -/
  rxfault : Bool
deriving DecidableEq, Repr

/-- The writable configuration registers `CFG[0..6]` (R40 to R47), in index order. -/
structure Cfg where
  baud       : U32
  ifdOvr     : U32
  turnaround : U32
  rtuTimeout : U32
  rtuRetries : U32
  tcpTimeout : U32
  tcpRetries : U32
deriving DecidableEq, Repr

/-- The whole state of the block, the tuple `S` of R20. -/
structure Block where
  /-- `CRC` (R22) -/
  crc : U16
  rtu : Rtu
  tcp : Tcp
  /-- `CFG[0..6]` (R40) -/
  cfg : Cfg
  /-- `OUT` (R50), in emission order -/
  out : List Event
deriving DecidableEq, Repr

/-- One thing the environment presents: a byte string that holds one or more command words (R110), or the reset
event (R360). -/
inductive Presented where
  | word (bytes : Bytes)
  | reset
deriving DecidableEq, Repr

/-- The machine: the block, its build parameters (R55, log 4), what the environment presents next, in the total order
it chose (R70, R71, log 1), and the responses given on `RSP` (R113, log 3). -/
structure State where
  build : Build
  block : Block
  input : List Presented
  rsp   : List Response
deriving DecidableEq, Repr

/-- The reasons a step stops with a fault. -/
inductive Fault where
  /-- Raised by TCP.SUBMIT when its search for a free transaction id (R263) meets none in all 65536 values: the rule's
  loop does not end there. No run reaches such a state (R263: "the table is not full"). Safe: log 8. -/
  | noFreeTid
deriving DecidableEq, Repr

/-- The reasons a step is refused. -/
inductive Refusal where
  /-- Raised by `exec` for an instruction that has no meaning yet; no arm raises it. Safe. -/
  | notModelled (mnemonic : String)
  /-- Raised by `step` when the byte string presented ends before the command word its opcode names (R111), or is
  empty: it is no operation of R110 and the spec gives it no effect. Safe: log 2. -/
  | truncatedWord
deriving DecidableEq, Repr

/-- A timer after reset (R38): not armed, count 0. -/
def Timer.atReset : Timer := { armed := false, cnt := 0 }

/-- The block after reset (R56), for build parameters `p`. -/
def Block.atReset (p : Build) : Block :=
  { crc := 0xFFFF
    rtu := { isOpen := false, st := .idle, dly := Timer.atReset, rspt := Timer.atReset, q := [], rxbuf := [], rxovf := false }
    tcp := { isOpen := false, tt := [], nextTid := 0, rxbuf := [], rxfault := false }
    cfg := { baud := 0, ifdOvr := 0, turnaround := 100,
             rtuTimeout := p.resetRtuTimeout, rtuRetries := p.resetRtuRetries,
             tcpTimeout := p.resetTcpTimeout, tcpRetries := p.resetTcpRetries }
    out := [] }

/-- The machine right after reset (R56, R360), with nothing presented yet (log 1) and no response given (log 3). -/
def State.reset : State :=
  { build := defaultBuild, block := Block.atReset defaultBuild, input := [], rsp := [] }

end Sys2Proof.Machine
end

