-- ==== Sys2Proof/Machine/Ops.lean ====
section
/-! DEFINITION. The named operations over the state: emit and respond (R11), timers (46_config_and_tick.md R306),
receive buffers, queue and table (20_memory.md R61 to R63), the completion of a request (60_exceptions.md R332), the
reset event (70_reset_and_hazards.md R360), and the numeric codes (R24, R52, R320, R323, R325, R326). -/

namespace Sys2Proof.Machine

/-! ### Outputs and responses -/

/-- `emit E` (R50): append one event to `OUT`. -/
def Block.emit (e : Event) (b : Block) : Block := { b with out := b.out ++ [e] }

/-- Put another block into the machine. -/
def State.setBlock (b : Block) (s : State) : State := { s with block := b }

/-- Give one response on port `RSP` (R113). -/
def State.respond (r : Response) (s : State) : State := { s with rsp := s.rsp ++ [r] }

/-- `refuse(code)` (R326): no state element changes, nothing is emitted, the response is the code alone. -/
def State.refuse (code : RefusalCode) (s : State) : State := s.respond (.refused code)

/-- An accepted `CMD` operation: the block it leaves, and `RC_OK` with the value it returns (R113). -/
def State.accept (b : Block) (v : Returned) (s : State) : State := (s.setBlock b).respond (.ok v)

/-- What remains presented after the front item's first operation: the bytes after it, if any, and the later items. -/
def remaining (tail : Bytes) (later : List Presented) : List Presented :=
  if tail = [] then later else .word tail :: later

/-- Set what is presented next. -/
def State.setInput (i : List Presented) (s : State) : State := { s with input := i }

/-! ### Timers (R306) -/

/-- `arm(T, d)`: also restarts a timer that is armed. -/
def Timer.arm (d : U32) : Timer := { armed := true, cnt := d }

/-- `stop(T)`: the count keeps its value. -/
def Timer.stop (t : Timer) : Timer := { t with armed := false }

/-- The timer expires in this TICK (R305): armed with a count of at most 1. -/
def Timer.expires (t : Timer) : Bool := t.armed && decide (t.cnt.toNat ≤ 1)

/-- A timer that is armed and does not expire counts down by one in a TICK (R305). -/
def Timer.countDown (t : Timer) : Timer :=
  if t.armed && decide (1 < t.cnt.toNat) then { t with cnt := t.cnt - 1 } else t

/-! ### Receive buffers (R61) -/

/-- `append(B, b)` for a buffer of capacity `cap`. -/
def bufAppend (cap : Nat) (buf : Bytes) (b : Byte) : Bytes := if buf.length < cap then buf ++ [b] else buf

/-- `drop_front(B, n)`. -/
def bufDropFront (buf : Bytes) (n : Nat) : Bytes := buf.drop n

/-! ### The queue (R62) -/

/-- `push_back(Q, e)`. -/
def qPushBack (q : List Elem) (e : Elem) : List Elem := q ++ [e]

/-- The queue after `pop_front(Q)`. -/
def qPopFront (q : List Elem) : List Elem := q.tail

/-- The queue after `head(Q).retries` has been written. -/
def qSetHeadRetries (n : Nat) : List Elem → List Elem
  | []     => []
  | e :: r => { e with retries := n } :: r

/-! ### The transaction table (R63) -/

/-- `TT[k]`, where there is one. -/
def ttGet (k : U16) : TransTable → Option Entry
  | []              => none
  | (k', e) :: rest => if k' = k then some e else ttGet k rest

/-- `k in TT`. -/
def ttHas (k : U16) (tt : TransTable) : Bool := (ttGet k tt).isSome

/-- `TT[k] <- e`: insert, or replace the entry with key `k`. -/
def ttPut (k : U16) (e : Entry) : TransTable → TransTable
  | []               => [(k, e)]
  | (k', e') :: rest =>
    if k.toNat < k'.toNat then (k, e) :: (k', e') :: rest
    else if k = k' then (k, e) :: rest
    else (k', e') :: ttPut k e rest

/-- `remove(TT, k)`. -/
def ttRemove (k : U16) : TransTable → TransTable
  | []               => []
  | (k', e') :: rest => if k' = k then rest else (k', e') :: ttRemove k rest

/-- `count(TT)`. -/
def ttCount (tt : TransTable) : Nat := tt.length

/-- `keys(TT)`, in the order they are iterated in. -/
def ttKeys (tt : TransTable) : List U16 := tt.map Prod.fst

/-! ### State elements of the two transports -/

def Block.setCrc (c : U16) (b : Block) : Block := { b with crc := c }
def Block.setRtu (r : Rtu) (b : Block) : Block := { b with rtu := r }
def Block.setTcp (t : Tcp) (b : Block) : Block := { b with tcp := t }
def Block.setCfg (c : Cfg) (b : Block) : Block := { b with cfg := c }

/-- `RTU_OPEN <- v`. -/
def Block.setRtuOpen (v : Bool) (b : Block) : Block := b.setRtu { b.rtu with isOpen := v }
/-- `RTU_STATE <- v`. -/
def Block.setRtuState (v : RtuState) (b : Block) : Block := b.setRtu { b.rtu with st := v }
/-- Write `RTU_DLY`. -/
def Block.setRtuDly (v : Timer) (b : Block) : Block := b.setRtu { b.rtu with dly := v }
/-- Write `RTU_RSPT`. -/
def Block.setRtuRspt (v : Timer) (b : Block) : Block := b.setRtu { b.rtu with rspt := v }
/-- Write `RTU_Q`. -/
def Block.setRtuQ (v : List Elem) (b : Block) : Block := b.setRtu { b.rtu with q := v }
/-- Write `RTU_RXBUF`. -/
def Block.setRtuRxbuf (v : Bytes) (b : Block) : Block := b.setRtu { b.rtu with rxbuf := v }
/-- `RTU_RXOVF <- v`. -/
def Block.setRtuRxovf (v : Bool) (b : Block) : Block := b.setRtu { b.rtu with rxovf := v }

/-- `TCP_OPEN <- v`. -/
def Block.setTcpOpen (v : Bool) (b : Block) : Block := b.setTcp { b.tcp with isOpen := v }
/-- Write `TCP_TT`. -/
def Block.setTcpTt (v : TransTable) (b : Block) : Block := b.setTcp { b.tcp with tt := v }
/-- `TCP_NEXT_TID <- v`. -/
def Block.setTcpNextTid (v : U16) (b : Block) : Block := b.setTcp { b.tcp with nextTid := v }
/-- Write `TCP_RXBUF`. -/
def Block.setTcpRxbuf (v : Bytes) (b : Block) : Block := b.setTcp { b.tcp with rxbuf := v }
/-- `TCP_RXFAULT <- v`. -/
def Block.setTcpRxfault (v : Bool) (b : Block) : Block := b.setTcp { b.tcp with rxfault := v }

/-! ### Completion (R332): the one way a request ends -/

/-- Emit the `DONE` event (R52) of a request with this tag. -/
def Block.complete (port : Transport) (tag : U16) (state : ReplyState) (err : ErrCode) (fc : Byte) (payload : Bytes)
    (b : Block) : Block :=
  b.emit (.done port tag state err fc payload)

/-- A completion with no response PDU: `fc` = 0 and an empty payload (R52). -/
def Block.completeEmpty (port : Transport) (tag : U16) (state : ReplyState) (err : ErrCode) (b : Block) : Block :=
  b.complete port tag state err 0x00 []

/-- The aborts of a close (R214, R262): one `DONE` Error ReplyAbortedError for each tag, in order. -/
def abortAll (port : Transport) (tags : List U16) (b : Block) : Block :=
  tags.foldl (fun b tag => b.completeEmpty port tag .error .replyAbortedError) b

/-! ### The reset event (R360, R361) -/

/-- Every state element of the block at its reset value, nothing emitted; what the environment presents later stays
(log 16); the `RSP` trace starts again empty, as `OUT` does (log 3). -/
def State.applyReset (later : List Presented) (s : State) : State :=
  { build := s.build, block := Block.atReset s.build, input := later, rsp := [] }

/-! ### Ports (R48) -/

/-- The port that carries an operation (R48, R110). -/
def portOf : Instr → Port
  | .rtuRxb _ => .serRx
  | .rtuWrDone => .serWc
  | .tcpRxb _ => .tcpRx
  | .tcpWrDone _ => .tcpWc
  | .tick => .tickIn
  | .nop | .crcInit | .crcUpd _ | .crcGet | .rtuFrame _ _ _ | .rtuParse _ | .tcpFrame _ _ _ _ | .tcpParseHdr _
  | .rtuOpen | .rtuClose | .rtuSubmit _ _ _ _ | .tcpOpen | .tcpClose | .tcpSubmit _ _ _ _ | .cfgWr _ _ | .cfgRd _ => .cmd

/-! ### Numeric codes -/

/-- The values of `RTU_STATE` (R24). -/
def RtuState.code : RtuState → BitVec 2
  | .idle => 0 | .waitingForReply => 1 | .processReply => 2

/-- The `port` values (R52). -/
def Transport.code : Transport → Nat
  | .rtu => 0 | .tcp => 1

/-- The ReplyState values (R52). -/
def ReplyState.code : ReplyState → Nat
  | .running => 0 | .finished => 1 | .error => 2

/-- The Error codes (R320). -/
def ErrCode.code : ErrCode → Byte
  | .noError => 0 | .readError => 1 | .writeError => 2 | .connectionError => 3 | .configurationError => 4
  | .timeoutError => 5 | .protocolError => 6 | .replyAbortedError => 7 | .unknownError => 8 | .invalidResponseError => 9

/-- The intermediate error codes (R323). -/
def IErrCode.code : IErrCode → Nat
  | .responseCrcError => 0 | .responseRequestMismatch => 1

/-- The `LOG` kinds (R325). -/
def LogKind.code : LogKind → Nat
  | .unmatchedTid => 0

/-- The refusal codes (R326). -/
def RefusalCode.code : RefusalCode → Byte
  | .notOpen => 1 | .alreadyOpen => 2 | .badPdu => 3 | .full => 4 | .badCfg => 5 | .badReg => 6 | .badOpcode => 7 | .badLen => 8

/-- The bytes of a returned value (R113). -/
def Returned.bytes : Returned → Bytes
  | .nothing => []
  | .crc low high => [low, high]
  | .adu a => be16 (BitVec.ofNat 16 a.length) ++ a
  | .parsed unit fc payload crcValid =>
    unit :: fc :: BitVec.ofNat 8 payload.length :: payload ++ [if crcValid then 1 else 0]
  | .header t proto length unit pduBytes => be16 t ++ be16 proto ++ be16 length ++ unit :: be16 pduBytes
  | .tid t => be16 t
  | .val v => be32 v

/-- The bytes of a command response (R113): the code `RC_OK` = 0 and the value, or the refusal code alone. -/
def Response.bytes : Response → Bytes
  | .ok v => 0 :: v.bytes
  | .refused c => [c.code]

end Sys2Proof.Machine
end

