-- ==== Sys2Proof/Machine/Flags.lean ====
section
/-! DEFINITION. Status bits and the read-only views (10_state.md R37, R39): `STATUS`, `RTU_QLEN`, `TCP_COUNT`,
`TCP_NEXT_TID_RO`. -/

namespace Sys2Proof.Machine

/-- A status bit as one bit. -/
def bit (v : Bool) : BitVec 1 := BitVec.ofBool v

/-- `STATUS` (R39): bit 0 `RTU_OPEN`, bit 1 `TCP_OPEN`, bits 3:2 `RTU_STATE`, bit 4 `RTU_DLY.armed`, bit 5
`RTU_RSPT.armed`, bit 6 `RTU_RXOVF`, bit 7 `TCP_RXFAULT`, bits 31:8 zero. -/
def statusView (b : Block) : U32 :=
  (0 : BitVec 24) ++ bit b.tcp.rxfault ++ bit b.rtu.rxovf ++ bit b.rtu.rspt.armed ++ bit b.rtu.dly.armed ++
    b.rtu.st.code ++ bit b.tcp.isOpen ++ bit b.rtu.isOpen

/-- A count as a 32-bit register reads it; a count that 32 bits cannot hold reads as a free value (log 7). -/
def countView (n : Nat) : U32 := if n < 2 ^ 32 then BitVec.ofNat 32 n else Config.countBeyond32 n

/-- `View(idx)` (R39) for the read-only indices 7 to 10. -/
def readOnlyView (idx : Byte) (b : Block) : Option U32 :=
  match idx.toNat with
  | 7  => some (statusView b)
  | 8  => some (countView b.rtu.q.length)
  | 9  => some (countView (ttCount b.tcp.tt))
  | 10 => some (b.tcp.nextTid.zeroExtend 32)
  | _  => none

end Sys2Proof.Machine
end

