-- ==== Sys2Proof/Machine/Crc.lean ====
section
/-! DEFINITION. The CRC unit (41_crc.md): CrcStep, Crc16, and CRC.INIT, CRC.UPD, CRC.GET. -/

namespace Sys2Proof.Machine

/-- One step of the per-bit loop of `CrcStep` (R152): the bit shifted out decides the XOR. -/
def crcBit (c : U16) : U16 := if c.getLsbD 0 then (c >>> 1) ^^^ 0xA001 else c >>> 1

/-- `CrcStep(c, b)` (R152). -/
def crcStep (c : U16) (b : Byte) : U16 := crcBit^[8] (c ^^^ b.zeroExtend 16)

/-- `Crc16(s)` (R151). -/
def crc16 (s : Bytes) : U16 := s.foldl crcStep 0xFFFF

/-- CRC.INIT (R153). -/
def execCrcInit (s : State) : Host.Outcome State Fault Refusal :=
  .next (s.accept (s.block.setCrc 0xFFFF) .nothing)

/-- CRC.UPD (R154). -/
def execCrcUpd (b : Byte) (s : State) : Host.Outcome State Fault Refusal :=
  .next (s.accept (s.block.setCrc (crcStep s.block.crc b)) .nothing)

/-- CRC.GET (R155). -/
def execCrcGet (s : State) : Host.Outcome State Fault Refusal :=
  .next (s.accept s.block (.crc (s.block.crc.extractLsb' 0 8) (s.block.crc.extractLsb' 8 8)))

end Sys2Proof.Machine
end

