-- ==== Sys2Proof/Machine/Pdu.lean ====
section
/-! DEFINITION. PDU helpers (40_pdu.md): the exception bit, PDU validity, and the size of a response. -/

namespace Sys2Proof.Machine

/-- `IsException(fc)` (30_encoding.md R94): bit 7. -/
def isException (fc : Byte) : Bool := fc.getLsbD 7

/-- `BaseFc(fc)` (R94): the code with the exception bit clear. -/
def baseFc (fc : Byte) : Byte := fc &&& 0x7F

/-- `PduValid(fc, n)` (R131). -/
def pduValid (fc : Byte) (n : Nat) : Bool := decide (1 ≤ (baseFc fc).toNat) && decide (n < 253)

/-- `RspWellFormed(fc, n)` (R132). -/
def rspWellFormed (fc : Byte) (n : Nat) : Bool := pduValid fc n && (!isException fc || decide (n = 1))

/-- The payload length a size class gives, from the payload bytes received so far (R133, R134, R135). -/
def sizeByClass (k : SizeClass) (avail : Bytes) : Option Nat :=
  match k with
  | .fixed n    => some n
  | .byteCount1 => if 1 ≤ avail.length then some (1 + (byteAt avail 0).toNat) else none
  | .fifo16     => if 2 ≤ avail.length then some ((rdBe16 avail 0).toNat + 2) else none
  | .unknown    => none

/-- `RspDataSize(fc, avail)` (R134); `none` is the sentinel `NONE`. -/
def rspDataSize (sizer : Sizer) (fc : Byte) (avail : Bytes) : Option Nat :=
  if isException fc then some 1 else sizeByClass (sizeClassOf sizer (baseFc fc)) avail

/-- `RtuAduLen(d)` (R138). -/
def rtuAduLen (d : Nat) : Nat := 2 + d + 2

end Sys2Proof.Machine
end

