-- ==== Sys2Proof/Machine/RtuFramer.lean ====
section
/-! DEFINITION. The RTU ADU framer (42_rtu_framer.md): RtuFrame, RtuParse, RTU.FRAME, RTU.PARSE. -/

namespace Sys2Proof.Machine

/-- The bytes an RTU CRC covers (R170): the unit address and the PDU. -/
def rtuBody (unit fc : Byte) (payload : Bytes) : Bytes := unit :: fc :: payload

/-- `RtuFrame(unit, fc, payload)` (R170). -/
def rtuFrame (unit fc : Byte) (payload : Bytes) : Bytes :=
  rtuBody unit fc payload ++ le16 (crc16 (rtuBody unit fc payload))

/-- What `RtuParse` finds in an ADU (R173). -/
structure RtuParsed where
  unit     : Byte
  fc       : Byte
  payload  : Bytes
  crcValid : Bool
deriving DecidableEq, Repr

/-- `RtuParse(adu)` (R173), for an ADU of at least 4 bytes. -/
def rtuParse (adu : Bytes) : RtuParsed :=
  { unit     := byteAt adu 0
    fc       := byteAt adu 1
    payload  := slice adu 2 (adu.length - 4)
    crcValid := decide (crc16 (slice adu 0 (adu.length - 2)) = rdLe16 adu (adu.length - 2)) }

/-- RTU.FRAME (R172). -/
def execRtuFrame (unit fc : Byte) (payload : Bytes) (s : State) : Host.Outcome State Fault Refusal :=
  if pduValid fc payload.length then .next (s.accept s.block (.adu (rtuFrame unit fc payload)))
  else .next (s.refuse .badPdu)

/-- RTU.PARSE (R174). -/
def execRtuParse (adu : Bytes) (s : State) : Host.Outcome State Fault Refusal :=
  if adu.length < 4 ∨ 256 < adu.length then .next (s.refuse .badLen)
  else
    let r := rtuParse adu
    .next (s.accept s.block (.parsed r.unit r.fc r.payload r.crcValid))

end Sys2Proof.Machine
end

