-- ==== Sys2Proof/Machine/RtuTransport.lean ====
section
/-! DEFINITION. The RTU transport (44_rtu_transport.md): delays and scheduling, open, close, submit, sending,
receiving and matching, timeout and retry. Each function follows the pseudocode of the rule it names. -/

namespace Sys2Proof.Machine

/-! ### Delays and scheduling -/

/-- `IfdFloor(baud)` (R212): `ceil(38500 / baud)` below 19200, else 2, in milliseconds. At baud 0, where the rule has
no value, a free value (log 6). -/
def ifdFloor (baud : U32) : Nat :=
  if baud = 0 then Config.ifdFloorAtBaudZero.toNat
  else if baud.toNat < 19200 then (38500 + (baud.toNat - 1)) / baud.toNat
  else 2

/-- `Ifd()` (R212): the override only raises the floor. -/
def ifd (c : Cfg) : U32 := BitVec.ofNat 32 (max c.ifdOvr.toNat (ifdFloor c.baud))

/-- `IsBroadcast(e)` (R217). -/
def isBroadcast (e : Elem) : Bool := decide (e.unit = 0)

/-- `RtuKick(d)` (R216). -/
def rtuKick (d : U32) (b : Block) : Block :=
  if b.rtu.st = .idle ∧ b.rtu.dly.armed = false ∧ b.rtu.q ≠ [] then b.setRtuDly (Timer.arm d) else b

/-! ### Open, close, submit -/

/-- RTU.OPEN (R213). -/
def execRtuOpen (s : State) : Host.Outcome State Fault Refusal :=
  if s.block.rtu.isOpen then .next (s.refuse .alreadyOpen)
  else if s.block.cfg.baud = 0 then .next (s.refuse .badCfg)
  else .next (s.accept (s.block.setRtuOpen true) .nothing)

/-- What RTU.CLOSE does to an open transport (R214). -/
def rtuClose (b : Block) : Block :=
  let b := (abortAll .rtu (b.rtu.q.map Elem.tag) b).setRtuQ []
  let b := (b.setRtuDly b.rtu.dly.stop).setRtuRspt b.rtu.rspt.stop
  let b := b.setRtuState .idle
  let b := (b.setRtuRxbuf []).setRtuRxovf false
  b.setRtuOpen false

/-- RTU.CLOSE (R214). -/
def execRtuClose (s : State) : Host.Outcome State Fault Refusal :=
  if s.block.rtu.isOpen then .next (s.accept (rtuClose s.block) .nothing) else .next (s.refuse .notOpen)

/-- The element that RTU.SUBMIT queues (R215): the retry count sampled, the ADU framed, once. -/
def rtuElem (c : Cfg) (tag : U16) (unit fc : Byte) (payload : Bytes) : Elem :=
  { tag := tag, unit := unit, fc := fc, payload := payload, retries := c.rtuRetries.toNat,
    adu := rtuFrame unit fc payload }

/-- What an accepted RTU.SUBMIT does (R215). -/
def rtuEnqueue (e : Elem) (b : Block) : Block :=
  rtuKick (ifd b.cfg) (b.setRtuQ (qPushBack b.rtu.q e))

/-- RTU.SUBMIT (R215): the refusals in the order of R326. -/
def execRtuSubmit (tag : U16) (unit fc : Byte) (payload : Bytes) (s : State) : Host.Outcome State Fault Refusal :=
  if s.block.rtu.isOpen = false then .next (s.refuse .notOpen)
  else if pduValid fc payload.length = false then .next (s.refuse .badPdu)
  else if s.block.rtu.q.length = s.build.rtuQDepth then .next (s.refuse .full)
  else .next (s.accept (rtuEnqueue (rtuElem s.block.cfg tag unit fc payload) s.block) .nothing)

/-! ### Sending -/

/-- `RtuSend` (R218), the action of `RTU_DLY` expiry. -/
def rtuSend (b : Block) : Block :=
  match b.rtu.q with
  | [] => b
  | e :: _ =>
    let b := ((b.setRtuRxbuf []).emit (.serTx e.adu)).setRtuState .waitingForReply
    if isBroadcast e then b else b.setRtuRspt (Timer.arm b.cfg.rtuTimeout)

/-- `RtuBroadcastDone` (R233) for the head element `e`. -/
def rtuBroadcastDone (e : Elem) (b : Block) : Block :=
  let b := b.setRtuQ (qPopFront b.rtu.q)
  let b := b.completeEmpty .rtu e.tag .finished .noError
  let b := b.setRtuState .idle
  rtuKick b.cfg.turnaround b

/-- The effect of RTU.WRDONE (R219). -/
def rtuWrDone (b : Block) : Block :=
  match b.rtu.q with
  | [] => b
  | e :: _ =>
    if b.rtu.isOpen = true ∧ b.rtu.st = .waitingForReply ∧ isBroadcast e = true then rtuBroadcastDone e b else b

/-- RTU.WRDONE (R219): an input event, it has no response. -/
def execRtuWrDone (s : State) : Host.Outcome State Fault Refusal :=
  .next (s.setBlock (rtuWrDone s.block))

/-! ### Receiving and matching -/

/-- `RtuAppend(b)` (R222). -/
def rtuAppend (x : Byte) (b : Block) : Block :=
  if b.rtu.rxbuf.length < Config.rtuRxbufCap then b.setRtuRxbuf (bufAppend Config.rtuRxbufCap b.rtu.rxbuf x)
  else b.setRtuRxovf true

/-- `EchoCase(e)` (R226): a Diagnostics request with sub-function ReturnQueryData = 0x0000. -/
def echoCase (e : Elem) : Bool :=
  decide (e.fc = 0x08) && decide (2 ≤ e.payload.length) && decide (rdBe16 e.payload 0 = 0x0000)

/-- `RtuEchoSize(e, n)` (R226) on the receive buffer; `none` is WAIT. -/
def rtuEchoSize (e : Elem) (rxbuf : Bytes) : Option Nat :=
  if rxbuf.length < 4 + e.payload.length then none
  else if slice rxbuf 2 e.payload.length = e.payload then some (4 + e.payload.length)
  else none

/-- `RtuSizedLen(rfc, n)` (R224, R225) on the receive buffer; `none` is WAIT. -/
def rtuSizedLen (sizer : Sizer) (rfc : Byte) (rxbuf : Bytes) : Option Nat :=
  match rspDataSize sizer rfc (rxbuf.drop 2) with
  | none   => none
  | some d => if rxbuf.length < rtuAduLen d then none else some (rtuAduLen d)

/-- The size of the frame at the front of the receive buffer (R223), for the head element `e`; `none` is WAIT. -/
def rtuFrameSize (sizer : Sizer) (e : Elem) (rxbuf : Bytes) : Option Nat :=
  if rxbuf.length < 2 then none
  else if echoCase e = true ∧ byteAt rxbuf 0 = e.unit ∧ byteAt rxbuf 1 = 0x08 then rtuEchoSize e rxbuf
  else rtuSizedLen sizer (byteAt rxbuf 1) rxbuf

/-- The match test of R229: the unit, and the function code with the exception bit cleared on both sides. -/
def rtuMatches (e : Elem) (r : RtuParsed) : Bool :=
  decide (r.unit = e.unit) && decide (baseFc r.fc = baseFc e.fc)

/-- Completion by a matching reply (R228). -/
def rtuReplyDone (e : Elem) (r : RtuParsed) (b : Block) : Block :=
  let b := b.setRtuState .processReply
  let b := b.setRtuRspt b.rtu.rspt.stop
  let b := b.setRtuQ (qPopFront b.rtu.q)
  let b := b.complete .rtu e.tag .finished .noError r.fc r.payload
  let b := b.setRtuState .idle
  rtuKick (ifd b.cfg) b

/-- `RtuAccept(e, aduSize)` (R227, R229, R228). -/
def rtuAccept (e : Elem) (aduSize : Nat) (b : Block) : Block :=
  let r := rtuParse (slice b.rtu.rxbuf 0 aduSize)
  let b := b.setRtuRxbuf (bufDropFront b.rtu.rxbuf aduSize)
  if r.crcValid = false then b.emit (.ierr .rtu e.tag .responseCrcError)
  else if rtuMatches e r = false then b.emit (.ierr .rtu e.tag .responseRequestMismatch)
  else rtuReplyDone e r b

/-- `RtuEvaluate` (R223) for the head element `e`. -/
def rtuEvaluate (sizer : Sizer) (e : Elem) (b : Block) : Block :=
  match rtuFrameSize sizer e b.rtu.rxbuf with
  | none         => b
  | some aduSize => rtuAccept e aduSize b

/-- The effect of RTU.RXB (R221). -/
def rtuRxb (sizer : Sizer) (x : Byte) (b : Block) : Block :=
  if b.rtu.isOpen = false then b
  else
    let b := rtuAppend x b
    match b.rtu.q with
    | [] => b
    | e :: _ =>
      if b.rtu.st = .waitingForReply ∧ isBroadcast e = false then rtuEvaluate sizer e b else b

/-- RTU.RXB (R221): an input event, it has no response. -/
def execRtuRxb (x : Byte) (s : State) : Host.Outcome State Fault Refusal :=
  .next (s.setBlock (rtuRxb s.build.rspSizer x s.block))

/-! ### Timeout and retry -/

/-- The resend of `RtuTimeout` with retries left (R230), for the head element `e`. -/
def rtuResend (e : Elem) (b : Block) : Block :=
  let b := b.setRtuQ (qSetHeadRetries (e.retries - 1) b.rtu.q)
  let b := (b.setRtuRxbuf []).emit (.serTx e.adu)
  b.setRtuRspt (Timer.arm b.cfg.rtuTimeout)

/-- The failure of `RtuTimeout` with no retries left (R231), for the head element `e`. -/
def rtuFail (e : Elem) (b : Block) : Block :=
  let b := b.setRtuQ (qPopFront b.rtu.q)
  let b := b.completeEmpty .rtu e.tag .error .timeoutError
  let b := b.setRtuState .idle
  rtuKick (ifd b.cfg) b

/-- `RtuTimeout` (R230, R231), the action of `RTU_RSPT` expiry. -/
def rtuTimeout (b : Block) : Block :=
  match b.rtu.q with
  | [] => b
  | e :: _ =>
    if b.rtu.st ≠ .waitingForReply then b
    else if 0 < e.retries then rtuResend e b
    else rtuFail e b

end Sys2Proof.Machine
end

