-- ==== Sys2Proof/Machine/TcpFramer.lean ====
section
/-! DEFINITION. The TCP ADU framer (43_tcp_framer.md): TcpFrame, TcpParseHdr, TCP.FRAME, TCP.PARSEHDR. -/

namespace Sys2Proof.Machine

/-- `TcpFrame(tid, unit, fc, payload)` (R190). -/
def tcpFrame (tid : U16) (unit fc : Byte) (payload : Bytes) : Bytes :=
  be16 tid ++ [0x00, 0x00] ++ be16 (BitVec.ofNat 16 (payload.length + 2)) ++ [unit, fc] ++ payload

/-- The MBAP header fields (R95, R193). -/
structure Mbap where
  tid    : U16
  proto  : U16
  length : U16
  unit   : Byte
deriving DecidableEq, Repr

/-- `TcpParseHdr(h)` (R193). -/
def tcpParseHdr (h : Bytes) : Mbap :=
  { tid := rdBe16 h 0, proto := rdBe16 h 2, length := rdBe16 h 4, unit := byteAt h 6 }

/-- `TcpPduBytes(length)` (R193), for `length` at least 1. -/
def tcpPduBytes (length : U16) : U16 := length - 1

/-- `TcpAduLen(length)` (R193). -/
def tcpAduLen (length : U16) : Nat := 6 + length.toNat

/-- TCP.FRAME (R192). -/
def execTcpFrame (tid : U16) (unit fc : Byte) (payload : Bytes) (s : State) : Host.Outcome State Fault Refusal :=
  if pduValid fc payload.length then .next (s.accept s.block (.adu (tcpFrame tid unit fc payload)))
  else .next (s.refuse .badPdu)

/-- TCP.PARSEHDR (R194). -/
def execTcpParseHdr (hdr : Bytes) (s : State) : Host.Outcome State Fault Refusal :=
  let h := tcpParseHdr hdr
  if h.length = 0 then .next (s.refuse .badLen)
  else .next (s.accept s.block (.header h.tid h.proto h.length h.unit (tcpPduBytes h.length)))

end Sys2Proof.Machine
end

