-- ==== Sys2Proof/Machine/TcpTransport.lean ====
section
/-! DEFINITION. The TCP transport (45_tcp_transport.md): open, close, submit with the choice of the transaction id,
write completion, receiving and correlating, timeout and retry. Each function follows the pseudocode of its rule. -/

namespace Sys2Proof.Machine

/-! ### Open, close, submit -/

/-- TCP.OPEN (R261). -/
def execTcpOpen (s : State) : Host.Outcome State Fault Refusal :=
  if s.block.tcp.isOpen then .next (s.refuse .alreadyOpen)
  else .next (s.accept (s.block.setTcpOpen true) .nothing)

/-- What TCP.CLOSE does to an open transport (R262). The table lists its entries in ascending id order (log 9). -/
def tcpClose (b : Block) : Block :=
  let b := (abortAll .tcp (b.tcp.tt.map fun p => p.2.elem.tag) b).setTcpTt []
  let b := (b.setTcpRxbuf []).setTcpRxfault false
  b.setTcpOpen false

/-- TCP.CLOSE (R262). -/
def execTcpClose (s : State) : Host.Outcome State Fault Refusal :=
  if s.block.tcp.isOpen then .next (s.accept (tcpClose s.block) .nothing) else .next (s.refuse .notOpen)

/-- The search of R263: the first id from `tid` on, modulo 65536, that is not in the table; at most `fuel` are tried. -/
def searchTid (tt : TransTable) : Nat → U16 → Option U16
  | 0, _          => none
  | fuel + 1, tid => if ttHas tid tt then searchTid tt fuel (tid + 1) else some tid

/-- The id that TCP.SUBMIT chooses (R263): all 65536 are tried. -/
def chooseTid (t : Tcp) : Option U16 := searchTid t.tt 65536 t.nextTid

/-- The entry that TCP.SUBMIT inserts (R263): the retry count sampled, the ADU framed, the timer not armed. -/
def tcpEntry (c : Cfg) (tid tag : U16) (unit fc : Byte) (payload : Bytes) : Entry :=
  { elem := { tag := tag, unit := unit, fc := fc, payload := payload, retries := c.tcpRetries.toNat,
              adu := tcpFrame tid unit fc payload }
    tmr := { armed := false, cnt := 0 } }

/-- What an accepted TCP.SUBMIT does, the id chosen (R263). -/
def tcpEnter (tid : U16) (e : Entry) (b : Block) : Block :=
  let b := b.setTcpNextTid (tid + 1)
  let b := b.setTcpTt (ttPut tid e b.tcp.tt)
  b.emit (.tcpTx e.elem.adu)

/-- TCP.SUBMIT (R263): the refusals in the order of R326. Where no id is free, which no run reaches, the rule's search
does not end: a fault (log 8). -/
def execTcpSubmit (tag : U16) (unit fc : Byte) (payload : Bytes) (s : State) : Host.Outcome State Fault Refusal :=
  if s.block.tcp.isOpen = false then .next (s.refuse .notOpen)
  else if pduValid fc payload.length = false then .next (s.refuse .badPdu)
  else if ttCount s.block.tcp.tt = s.build.ttDepth then .next (s.refuse .full)
  else
    match chooseTid s.block.tcp with
    | none     => .fault .noFreeTid
    | some tid =>
      .next (s.accept (tcpEnter tid (tcpEntry s.block.cfg tid tag unit fc payload) s.block) (.tid tid))

/-! ### Write completion -/

/-- The effect of TCP.WRDONE (R265). -/
def tcpWrDone (tid : U16) (b : Block) : Block :=
  match ttGet tid b.tcp.tt with
  | none   => b
  | some e =>
    if b.tcp.isOpen = true ∧ e.tmr.armed = false then
      b.setTcpTt (ttPut tid { e with tmr := Timer.arm b.cfg.tcpTimeout } b.tcp.tt)
    else b

/-- TCP.WRDONE (R265): an input event, it has no response. -/
def execTcpWrDone (tid : U16) (s : State) : Host.Outcome State Fault Refusal :=
  .next (s.setBlock (tcpWrDone tid s.block))

/-! ### Receiving and correlating -/

/-- A length field that no valid ADU has (R269). -/
def badMbapLength (length : U16) : Bool := decide (length.toNat < 2) || decide (254 < length.toNat)

/-- The length fault (R269). -/
def tcpLengthFault (b : Block) : Block := (b.setTcpRxfault true).setTcpRxbuf []

/-- What a whole received ADU with this id, function code and payload does (R270 to R272). -/
def tcpCorrelate (tid : U16) (fc : Byte) (payload : Bytes) (b : Block) : Block :=
  match ttGet tid b.tcp.tt with
  | none   => b.emit (.log .unmatchedTid tid)
  | some e =>
    let b := b.setTcpTt (ttRemove tid b.tcp.tt)
    if rspWellFormed fc payload.length then b.complete .tcp e.elem.tag .finished .noError fc payload
    else b.complete .tcp e.elem.tag .error .invalidResponseError fc payload

/-- `TcpEvaluate` (R268 to R272). -/
def tcpEvaluate (b : Block) : Block :=
  if b.tcp.rxbuf.length < 7 then b
  else
    let h := tcpParseHdr (slice b.tcp.rxbuf 0 7)
    if badMbapLength h.length then tcpLengthFault b
    else if b.tcp.rxbuf.length < tcpAduLen h.length then b
    else
      let fc := byteAt b.tcp.rxbuf 7
      let payload := slice b.tcp.rxbuf 8 (tcpAduLen h.length - 8)
      tcpCorrelate h.tid fc payload (b.setTcpRxbuf (bufDropFront b.tcp.rxbuf (tcpAduLen h.length)))

/-- The effect of TCP.RXB (R267). -/
def tcpRxb (x : Byte) (b : Block) : Block :=
  if b.tcp.isOpen = false then b
  else if b.tcp.rxfault then b
  else tcpEvaluate (b.setTcpRxbuf (bufAppend Config.tcpRxbufCap b.tcp.rxbuf x))

/-- TCP.RXB (R267): an input event, it has no response. -/
def execTcpRxb (x : Byte) (s : State) : Host.Outcome State Fault Refusal :=
  .next (s.setBlock (tcpRxb x s.block))

/-! ### Timeout and retry -/

/-- `TcpTimeout(tid)` (R273, R274), the action of the expiry of the entry's timer. -/
def tcpTimeout (tid : U16) (b : Block) : Block :=
  match ttGet tid b.tcp.tt with
  | none   => b
  | some e =>
    if 0 < e.elem.retries then
      (b.setTcpTt (ttPut tid { e with elem := { e.elem with retries := e.elem.retries - 1 } } b.tcp.tt)).emit
        (.tcpTx e.elem.adu)
    else
      (b.setTcpTt (ttRemove tid b.tcp.tt)).completeEmpty .tcp e.elem.tag .error .timeoutError

end Sys2Proof.Machine
end

