-- ==== Sys2Proof/Machine/Control.lean ====
section
/-! DEFINITION. Configuration access, NOP and TICK (46_config_and_tick.md). -/

namespace Sys2Proof.Machine

/-! ### Configuration (R301, R302) -/

/-- `CFG[idx]` for the writable registers 0 to 6 (R40). -/
def cfgGet (idx : Byte) (c : Cfg) : Option U32 :=
  match idx.toNat with
  | 0 => some c.baud
  | 1 => some c.ifdOvr
  | 2 => some c.turnaround
  | 3 => some c.rtuTimeout
  | 4 => some c.rtuRetries
  | 5 => some c.tcpTimeout
  | 6 => some c.tcpRetries
  | _ => none

/-- `CFG[idx] <- val` for the writable registers 0 to 6 (R40); no other index has one. -/
def cfgSet (idx : Byte) (val : U32) (c : Cfg) : Cfg :=
  match idx.toNat with
  | 0 => { c with baud := val }
  | 1 => { c with ifdOvr := val }
  | 2 => { c with turnaround := val }
  | 3 => { c with rtuTimeout := val }
  | 4 => { c with rtuRetries := val }
  | 5 => { c with tcpTimeout := val }
  | 6 => { c with tcpRetries := val }
  | _ => c

/-- CFG.WR (R301). -/
def execCfgWr (idx : Byte) (val : U32) (s : State) : Host.Outcome State Fault Refusal :=
  if 6 < idx.toNat then .next (s.refuse .badReg)
  else if idx = 0 ∧ val = 0 ∧ s.block.rtu.isOpen = true then .next (s.refuse .badCfg)
  else .next (s.accept (s.block.setCfg (cfgSet idx val s.block.cfg)) .nothing)

/-- The value CFG.RD reads (R302): a register, or a read-only view (R39); none for a reserved index. -/
def cfgRead (idx : Byte) (b : Block) : Option U32 :=
  match cfgGet idx b.cfg with
  | some v => some v
  | none   => readOnlyView idx b

/-- CFG.RD (R302). -/
def execCfgRd (idx : Byte) (s : State) : Host.Outcome State Fault Refusal :=
  match cfgRead idx s.block with
  | some v => .next (s.accept s.block (.val v))
  | none   => .next (s.refuse .badReg)

/-- NOP (R304). -/
def execNop (s : State) : Host.Outcome State Fault Refusal :=
  .next (s.accept s.block .nothing)

/-! ### TICK (R305, R307) -/

/-- The timers of the block (R341). -/
inductive TimerId where
  | rtuDly | rtuRspt | tcpTmr (tid : U16)
deriving DecidableEq, Repr

/-- A timer, where it exists. -/
def timerOf (b : Block) : TimerId → Option Timer
  | .rtuDly   => some b.rtu.dly
  | .rtuRspt  => some b.rtu.rspt
  | .tcpTmr t => (ttGet t b.tcp.tt).map Entry.tmr

/-- `ALL` of R305: the RTU timers, then the TCP entries' in ascending id order. -/
def allTimers (b : Block) : List TimerId :=
  [.rtuDly, .rtuRspt] ++ (ttKeys b.tcp.tt).map TimerId.tcpTmr

/-- `E` of R305: the timers that expire in this TICK, in the order of `ALL`. -/
def expiring (b : Block) : List TimerId :=
  (allTimers b).filter fun i => (timerOf b i).any Timer.expires

/-- An entry whose timer has counted down. -/
def Entry.countDown (e : Entry) : Entry := { e with tmr := e.tmr.countDown }

/-- Every armed timer that does not expire counts down by one (R305). -/
def countDownAll (b : Block) : Block :=
  let b := (b.setRtuDly b.rtu.dly.countDown).setRtuRspt b.rtu.rspt.countDown
  b.setTcpTt (b.tcp.tt.map fun p => (p.1, p.2.countDown))

/-- `T.armed <- 0`. -/
def disarm (b : Block) : TimerId → Block
  | .rtuDly   => b.setRtuDly b.rtu.dly.stop
  | .rtuRspt  => b.setRtuRspt b.rtu.rspt.stop
  | .tcpTmr t =>
    match ttGet t b.tcp.tt with
    | none   => b
    | some e => b.setTcpTt (ttPut t { e with tmr := e.tmr.stop } b.tcp.tt)

/-- `fire(T)` (R305). -/
def fire (b : Block) : TimerId → Block
  | .rtuDly   => rtuSend b
  | .rtuRspt  => rtuTimeout b
  | .tcpTmr t => tcpTimeout t b

/-- One timer of `E` in its turn (R305, R307 item 4): if it still exists and is armed, disarm it and fire. -/
def expire (b : Block) (i : TimerId) : Block :=
  match timerOf b i with
  | none   => b
  | some t => if t.armed then fire (disarm b i) i else b

/-- The effect of one TICK (R305). -/
def tickBlock (b : Block) : Block := (expiring b).foldl expire (countDownAll b)

/-- TICK (R305): an input event, it has no response. -/
def execTick (s : State) : Host.Outcome State Fault Refusal :=
  .next (s.setBlock (tickBlock s.block))

end Sys2Proof.Machine
end

