-- ==== Sys2Proof/Machine/Dispatch.lean ====
section
/-! DEFINITION. The dispatch: one arm per constructor of `Instr`. -/

namespace Sys2Proof.Machine

def exec (i : Instr) (s : State) : Host.Outcome State Fault Refusal :=
  match i with
  | .nop => Sys2Proof.Machine.execNop s
  | .crcInit => Sys2Proof.Machine.execCrcInit s
  | .crcUpd b => Sys2Proof.Machine.execCrcUpd b s
  | .crcGet => Sys2Proof.Machine.execCrcGet s
  | .rtuFrame unit fc payload => Sys2Proof.Machine.execRtuFrame unit fc payload s
  | .rtuParse adu => Sys2Proof.Machine.execRtuParse adu s
  | .tcpFrame tid unit fc payload => Sys2Proof.Machine.execTcpFrame tid unit fc payload s
  | .tcpParseHdr hdr => Sys2Proof.Machine.execTcpParseHdr hdr s
  | .rtuOpen => Sys2Proof.Machine.execRtuOpen s
  | .rtuClose => Sys2Proof.Machine.execRtuClose s
  | .rtuSubmit tag unit fc payload => Sys2Proof.Machine.execRtuSubmit tag unit fc payload s
  | .rtuRxb b => Sys2Proof.Machine.execRtuRxb b s
  | .rtuWrDone => Sys2Proof.Machine.execRtuWrDone s
  | .tcpOpen => Sys2Proof.Machine.execTcpOpen s
  | .tcpClose => Sys2Proof.Machine.execTcpClose s
  | .tcpSubmit tag unit fc payload => Sys2Proof.Machine.execTcpSubmit tag unit fc payload s
  | .tcpRxb b => Sys2Proof.Machine.execTcpRxb b s
  | .tcpWrDone tid => Sys2Proof.Machine.execTcpWrDone tid s
  | .cfgWr idx val => Sys2Proof.Machine.execCfgWr idx val s
  | .cfgRd idx => Sys2Proof.Machine.execCfgRd idx s
  | .tick => Sys2Proof.Machine.execTick s

end Sys2Proof.Machine
end

