-- ==== Sys2Proof/Machine/Step.lean ====
section
/-! DEFINITION. One step of the machine: the next thing the environment presents (R12, R70), run whole. -/

namespace Sys2Proof.Machine

/-- One step. Nothing presented: nothing changes (60_exceptions.md R345; log 10). The reset event: R360. A byte
string: the operation at its front runs on the state from which its bytes are consumed; a reserved opcode is refused
after one byte (R112); a string that is no whole command word is refused (log 2). -/
def step (s : State) : Host.Outcome State Fault Refusal :=
  match s.input with
  | []              => .next s
  | .reset :: later => .next (s.applyReset later)
  | .word w :: later =>
    match decode w with
    | .op i tail       => exec i (s.setInput (remaining tail later))
    | .reserved _ tail => .next ((s.setInput (remaining tail later)).refuse .badOpcode)
    | .truncated       => .refused .truncatedWord

/-- The state with one command word, the one the table word stands for, presented next (log 1). -/
def State.withFetchWord (s : State) (nbits w : Nat) : State :=
  s.setInput (.word (tableBytes nbits w) :: s.input)

end Sys2Proof.Machine
end

