-- ==== Sys2Proof/Safety.lean ====
section
/-! DEFINITION. What a safe state and a safe output are: the invariants of 44_rtu_transport.md R234 and
45_tcp_transport.md R275 with the capacities of 10_state.md, the legal output events, and the words in which claims
about runs and traces are stated. -/

namespace Sys2Proof.Machine

/-! ### Invariants -/

/-- The invariants of the RTU transport (R234 items 1 to 8, by number), with the capacities of R27 and R29. -/
structure RtuInv (p : Build) (c : Cfg) (r : Rtu) : Prop where
  /-- item 1 -/
  settled     : r.st ≠ .processReply
  /-- item 2 -/
  dlyArmed    : r.dly.armed = true → r.isOpen = true ∧ r.st = .idle ∧ r.q ≠ []
  /-- item 3 -/
  rsptArmed   : r.rspt.armed = true → r.st = .waitingForReply ∧ ∃ e, r.q.head? = some e ∧ isBroadcast e = false
  /-- item 4 -/
  closedClean : r.isOpen = false →
    r.q = [] ∧ r.dly.armed = false ∧ r.rspt.armed = false ∧ r.st = .idle ∧ r.rxbuf = [] ∧ r.rxovf = false
  /-- item 5 -/
  scheduled   : r.isOpen = true → r.st = .idle → r.q ≠ [] → r.dly.armed = true
  /-- item 6 -/
  awaited     : r.st = .waitingForReply → ∃ e, r.q.head? = some e ∧ (isBroadcast e = false → r.rspt.armed = true)
  /-- item 7 -/
  openBaud    : r.isOpen = true → c.baud ≠ 0
  /-- item 8 -/
  framed      : ∀ e ∈ r.q, pduValid e.fc e.payload.length = true ∧ e.adu = rtuFrame e.unit e.fc e.payload
  /-- R27: at most `RTU_Q_DEPTH` elements -/
  qBound      : r.q.length ≤ p.rtuQDepth
  /-- R29: at most `RTU_RXBUF_CAP` bytes -/
  rxBound     : r.rxbuf.length ≤ Config.rtuRxbufCap

/-- The table's canonical form: keys strictly ascending, so no key twice (R63, R264; log 9). -/
def ttSorted (tt : TransTable) : Prop := (ttKeys tt).Pairwise fun a b => a.toNat < b.toNat

/-- An entry is as TCP.SUBMIT makes it (R275 item 3). -/
def entryFramed (p : U16 × Entry) : Prop :=
  pduValid p.2.elem.fc p.2.elem.payload.length = true ∧
    p.2.elem.adu = tcpFrame p.1 p.2.elem.unit p.2.elem.fc p.2.elem.payload

/-- The invariants of the TCP transport (R275 items 1 to 5, by number), with the canonical form of the table. -/
structure TcpInv (p : Build) (t : Tcp) : Prop where
  sorted      : ttSorted t.tt
  /-- item 1 -/
  closedClean : t.isOpen = false → t.tt = [] ∧ t.rxbuf = [] ∧ t.rxfault = false
  /-- item 2 -/
  countBound  : ttCount t.tt ≤ p.ttDepth
  /-- item 3 -/
  framed      : ∀ x ∈ t.tt, entryFramed x
  /-- item 4 -/
  rxShort     : t.rxbuf.length < Config.tcpRxbufCap
  /-- item 4 -/
  rxPartial   : 7 ≤ t.rxbuf.length →
    2 ≤ (tcpParseHdr t.rxbuf).length.toNat ∧ (tcpParseHdr t.rxbuf).length.toNat ≤ 254 ∧
      t.rxbuf.length < tcpAduLen (tcpParseHdr t.rxbuf).length
  /-- item 5 -/
  faultClean  : t.rxfault = true → t.rxbuf = []

/-- An output event the block may emit: a whole ADU of legal length (R72, R93, R96) with a good trailer or header, a
completion with an Error code the block raises (R320, R327) and the fields R52 and R320 give it, an `IERR` on RTU (R323). -/
def Event.legal : Event → Prop
  | .serTx adu =>
    4 ≤ adu.length ∧ adu.length ≤ 256 ∧ (rtuParse adu).crcValid = true ∧ 1 ≤ (baseFc (rtuParse adu).fc).toNat
  | .tcpTx adu =>
    8 ≤ adu.length ∧ adu.length ≤ 260 ∧ (tcpParseHdr adu).proto = 0 ∧ adu.length = tcpAduLen (tcpParseHdr adu).length
  | .done port _ state err fc payload =>
    payload.length ≤ 252 ∧
      ((state = .finished ∧ err = .noError) ∨
       (state = .error ∧ (err = .timeoutError ∨ err = .replyAbortedError) ∧ fc = 0x00 ∧ payload = []) ∨
       (state = .error ∧ err = .invalidResponseError ∧ port = .tcp))
  | .ierr port _ _ => port = .rtu
  | .log _ _ => True

/-- The invariant of the machine. -/
structure State.Inv (s : State) : Prop where
  rtu : RtuInv s.build s.block.cfg s.block.rtu
  tcp : TcpInv s.build s.block.tcp
  out : ∀ e ∈ s.block.out, e.legal

/-! ### Runs and traces -/

/-- Run operations one after another on their own (R70), stopping at the first that does not answer a next state. -/
def runOps : List Instr → State → Host.Outcome State Fault Refusal
  | [], s => .next s
  | i :: is, s =>
    match exec i s with
    | .next t    => runOps is t
    | .fault f   => .fault f
    | .refused r => .refused r

/-- `TICKS k` (R115). -/
def ticks (k : Nat) : List Instr := List.replicate k .tick

/-- The events of the RTU side: `SER_TX`, `IERR`, and `DONE` with `port = RTU`. -/
def Event.isRtu : Event → Bool
  | .serTx _ => true
  | .done port _ _ _ _ _ => decide (port = .rtu)
  | .ierr _ _ _ => true
  | .tcpTx _ | .log _ _ => false

/-- The RTU side of a trace, in order. -/
def rtuTrace (out : List Event) : List Event := out.filter Event.isRtu

/-- The TCP side of a trace, in order. -/
def tcpTrace (out : List Event) : List Event := out.filter fun e => !e.isRtu

/-- The tag of a `DONE` on this port. -/
def Event.doneTag (port : Transport) : Event → Option U16
  | .done p tag _ _ _ _ => if p = port then some tag else none
  | _ => none

/-- The tags of the completions on one port, in the order of their `DONE` events. -/
def doneTags (port : Transport) (out : List Event) : List U16 := out.filterMap (Event.doneTag port)

/-- The tags of the requests waiting in `RTU_Q`, head first. -/
def queuedTags (b : Block) : List U16 := b.rtu.q.map Elem.tag

/-- The tags of the requests outstanding in `TCP_TT`. -/
def tableTags (b : Block) : List U16 := b.tcp.tt.map fun p => p.2.elem.tag

/-- The tag of an operation whose response, the last one given, accepts it (R113). -/
def acceptedTag (tag : U16) (after : State) : List U16 :=
  match after.rsp.getLast? with
  | some (.ok _) => [tag]
  | _            => []

/-- The tag that this operation submits to RTU, if it is accepted. -/
def rtuAccepted (i : Instr) (after : State) : List U16 :=
  match i with
  | .rtuSubmit tag _ _ _ => acceptedTag tag after
  | _ => []

/-- The tag that this operation submits to TCP, if it is accepted. -/
def tcpAccepted (i : Instr) (after : State) : List U16 :=
  match i with
  | .tcpSubmit tag _ _ _ => acceptedTag tag after
  | _ => []

end Sys2Proof.Machine
end

