-- ==== Sys2Proof/Certificates/Slice0/Obligations.lean ====
section
/-! DEFINITION. The statements for the provers, one per def Obligations.<Name>. Each docstring names the rule of spec/ it
formalises, and says where a clause rests on the model's own choice. -/

open Sys2Proof Sys2Proof.Machine

namespace Sys2Proof.Machine

/-! ### Words used in the statements -/

/-- The reserved opcodes, in the ranges of R112. -/
abbrev reservedOpcode (op : Byte) : Prop :=
  (0x04 ≤ op.toNat ∧ op.toNat ≤ 0x0F) ∨ (0x14 ≤ op.toNat ∧ op.toNat ≤ 0x1F) ∨ (0x25 ≤ op.toNat ∧ op.toNat ≤ 0x2F) ∨
    (0x35 ≤ op.toNat ∧ op.toNat ≤ 0x3F) ∨ (0x42 ≤ op.toNat ∧ op.toNat ≤ 0x7E) ∨ (0x80 ≤ op.toNat ∧ op.toNat ≤ 0xFF)

/-- What is presented after an operation with the bytes `tail` behind it. -/
def leftOver (tail : Bytes) (later : List Presented) : List Presented :=
  if tail = [] then later else [.word tail] ++ later

/-- The low byte of a 16-bit value. -/
def lowByte (v : U16) : Byte := BitVec.ofNat 8 v.toNat

/-- The high byte of a 16-bit value. -/
def highByte (v : U16) : Byte := BitVec.ofNat 8 (v.toNat / 256)

/-- The machine with a response more. -/
def answered (s : State) (r : Response) : State := { s with rsp := s.rsp ++ [r] }

/-- The RTU transport with one more byte received (R222): stored, or dropped with `RTU_RXOVF` set. -/
def withByte (x : Byte) (r : Rtu) : Rtu :=
  if r.rxbuf.length < 256 then { r with rxbuf := r.rxbuf ++ [x] } else { r with rxovf := true }

/-- The delay timer after `RtuKick(d)` in the Idle state (R216): armed if it was not and an element is queued. -/
def kicked (d : U32) (q : List Elem) (dly : Timer) : Timer :=
  if dly.armed = false ∧ q ≠ [] then { armed := true, cnt := d } else dly

/-- The length a command word of each operation has (R110, R111). -/
def wordLengthOf : Instr → Nat
  | .crcUpd _ | .rtuRxb _ | .tcpRxb _ | .cfgRd _ => 2
  | .tcpWrDone _ => 3
  | .cfgWr _ _ => 6
  | .tcpParseHdr _ => 8
  | .rtuFrame _ _ p => 4 + p.length
  | .rtuParse adu => 3 + adu.length
  | .tcpFrame _ _ _ p | .rtuSubmit _ _ _ p | .tcpSubmit _ _ _ p => 6 + p.length
  | .nop | .crcInit | .crcGet | .rtuOpen | .rtuClose | .rtuWrDone | .tcpOpen | .tcpClose | .tick => 1

/-- A byte sequence with its bit `i` inverted, bits numbered from bit 0 of byte 0. -/
def flipBit (i : Nat) (s : Bytes) : Bytes := s.modify (i / 8) fun x => x ^^^ (1#8 <<< (i % 8))

/-- What one TICK does to a table entry (R305, R273, R274): it counts down, or it expires and is resent or removed. -/
def tickEntry (p : U16 × Entry) : Option (U16 × Entry) :=
  if p.2.tmr.armed = true ∧ p.2.tmr.cnt.toNat ≤ 1 then
    if 0 < p.2.elem.retries then
      some (p.1, { elem := { p.2.elem with retries := p.2.elem.retries - 1 }, tmr := { p.2.tmr with armed := false } })
    else none
  else if p.2.tmr.armed = true then some (p.1, { p.2 with tmr := { p.2.tmr with cnt := p.2.tmr.cnt - 1 } })
  else some p

/-- What one TICK emits for a table entry (R273, R274). -/
def tickEvents (p : U16 × Entry) : List Event :=
  if p.2.tmr.armed = true ∧ p.2.tmr.cnt.toNat ≤ 1 then
    if 0 < p.2.elem.retries then [.tcpTx p.2.elem.adu]
    else [.done .tcp p.2.elem.tag .error .timeoutError 0x00 []]
  else []

/-- The operations that R326 says may raise each refusal code. -/
def mayRaise : RefusalCode → Instr → Bool
  | .notOpen, .rtuClose | .notOpen, .rtuSubmit _ _ _ _ | .notOpen, .tcpClose | .notOpen, .tcpSubmit _ _ _ _ => true
  | .alreadyOpen, .rtuOpen | .alreadyOpen, .tcpOpen => true
  | .badPdu, .rtuFrame _ _ _ | .badPdu, .tcpFrame _ _ _ _ | .badPdu, .rtuSubmit _ _ _ _ | .badPdu, .tcpSubmit _ _ _ _ => true
  | .full, .rtuSubmit _ _ _ _ | .full, .tcpSubmit _ _ _ _ => true
  | .badCfg, .rtuOpen | .badCfg, .cfgWr _ _ => true
  | .badReg, .cfgWr _ _ | .badReg, .cfgRd _ => true
  | .badLen, .rtuParse _ | .badLen, .tcpParseHdr _ => true
  | _, _ => false

/-- The kind of value that R113 says each accepted operation returns. -/
def returns : Instr → Returned → Bool
  | .crcGet, .crc _ _ => true
  | .rtuFrame _ _ _, .adu _ | .tcpFrame _ _ _ _, .adu _ => true
  | .rtuParse _, .parsed _ _ _ _ => true
  | .tcpParseHdr _, .header _ _ _ _ _ => true
  | .tcpSubmit _ _ _ _, .tid _ => true
  | .cfgRd _, .val _ => true
  | .nop, .nothing | .crcInit, .nothing | .crcUpd _, .nothing | .rtuOpen, .nothing | .rtuClose, .nothing
  | .rtuSubmit _ _ _ _, .nothing | .tcpOpen, .nothing | .tcpClose, .nothing | .cfgWr _ _, .nothing => true
  | _, _ => false

end Sys2Proof.Machine

/-! ### Command words and the step -/

/-- 30_encoding.md R110: one written-out word of each operand shape reads as its operation (the words of
95_test_vectors.md V9, V11 and V12). -/
def Obligations.WrittenOutWordsReadAsTheirOperations : Prop :=
  decode [0x00] = .op .nop [] ∧
  decode [0x02, 0x0A] = .op (.crcUpd 0x0A) [] ∧
  decode [0x10, 0x01, 0x05, 0x04, 0x00, 0xAC, 0xFF, 0x00] = .op (.rtuFrame 0x01 0x05 [0x00, 0xAC, 0xFF, 0x00]) [] ∧
  decode [0x11, 0x00, 0x05, 0x01, 0x85, 0x02, 0xC3, 0x51] = .op (.rtuParse [0x01, 0x85, 0x02, 0xC3, 0x51]) [] ∧
  decode [0x13, 0x12, 0x34, 0x00, 0x00, 0x00, 0x05, 0x01] =
    .op (.tcpParseHdr [0x12, 0x34, 0x00, 0x00, 0x00, 0x05, 0x01]) [] ∧
  decode [0x22, 0x00, 0x07, 0x01, 0x03, 0x04, 0x00, 0x00, 0x00, 0x0A] =
    .op (.rtuSubmit 7 0x01 0x03 [0x00, 0x00, 0x00, 0x0A]) [] ∧
  decode [0x34, 0x00, 0x02] = .op (.tcpWrDone 2) [] ∧
  decode [0x40, 0x00, 0x00, 0x00, 0x25, 0x80] = .op (.cfgWr 0 9600) [] ∧
  decode [0x7F] = .op .tick []

/-- 20_memory.md R70, 00_scope.md R12: a step takes the operation at the front of what is presented and runs it whole.
The list `input` is the model's (log 1). -/
def Obligations.StepRunsThePresentedOperation : Prop :=
  ∀ (s : State) (w tail : Bytes) (later : List Presented) (i : Instr),
    s.input = .word w :: later → decode w = .op i tail → step s = exec i { s with input := leftOver tail later }

/-- 60_exceptions.md R345, as the model reads it: nothing presented, nothing changes (log 10); and two choices of the
model: a byte string that is no whole command word is refused by name (log 2); after a reset event what is presented
later stays (log 16) and the response trace starts again empty (log 3). -/
def Obligations.StepWithoutAnOperation : Prop :=
  (∀ s : State, s.input = [] → step s = .next s) ∧
  (∀ (s : State) (w : Bytes) (later : List Presented),
    s.input = .word w :: later → (∀ i rest, w ≠ encode i ++ rest ∨ i.wf = false) →
    (∀ op, w.head? = some op → ¬ reservedOpcode op) → step s = .refused .truncatedWord) ∧
  ∀ (s : State) (later : List Presented), s.input = .reset :: later →
    ∃ t, step s = .next t ∧ t.input = later ∧ t.rsp = []

/-- 30_encoding.md R112: a reserved opcode is refused with `RC_BAD_OPCODE` = 7, is one byte long, changes no state; no
operation of any port has one. -/
def Obligations.ReservedOpcodeIsRefusedAfterOneByte : Prop :=
  (∀ i : Instr, ¬ reservedOpcode i.opcode) ∧ RefusalCode.badOpcode.code = 7 ∧
  ∀ (s : State) (op : Byte) (tail : Bytes) (later : List Presented),
    reservedOpcode op → s.input = .word (op :: tail) :: later →
    step s = .next { s with input := leftOver tail later, rsp := s.rsp ++ [.refused .badOpcode] }

/-- 30_encoding.md R110, R111: decoding an encoded well-formed instruction gives it back, with every operand, and leaves
exactly the bytes after it. -/
def Obligations.DecodeAndEncodeAgree : Prop :=
  ∀ (i : Instr) (rest : Bytes), i.wf = true → decode (encode i ++ rest) = .op i rest

/-- 30_encoding.md R110: what the decoder reads as an operation is the encoding of that operation and nothing else. -/
def Obligations.DecodedWordsAreEncodings : Prop :=
  ∀ (w rest : Bytes) (i : Instr), decode w = .op i rest → i.wf = true ∧ encode i ++ rest = w

/-- 30_encoding.md R111: the length of each command word; `n` above 252 is refused with `RC_BAD_PDU`, `m` outside 4 to
256 with `RC_BAD_LEN`, each after the whole word has been consumed (for the submissions, on an open transport: a closed
one refuses with `RC_NOT_OPEN` first, R326). -/
def Obligations.CommandWordsAreConsumedWhole : Prop :=
  (∀ i : Instr, i.wf = true → (encode i).length = wordLengthOf i) ∧
  (∀ (s : State) (tag tid : U16) (unit fc : Byte) (p tail : Bytes) (later : List Presented) (i : Instr),
    252 < p.length → p.length ≤ 255 →
    (i = .rtuFrame unit fc p ∨ i = .tcpFrame tid unit fc p ∨
      (i = .rtuSubmit tag unit fc p ∧ s.block.rtu.isOpen = true) ∨
      (i = .tcpSubmit tag unit fc p ∧ s.block.tcp.isOpen = true)) →
    s.input = .word (encode i ++ tail) :: later →
    step s = .next { s with input := leftOver tail later, rsp := s.rsp ++ [.refused .badPdu] }) ∧
  (∀ (s : State) (adu tail : Bytes) (later : List Presented),
    adu.length ≤ 65535 → adu.length < 4 ∨ 256 < adu.length →
    s.input = .word (encode (.rtuParse adu) ++ tail) :: later →
    step s = .next { s with input := leftOver tail later, rsp := s.rsp ++ [.refused .badLen] })

/-! ### Reset -/

/-- 10_state.md R56: the reset event sets every state element to the value of the table. The parameters are the build's
and stay (R55). -/
def Obligations.ResetEventSetsEveryElement : Prop :=
  ∀ (s : State) (later : List Presented), s.input = .reset :: later →
    ∃ t, step s = .next t ∧ t.build = s.build ∧
      t.block =
        { crc := 0xFFFF
          rtu := { isOpen := false, st := .idle, dly := { armed := false, cnt := 0 },
                   rspt := { armed := false, cnt := 0 }, q := [], rxbuf := [], rxovf := false }
          tcp := { isOpen := false, tt := [], nextTid := 0, rxbuf := [], rxfault := false }
          cfg := { baud := 0, ifdOvr := 0, turnaround := 100,
                   rtuTimeout := s.build.resetRtuTimeout, rtuRetries := s.build.resetRtuRetries,
                   tcpTimeout := s.build.resetTcpTimeout, tcpRetries := s.build.resetTcpRetries }
          out := [] }

/-- 44_rtu_transport.md section 7 and 45_tcp_transport.md section 6: the invariants hold after reset, for every build. -/
def Obligations.ResetMeetsTheInvariant : Prop :=
  State.reset.Inv ∧
  ∀ (p : Build) (i : List Presented) (r : List Response),
    State.Inv { build := p, block := Block.atReset p, input := i, rsp := r }

/-- 44_rtu_transport.md section 7 (R234) and 45_tcp_transport.md section 6 (R275): every step keeps the invariants, with
the capacities, the table's canonical form and the legality of every emitted event. -/
def Obligations.StepKeepsTheInvariant : Prop :=
  ∀ s t : State, s.Inv → step s = .next t → t.Inv

/-! ### CRC -/

/-- 41_crc.md R152: `CrcStep` written out, and the rule's corner cases. -/
def Obligations.CrcStepIsTheBitLoop : Prop :=
  (∀ (c : U16) (b : Byte),
    let bitStep : U16 → U16 := fun c => if c % 2#16 = 1#16 then (c >>> 1) ^^^ 0xA001#16 else c >>> 1
    crcStep c b =
      bitStep (bitStep (bitStep (bitStep (bitStep (bitStep (bitStep (bitStep (c ^^^ BitVec.ofNat 16 b.toNat))))))))) ∧
  crcStep 0x0000 0x00 = 0x0000 ∧ crcStep 0xFFFF 0x00 = 0x40BF ∧ crcStep 0xFFFF 0xFF = 0x00FF ∧
  crcStep 0xFFFF 0x01 = 0x807E

/-- 41_crc.md R153, R154, R155: the three operations with their encodings; `CRC` and the response are all that changes. -/
def Obligations.CrcOperationsTouchOnlyTheirRegister : Prop :=
  ∀ (s : State) (b : Byte),
    exec .crcInit s = .next { s with block := { s.block with crc := 0xFFFF }, rsp := s.rsp ++ [.ok .nothing] } ∧
    exec (.crcUpd b) s =
      .next { s with block := { s.block with crc := crcStep s.block.crc b }, rsp := s.rsp ++ [.ok .nothing] } ∧
    exec .crcGet s = .next (answered s (.ok (.crc (lowByte s.block.crc) (highByte s.block.crc)))) ∧
    encode .crcInit = [0x01] ∧ encode (.crcUpd b) = [0x02, b] ∧ encode .crcGet = [0x03]

/-- 41_crc.md R156 items 1 and 2: `Crc16` is incremental, a frame with its trailer has residue 0, and the two ways to
check a frame accept the same frames. -/
def Obligations.CrcIsIncrementalWithZeroResidue : Prop :=
  (∀ s t : Bytes, crc16 (s ++ t) = t.foldl crcStep (crc16 s)) ∧
  (∀ s : Bytes, crc16 (s ++ [lowByte (crc16 s), highByte (crc16 s)]) = 0) ∧
  (∀ adu : Bytes, 4 ≤ adu.length → ((rtuParse adu).crcValid = true ↔ crc16 adu = 0))

/-- 41_crc.md R157: CRC.INIT, one CRC.UPD a byte, CRC.GET answers the CRC of the bytes, low byte first, and touches
nothing but `CRC` and the responses. -/
def Obligations.HostCrcSequenceComputesTheCrc : Prop :=
  ∀ (s : State) (bytes : Bytes),
    runOps (.crcInit :: (bytes.map Instr.crcUpd ++ [.crcGet])) s =
      .next { s with block := { s.block with crc := crc16 bytes },
                     rsp := s.rsp ++ List.replicate (bytes.length + 1) (.ok .nothing) ++
                       [.ok (.crc (lowByte (crc16 bytes)) (highByte (crc16 bytes)))] }

/-- 42_rtu_framer.md R175, the sentence the spec marks as general knowledge (93_implementation_defined.md G9): a framed ADU
with any single bit changed fails its CRC. -/
def Obligations.EverySingleBitErrorIsDetected : Prop :=
  ∀ (unit fc : Byte) (p : Bytes) (i : Nat), i < 8 * (p.length + 4) →
    (rtuParse (flipBit i (rtuFrame unit fc p))).crcValid = false

/-! ### Framers and PDU helpers -/

/-- 40_pdu.md R131, R132: which PDUs are valid and which responses are well formed. -/
def Obligations.ValidAndWellFormedPdus : Prop :=
  ∀ (fc : Byte) (n : Nat),
    (pduValid fc n = true ↔ fc ≠ 0x00 ∧ fc ≠ 0x80 ∧ n ≤ 252) ∧
    (rspWellFormed fc n = true ↔ fc ≠ 0x00 ∧ fc ≠ 0x80 ∧ n ≤ 252 ∧ (0x80 ≤ fc.toNat → n = 1))

/-- 40_pdu.md R134: the size of a response by class, exceptions first; and once computable it stays the same as more
bytes arrive. -/
def Obligations.ResponseSizeByClassIsStable : Prop :=
  ∀ (z : Sizer) (fc : Byte) (avail more : Bytes) (d k : Nat),
    (0x80 ≤ fc.toNat → rspDataSize z fc avail = some 1) ∧
    (fc.toNat < 0x80 →
      (sizeClassOf z fc = .fixed k → rspDataSize z fc avail = some k) ∧
      (sizeClassOf z fc = .unknown → rspDataSize z fc avail = none) ∧
      (sizeClassOf z fc = .byteCount1 → rspDataSize z fc [] = none ∧
        ∀ a r, rspDataSize z fc (a :: r) = some (1 + a.toNat)) ∧
      (sizeClassOf z fc = .fifo16 → rspDataSize z fc [] = none ∧ (∀ a, rspDataSize z fc [a] = none) ∧
        ∀ a b r, rspDataSize z fc (a :: b :: r) = some (a.toNat * 256 + b.toNat + 2))) ∧
    (rspDataSize z fc avail = some d → rspDataSize z fc (avail ++ more) = some d)

/-- 40_pdu.md section 3 (R136): the default table, code by code. That `State.reset` has it is the model's choice
(log 5); some of its rows the spec marks as general knowledge (G7). -/
def Obligations.DefaultTableOfResponseSizes : Prop :=
  State.reset.build.rspSizer = defaultSizer ∧
  ∀ c : Byte, sizeClassOf defaultSizer c =
    if c ∈ [0x01, 0x02, 0x03, 0x04, 0x0C, 0x11, 0x14, 0x15, 0x17] then .byteCount1
    else if c ∈ [0x05, 0x06, 0x08, 0x0B, 0x0F, 0x10] then .fixed 4
    else if c = 0x07 then .fixed 1
    else if c = 0x16 then .fixed 6
    else if c = 0x18 then .fifo16
    else .unknown

/-- 42_rtu_framer.md R170, R172: RTU.FRAME. -/
def Obligations.RtuFrameBuildsTheAdu : Prop :=
  ∀ (s : State) (unit fc : Byte) (p : Bytes),
    encode (.rtuFrame unit fc p) = [0x10, unit, fc, BitVec.ofNat 8 p.length] ++ p ∧
    (rtuFrame unit fc p).length = p.length + 4 ∧
    rtuFrame unit fc p =
      [unit, fc] ++ p ++ [lowByte (crc16 ([unit, fc] ++ p)), highByte (crc16 ([unit, fc] ++ p))] ∧
    (p.length ≤ 252 → fc ≠ 0x00 → fc ≠ 0x80 →
      exec (.rtuFrame unit fc p) s = .next (answered s (.ok (.adu (rtuFrame unit fc p))))) ∧
    (252 < p.length ∨ fc = 0x00 ∨ fc = 0x80 →
      exec (.rtuFrame unit fc p) s = .next (answered s (.refused .badPdu)))

/-- 42_rtu_framer.md R173, R174: RTU.PARSE. -/
def Obligations.RtuParseTakesTheAduApart : Prop :=
  ∀ (s : State) (adu : Bytes),
    (encode (.rtuParse adu) = [0x11, BitVec.ofNat 8 (adu.length / 256), BitVec.ofNat 8 adu.length] ++ adu) ∧
    (adu.length < 4 ∨ 256 < adu.length → exec (.rtuParse adu) s = .next (answered s (.refused .badLen))) ∧
    ∀ (unit fc lo hi : Byte) (p : Bytes), adu = [unit, fc] ++ p ++ [lo, hi] → adu.length ≤ 256 →
      exec (.rtuParse adu) s =
        .next (answered s (.ok (.parsed unit fc p
          (decide ((crc16 ([unit, fc] ++ p)).toNat = lo.toNat + 256 * hi.toNat)))))

/-- 42_rtu_framer.md section 1 (R175): framing and parsing are inverse to each other. -/
def Obligations.RtuFrameAndParseAreInverse : Prop :=
  (∀ (unit fc : Byte) (p : Bytes),
    rtuParse (rtuFrame unit fc p) = { unit := unit, fc := fc, payload := p, crcValid := true }) ∧
  ∀ adu : Bytes, 4 ≤ adu.length → (rtuParse adu).crcValid = true →
    rtuFrame (rtuParse adu).unit (rtuParse adu).fc (rtuParse adu).payload = adu

/-- 43_tcp_framer.md R190, R192: TCP.FRAME. -/
def Obligations.TcpFrameBuildsTheAdu : Prop :=
  ∀ (s : State) (tid : U16) (unit fc : Byte) (p : Bytes),
    encode (.tcpFrame tid unit fc p) =
      [0x12, highByte tid, lowByte tid, unit, fc, BitVec.ofNat 8 p.length] ++ p ∧
    tcpFrame tid unit fc p =
      [highByte tid, lowByte tid, 0x00, 0x00, BitVec.ofNat 8 ((p.length + 2) / 256), BitVec.ofNat 8 (p.length + 2),
        unit, fc] ++ p ∧
    (p.length ≤ 252 → fc ≠ 0x00 → fc ≠ 0x80 →
      exec (.tcpFrame tid unit fc p) s = .next (answered s (.ok (.adu (tcpFrame tid unit fc p))))) ∧
    (252 < p.length ∨ fc = 0x00 ∨ fc = 0x80 →
      exec (.tcpFrame tid unit fc p) s = .next (answered s (.refused .badPdu)))

/-- 43_tcp_framer.md R193, R194: TCP.PARSEHDR on any 7 bytes. -/
def Obligations.TcpParseHdrReadsTheHeader : Prop :=
  ∀ (s : State) (t1 t0 p1 p0 l1 l0 unit : Byte),
    let hdr : Bytes := [t1, t0, p1, p0, l1, l0, unit]
    let len : Nat := l1.toNat * 256 + l0.toNat
    let h := tcpParseHdr hdr
    encode (.tcpParseHdr hdr) = 0x13 :: hdr ∧
    (h.tid.toNat = t1.toNat * 256 + t0.toNat ∧ h.proto.toNat = p1.toNat * 256 + p0.toNat ∧ h.length.toNat = len ∧
      h.unit = unit ∧ tcpAduLen h.length = 6 + len) ∧
    (len = 0 → exec (.tcpParseHdr hdr) s = .next (answered s (.refused .badLen))) ∧
    (len ≠ 0 → ∃ tid proto length pdu : U16,
      tid.toNat = t1.toNat * 256 + t0.toNat ∧ proto.toNat = p1.toNat * 256 + p0.toNat ∧ length.toNat = len ∧
      pdu.toNat = len - 1 ∧ tcpAduLen length = 7 + pdu.toNat ∧
      exec (.tcpParseHdr hdr) s = .next (answered s (.ok (.header tid proto length unit pdu))))

/-- 43_tcp_framer.md section 1 (R195): reading back a framed ADU. -/
def Obligations.TcpFrameReadsBack : Prop :=
  ∀ (tid : U16) (unit fc : Byte) (p : Bytes), p.length ≤ 252 →
    let a := tcpFrame tid unit fc p
    tcpParseHdr (a.take 7) = { tid := tid, proto := 0, length := BitVec.ofNat 16 (p.length + 2), unit := unit } ∧
    a[7]? = some fc ∧ a.drop 8 = p ∧ a.length = tcpAduLen (BitVec.ofNat 16 (p.length + 2))

/-! ### RTU transport -/

/-- 44_rtu_transport.md R212: the inter-frame delay. Below 19200 baud the floor is the least whole number `d` with
`d * baud >= 38500`, that is `ceil(38500 / baud)`; else 2; the override only raises it. -/
def Obligations.InterFrameDelay : Prop :=
  ∀ c : Cfg, c.baud ≠ 0 → ∃ d : Nat,
    (ifd c).toNat = max c.ifdOvr.toNat d ∧
    (c.baud.toNat < 19200 → ∀ k : Nat, d ≤ k ↔ 38500 ≤ k * c.baud.toNat) ∧
    (19200 ≤ c.baud.toNat → d = 2)

/-- 44_rtu_transport.md R213: RTU.OPEN. -/
def Obligations.RtuOpen : Prop :=
  ∀ s : State,
    encode .rtuOpen = [0x20] ∧
    (s.block.rtu.isOpen = true → exec .rtuOpen s = .next (answered s (.refused .alreadyOpen))) ∧
    (s.block.rtu.isOpen = false → s.block.cfg.baud = 0 → exec .rtuOpen s = .next (answered s (.refused .badCfg))) ∧
    (s.block.rtu.isOpen = false → s.block.cfg.baud ≠ 0 →
      exec .rtuOpen s = .next
        { s with block := { s.block with rtu := { s.block.rtu with isOpen := true } }, rsp := s.rsp ++ [.ok .nothing] })

/-- 44_rtu_transport.md R214: RTU.CLOSE fails every queued element in queue order and clears the transport. -/
def Obligations.RtuCloseAbortsAll : Prop :=
  ∀ s : State,
    encode .rtuClose = [0x21] ∧
    (s.block.rtu.isOpen = false → exec .rtuClose s = .next (answered s (.refused .notOpen))) ∧
    (s.block.rtu.isOpen = true →
      exec .rtuClose s = .next
        { s with
          block := { s.block with
            rtu := { isOpen := false, st := .idle, dly := { s.block.rtu.dly with armed := false },
                     rspt := { s.block.rtu.rspt with armed := false }, q := [], rxbuf := [], rxovf := false }
            out := s.block.out ++
              s.block.rtu.q.map fun e => .done .rtu e.tag .error .replyAbortedError 0x00 [] }
          rsp := s.rsp ++ [.ok .nothing] })

/-- 44_rtu_transport.md R215, R216: RTU.SUBMIT, its refusals in order, the queued element and the scheduling. -/
def Obligations.RtuSubmitQueuesAndSchedules : Prop :=
  ∀ (s : State) (tag : U16) (unit fc : Byte) (p : Bytes),
    encode (.rtuSubmit tag unit fc p) =
      [0x22, highByte tag, lowByte tag, unit, fc, BitVec.ofNat 8 p.length] ++ p ∧
    (s.block.rtu.isOpen = false → exec (.rtuSubmit tag unit fc p) s = .next (answered s (.refused .notOpen))) ∧
    (s.block.rtu.isOpen = true → (252 < p.length ∨ fc = 0x00 ∨ fc = 0x80) →
      exec (.rtuSubmit tag unit fc p) s = .next (answered s (.refused .badPdu))) ∧
    (s.block.rtu.isOpen = true → p.length ≤ 252 → fc ≠ 0x00 → fc ≠ 0x80 →
      s.block.rtu.q.length = s.build.rtuQDepth →
      exec (.rtuSubmit tag unit fc p) s = .next (answered s (.refused .full))) ∧
    (s.block.rtu.isOpen = true → p.length ≤ 252 → fc ≠ 0x00 → fc ≠ 0x80 →
      s.block.rtu.q.length ≠ s.build.rtuQDepth →
      exec (.rtuSubmit tag unit fc p) s = .next
        { s with
          block := { s.block with
            rtu := { s.block.rtu with
              q := s.block.rtu.q ++
                [{ tag := tag, unit := unit, fc := fc, payload := p, retries := s.block.cfg.rtuRetries.toNat,
                   adu := rtuFrame unit fc p }]
              dly := if s.block.rtu.st = .idle ∧ s.block.rtu.dly.armed = false
                     then { armed := true, cnt := ifd s.block.cfg } else s.block.rtu.dly } }
          rsp := s.rsp ++ [.ok .nothing] })

/-- 44_rtu_transport.md R219, R233: RTU.WRDONE completes a broadcast in flight and schedules the next element after the
turnaround delay; otherwise it has no effect. -/
def Obligations.RtuWrDoneCompletesABroadcast : Prop :=
  encode .rtuWrDone = [0x24] ∧
  (∀ (s : State) (e : Elem) (rest : List Elem),
    s.block.rtu.isOpen = true → s.block.rtu.st = .waitingForReply → s.block.rtu.q = e :: rest → e.unit = 0 →
    exec .rtuWrDone s = .next
      { s with block := { s.block with
          rtu := { s.block.rtu with q := rest, st := .idle,
                                    dly := kicked s.block.cfg.turnaround rest s.block.rtu.dly }
          out := s.block.out ++ [.done .rtu e.tag .finished .noError 0x00 []] } }) ∧
  (∀ s : State,
    (s.block.rtu.isOpen = false ∨ s.block.rtu.st ≠ .waitingForReply ∨
      ∀ e, s.block.rtu.q.head? = some e → e.unit ≠ 0) →
    exec .rtuWrDone s = .next s)

/-- 44_rtu_transport.md sections 5 (R221, R222): a byte on a closed transport is dropped; a byte outside a wait for a
reply is stored, or dropped with `RTU_RXOVF` set when the buffer is full, and nothing else happens. -/
def Obligations.RtuByteOutsideAWaitIsOnlyStored : Prop :=
  ∀ (s : State) (x : Byte),
    encode (.rtuRxb x) = [0x23, x] ∧
    (s.block.rtu.isOpen = false → exec (.rtuRxb x) s = .next s) ∧
    (s.block.rtu.isOpen = true →
      (s.block.rtu.st ≠ .waitingForReply ∨ ∀ e, s.block.rtu.q.head? = some e → e.unit = 0) →
      exec (.rtuRxb x) s = .next { s with block := { s.block with rtu := withByte x s.block.rtu } })

/-- 44_rtu_transport.md section 5 (R223 to R226): while the frame in the buffer cannot be sized, or is not whole, or is a
Diagnostics echo that differs from the request, the byte is only stored. -/
def Obligations.RtuIncompleteFrameWaits : Prop :=
  ∀ (s : State) (x : Byte) (e : Elem) (rest : List Elem),
    s.block.rtu.isOpen = true → s.block.rtu.st = .waitingForReply → s.block.rtu.q = e :: rest → e.unit ≠ 0 →
    let buf := (withByte x s.block.rtu).rxbuf
    let isEcho := e.fc = 0x08 ∧ (∃ r, e.payload = 0x00 :: 0x00 :: r) ∧ buf[0]? = some e.unit ∧ buf[1]? = some 0x08
    (buf.length < 2 ∨
      (isEcho ∧ (buf.length < 4 + e.payload.length ∨ (buf.drop 2).take e.payload.length ≠ e.payload)) ∨
      (¬ isEcho ∧ ∃ rfc, buf[1]? = some rfc ∧
        ∀ d, rspDataSize s.build.rspSizer rfc (buf.drop 2) = some d → buf.length < 2 + d + 2)) →
    exec (.rtuRxb x) s = .next { s with block := { s.block with rtu := withByte x s.block.rtu } }

/-- 44_rtu_transport.md R227, R228, R229 (and the sizes of R224, R226): the byte that completes a frame `unit rfc p lo hi`
at the front of the buffer. A bad CRC is reported and the frame dropped; a good frame that does not match is reported and
dropped; a match stops the response timer, completes the head as Finished with the received function code and payload,
and schedules the next element after `Ifd()`. An exception response of the request (R232) is a match. -/
def Obligations.RtuWholeFrameIsAccepted : Prop :=
  ∀ (s : State) (x : Byte) (e : Elem) (rest : List Elem) (unit rfc lo hi : Byte) (p extra : Bytes),
    s.block.rtu.isOpen = true → s.block.rtu.st = .waitingForReply → s.block.rtu.q = e :: rest → e.unit ≠ 0 →
    let r := withByte x s.block.rtu
    let isEcho := e.fc = 0x08 ∧ (∃ t, e.payload = 0x00 :: 0x00 :: t) ∧ unit = e.unit ∧ rfc = 0x08
    r.rxbuf = [unit, rfc] ++ p ++ [lo, hi] ++ extra →
    ((isEcho ∧ p = e.payload) ∨
      (¬ isEcho ∧ rspDataSize s.build.rspSizer rfc (p ++ [lo, hi] ++ extra) = some p.length)) →
    let good := crc16 ([unit, rfc] ++ p) = hi ++ lo
    let same := unit = e.unit ∧ rfc &&& 0x7F = e.fc &&& 0x7F
    (¬ good →
      exec (.rtuRxb x) s = .next { s with block := { s.block with
        rtu := { r with rxbuf := extra }
        out := s.block.out ++ [.ierr .rtu e.tag .responseCrcError] } }) ∧
    (good → ¬ same →
      exec (.rtuRxb x) s = .next { s with block := { s.block with
        rtu := { r with rxbuf := extra }
        out := s.block.out ++ [.ierr .rtu e.tag .responseRequestMismatch] } }) ∧
    (good → same →
      exec (.rtuRxb x) s = .next { s with block := { s.block with
        rtu := { r with rxbuf := extra, st := .idle, q := rest, rspt := { r.rspt with armed := false },
                        dly := kicked (ifd s.block.cfg) rest r.dly }
        out := s.block.out ++ [.done .rtu e.tag .finished .noError rfc p] } })

/-- 44_rtu_transport.md R218: when the delay timer expires in a TICK the head is sent: buffer cleared, ADU written, state
WaitingForReply, the response timer armed unless it is a broadcast. -/
def Obligations.TickSendsTheHead : Prop :=
  ∀ (s : State) (e : Elem) (rest : List Elem),
    s.block.rtu.dly.armed = true → s.block.rtu.dly.cnt.toNat ≤ 1 → s.block.rtu.rspt.armed = false →
    (s.block.rtu.q = e :: rest → ∃ t, exec .tick s = .next t ∧
      t.block.rtu = { s.block.rtu with
        dly := { s.block.rtu.dly with armed := false }, rxbuf := [], st := .waitingForReply,
        rspt := if e.unit = 0 then s.block.rtu.rspt else { armed := true, cnt := s.block.cfg.rtuTimeout } } ∧
      rtuTrace t.block.out = rtuTrace s.block.out ++ [.serTx e.adu]) ∧
    (s.block.rtu.q = [] → ∃ t, exec .tick s = .next t ∧
      t.block.rtu = { s.block.rtu with dly := { s.block.rtu.dly with armed := false } } ∧
      rtuTrace t.block.out = rtuTrace s.block.out)

/-- 44_rtu_transport.md section 6 (R230, R231, with R216): when the response timer expires in a TICK the head is resent, or, with no retries
left, fails with TimeoutError and the next element is scheduled. -/
def Obligations.TickResendsOrFailsTheHead : Prop :=
  ∀ (s : State) (e : Elem) (rest : List Elem),
    s.block.rtu.rspt.armed = true → s.block.rtu.rspt.cnt.toNat ≤ 1 → s.block.rtu.dly.armed = false →
    (s.block.rtu.st = .waitingForReply → s.block.rtu.q = e :: rest → 0 < e.retries → ∃ t, exec .tick s = .next t ∧
      t.block.rtu = { s.block.rtu with
        q := { e with retries := e.retries - 1 } :: rest, rxbuf := [],
        rspt := { armed := true, cnt := s.block.cfg.rtuTimeout } } ∧
      rtuTrace t.block.out = rtuTrace s.block.out ++ [.serTx e.adu]) ∧
    (s.block.rtu.st = .waitingForReply → s.block.rtu.q = e :: rest → e.retries = 0 → ∃ t, exec .tick s = .next t ∧
      t.block.rtu = { s.block.rtu with
        q := rest, st := .idle, rspt := { s.block.rtu.rspt with armed := false },
        dly := kicked (ifd s.block.cfg) rest s.block.rtu.dly } ∧
      rtuTrace t.block.out = rtuTrace s.block.out ++ [.done .rtu e.tag .error .timeoutError 0x00 []]) ∧
    (s.block.rtu.st ≠ .waitingForReply ∨ s.block.rtu.q = [] → ∃ t, exec .tick s = .next t ∧
      t.block.rtu = { s.block.rtu with rspt := { s.block.rtu.rspt with armed := false } } ∧
      rtuTrace t.block.out = rtuTrace s.block.out)

/-- 44_rtu_transport.md sections 2 and 4 with 46_config_and_tick.md section 2 (R307 item 1): a scheduled request is sent
in the `max(d, 1)`-th TICK, `d` the count its delay timer holds, and nothing is written on the serial device before, when
no other operation comes between the TICKs. -/
def Obligations.ScheduledRequestIsSentOnItsTick : Prop :=
  ∀ (s : State) (e : Elem) (rest : List Elem) (k : Nat),
    s.Inv → s.block.rtu.dly.armed = true → s.block.rtu.q = e :: rest →
    (k < max s.block.rtu.dly.cnt.toNat 1 → ∃ t, runOps (ticks k) s = .next t ∧
      t.block.rtu = { s.block.rtu with dly := { armed := true, cnt := s.block.rtu.dly.cnt - BitVec.ofNat 32 k } } ∧
      rtuTrace t.block.out = rtuTrace s.block.out) ∧
    (k = max s.block.rtu.dly.cnt.toNat 1 → ∃ t, runOps (ticks k) s = .next t ∧
      t.block.rtu.st = .waitingForReply ∧ t.block.rtu.q = e :: rest ∧
      (e.unit ≠ 0 → t.block.rtu.rspt = { armed := true, cnt := s.block.cfg.rtuTimeout }) ∧
      rtuTrace t.block.out = rtuTrace s.block.out ++ [.serTx e.adu])

/-- 44_rtu_transport.md section 6 (the last paragraph of R231): a request that is never answered is sent `r + 1` times
in all, `T = max(CFG_RTU_TIMEOUT, 1)` TICKs apart, and fails `(r + 1) * T` TICKs after its first send. `s` is the state
right after that send, with `r` retries left; no other operation comes between the TICKs. -/
def Obligations.UnansweredRequestIsResentThenFails : Prop :=
  ∀ (s : State) (e : Elem) (rest : List Elem),
    s.Inv → s.block.rtu.st = .waitingForReply → s.block.rtu.q = e :: rest → e.unit ≠ 0 →
    s.block.rtu.rspt.cnt = s.block.cfg.rtuTimeout →
    ∃ t, runOps (ticks ((e.retries + 1) * max s.block.cfg.rtuTimeout.toNat 1)) s = .next t ∧
      t.block.rtu.q = rest ∧ t.block.rtu.st = .idle ∧
      rtuTrace t.block.out = rtuTrace s.block.out ++ List.replicate e.retries (.serTx e.adu) ++
        [.done .rtu e.tag .error .timeoutError 0x00 []]

/-- 20_memory.md section 5 (R75, R77): RTU requests complete in the order of their submission, each at most once, and are
queued until they do. What has
completed, followed by what is queued, grows by exactly the accepted submissions and in no other way. -/
def Obligations.RtuRequestsCompleteOnceInOrder : Prop :=
  ∀ (i : Instr) (s t : State), exec i s = .next t →
    doneTags .rtu t.block.out ++ queuedTags t.block =
      doneTags .rtu s.block.out ++ queuedTags s.block ++ rtuAccepted i t

/-- 20_memory.md section 6 (R76) and 44_rtu_transport.md section 7 (R234 item 4): after RTU.CLOSE nothing happens on the
RTU side until RTU.OPEN: no RTU state element changes and no event of the RTU side is emitted. -/
def Obligations.ClosedRtuTransportIsSilent : Prop :=
  ∀ (i : Instr) (s t : State), s.Inv → s.block.rtu.isOpen = false → i ≠ .rtuOpen → exec i s = .next t →
    t.block.rtu = s.block.rtu ∧ t.block.rtu.q = [] ∧ rtuTrace t.block.out = rtuTrace s.block.out

/-! ### TCP transport -/

/-- 45_tcp_transport.md R261: TCP.OPEN. -/
def Obligations.TcpOpen : Prop :=
  ∀ s : State,
    encode .tcpOpen = [0x30] ∧
    (s.block.tcp.isOpen = true → exec .tcpOpen s = .next (answered s (.refused .alreadyOpen))) ∧
    (s.block.tcp.isOpen = false →
      exec .tcpOpen s = .next
        { s with block := { s.block with tcp := { s.block.tcp with isOpen := true } }, rsp := s.rsp ++ [.ok .nothing] })

/-- 45_tcp_transport.md R262: TCP.CLOSE fails every entry in ascending id order (the order of a sorted table) and clears
the transport; `TCP_NEXT_TID` keeps its value. -/
def Obligations.TcpCloseAbortsAll : Prop :=
  ∀ s : State, ttSorted s.block.tcp.tt →
    encode .tcpClose = [0x31] ∧
    (s.block.tcp.isOpen = false → exec .tcpClose s = .next (answered s (.refused .notOpen))) ∧
    (s.block.tcp.isOpen = true →
      exec .tcpClose s = .next
        { s with
          block := { s.block with
            tcp := { isOpen := false, tt := [], nextTid := s.block.tcp.nextTid, rxbuf := [], rxfault := false }
            out := s.block.out ++
              s.block.tcp.tt.map fun p => .done .tcp p.2.elem.tag .error .replyAbortedError 0x00 [] }
          rsp := s.rsp ++ [.ok .nothing] })

/-- 45_tcp_transport.md R263: TCP.SUBMIT, its refusals in order; the id chosen is the first one from `TCP_NEXT_TID` on,
modulo 65536, that is not in the table; the entry, the write and the response. In states that meet the invariant, so that
the search ends (the fault `noFreeTid` is for states that do not, log 8). -/
def Obligations.TcpSubmitChoosesAFreeIdAndWrites : Prop :=
  ∀ (s : State) (tag : U16) (unit fc : Byte) (p : Bytes), s.Inv →
    encode (.tcpSubmit tag unit fc p) =
      [0x32, highByte tag, lowByte tag, unit, fc, BitVec.ofNat 8 p.length] ++ p ∧
    (s.block.tcp.isOpen = false → exec (.tcpSubmit tag unit fc p) s = .next (answered s (.refused .notOpen))) ∧
    (s.block.tcp.isOpen = true → (252 < p.length ∨ fc = 0x00 ∨ fc = 0x80) →
      exec (.tcpSubmit tag unit fc p) s = .next (answered s (.refused .badPdu))) ∧
    (s.block.tcp.isOpen = true → p.length ≤ 252 → fc ≠ 0x00 → fc ≠ 0x80 →
      s.block.tcp.tt.length = s.build.ttDepth →
      exec (.tcpSubmit tag unit fc p) s = .next (answered s (.refused .full))) ∧
    (s.block.tcp.isOpen = true → p.length ≤ 252 → fc ≠ 0x00 → fc ≠ 0x80 →
      s.block.tcp.tt.length ≠ s.build.ttDepth →
      ∃ (n : Nat) (tid : U16) (tt : TransTable),
        n < 65536 ∧ tid = s.block.tcp.nextTid + BitVec.ofNat 16 n ∧ ttGet tid s.block.tcp.tt = none ∧
        (∀ m < n, ttGet (s.block.tcp.nextTid + BitVec.ofNat 16 m) s.block.tcp.tt ≠ none) ∧
        tt.length = s.block.tcp.tt.length + 1 ∧
        (∀ k, ttGet k tt = if k = tid then
          some { elem := { tag := tag, unit := unit, fc := fc, payload := p,
                           retries := s.block.cfg.tcpRetries.toNat, adu := tcpFrame tid unit fc p }
                 tmr := { armed := false, cnt := 0 } }
          else ttGet k s.block.tcp.tt) ∧
        exec (.tcpSubmit tag unit fc p) s = .next
          { s with
            block := { s.block with
              tcp := { s.block.tcp with nextTid := tid + 1, tt := tt }
              out := s.block.out ++ [.tcpTx (tcpFrame tid unit fc p)] }
            rsp := s.rsp ++ [.ok (.tid tid)] })

/-- 45_tcp_transport.md R265: TCP.WRDONE arms the entry's timer if it is not armed; otherwise it has no effect. -/
def Obligations.TcpWrDoneArmsTheTimer : Prop :=
  ∀ (s : State) (tid : U16), ttSorted s.block.tcp.tt →
    encode (.tcpWrDone tid) = [0x34, highByte tid, lowByte tid] ∧
    (∀ e : Entry, s.block.tcp.isOpen = true → ttGet tid s.block.tcp.tt = some e → e.tmr.armed = false →
      ∃ tt : TransTable,
        ttKeys tt = ttKeys s.block.tcp.tt ∧
        (∀ k, ttGet k tt = if k = tid then some { e with tmr := { armed := true, cnt := s.block.cfg.tcpTimeout } }
          else ttGet k s.block.tcp.tt) ∧
        exec (.tcpWrDone tid) s = .next
          { s with block := { s.block with tcp := { s.block.tcp with tt := tt } } }) ∧
    (s.block.tcp.isOpen = false ∨ ttGet tid s.block.tcp.tt = none ∨
        (∃ e, ttGet tid s.block.tcp.tt = some e ∧ e.tmr.armed = true) →
      exec (.tcpWrDone tid) s = .next s)

/-- 45_tcp_transport.md section 4 (R267, R268): a byte on a closed or faulted transport is dropped; a byte that completes
no header and no ADU is only stored. -/
def Obligations.TcpByteIsDroppedOrOnlyStored : Prop :=
  ∀ (s : State) (x : Byte),
    encode (.tcpRxb x) = [0x33, x] ∧
    (s.block.tcp.isOpen = false ∨ s.block.tcp.rxfault = true → exec (.tcpRxb x) s = .next s) ∧
    (s.block.tcp.isOpen = true → s.block.tcp.rxfault = false → s.block.tcp.rxbuf.length < 260 →
      let buf := s.block.tcp.rxbuf ++ [x]
      (buf.length < 7 ∨ ∃ (t1 t0 p1 p0 l1 l0 unit : Byte) (r : Bytes),
        buf = [t1, t0, p1, p0, l1, l0, unit] ++ r ∧ 2 ≤ l1.toNat * 256 + l0.toNat ∧
        l1.toNat * 256 + l0.toNat ≤ 254 ∧ buf.length < 6 + (l1.toNat * 256 + l0.toNat)) →
      exec (.tcpRxb x) s = .next { s with block := { s.block with tcp := { s.block.tcp with rxbuf := buf } } })

/-- 45_tcp_transport.md R269: a header with a length outside 2 to 254 sets `TCP_RXFAULT` and clears the buffer; nothing
else changes and nothing is emitted; while the flag is set every byte is dropped, and TCP.CLOSE clears it. -/
def Obligations.TcpBadLengthFaultsTheReceiver : Prop :=
  (∀ (s : State) (x t1 t0 p1 p0 l1 l0 unit : Byte) (r : Bytes),
    s.block.tcp.isOpen = true → s.block.tcp.rxfault = false → s.block.tcp.rxbuf.length < 260 →
    s.block.tcp.rxbuf ++ [x] = [t1, t0, p1, p0, l1, l0, unit] ++ r →
    (l1.toNat * 256 + l0.toNat < 2 ∨ 254 < l1.toNat * 256 + l0.toNat) →
    exec (.tcpRxb x) s = .next { s with block := { s.block with
      tcp := { s.block.tcp with rxbuf := [], rxfault := true } } }) ∧
  (∀ (s : State) (x : Byte), s.block.tcp.rxfault = true → exec (.tcpRxb x) s = .next s) ∧
  (∀ s : State, s.block.tcp.isOpen = true →
    ∃ t, exec .tcpClose s = .next t ∧ t.block.tcp.rxfault = false)

/-- 45_tcp_transport.md R270, R271, R272: the byte that completes an ADU at the front of the buffer. An id in the table
completes its request, Finished if the response is well formed and Error InvalidResponseError if not, and the entry is
removed; an id not in the table is logged. Protocol id, unit and function code are not compared (R97, D25). -/
def Obligations.TcpWholeAduIsCorrelated : Prop :=
  ∀ (s : State) (x t1 t0 p1 p0 l1 l0 unit fc : Byte) (p extra : Bytes),
    ttSorted s.block.tcp.tt → s.block.tcp.isOpen = true → s.block.tcp.rxfault = false →
    s.block.tcp.rxbuf.length < 260 →
    s.block.tcp.rxbuf ++ [x] = [t1, t0, p1, p0, l1, l0, unit, fc] ++ p ++ extra →
    l1.toNat * 256 + l0.toNat = p.length + 2 → p.length ≤ 252 →
    let tid : U16 := t1 ++ t0
    let wellFormed := fc ≠ 0x00 ∧ fc ≠ 0x80 ∧ (0x80 ≤ fc.toNat → p.length = 1)
    (ttGet tid s.block.tcp.tt = none →
      exec (.tcpRxb x) s = .next { s with block := { s.block with
        tcp := { s.block.tcp with rxbuf := extra }
        out := s.block.out ++ [.log .unmatchedTid tid] } }) ∧
    ∀ e : Entry, ttGet tid s.block.tcp.tt = some e → ∃ tt : TransTable,
      tt.length + 1 = s.block.tcp.tt.length ∧
      (∀ k, ttGet k tt = if k = tid then none else ttGet k s.block.tcp.tt) ∧
      (wellFormed →
        exec (.tcpRxb x) s = .next { s with block := { s.block with
          tcp := { s.block.tcp with rxbuf := extra, tt := tt }
          out := s.block.out ++ [.done .tcp e.elem.tag .finished .noError fc p] } }) ∧
      (¬ wellFormed →
        exec (.tcpRxb x) s = .next { s with block := { s.block with
          tcp := { s.block.tcp with rxbuf := extra, tt := tt }
          out := s.block.out ++ [.done .tcp e.elem.tag .error .invalidResponseError fc p] } })

/-- 45_tcp_transport.md section 5 (R273, R274) and 46_config_and_tick.md section 2 (R305, R307 item 3): one TICK acts on
every entry of the table for itself, and the events of the entries follow those of the RTU handlers, in ascending id
order. -/
def Obligations.TickActsOnEachEntryForItself : Prop :=
  ∀ s : State, ttSorted s.block.tcp.tt → ∃ (t : State) (rtuEvents : List Event),
    exec .tick s = .next t ∧
    t.block.tcp = { s.block.tcp with tt := s.block.tcp.tt.filterMap tickEntry } ∧
    t.block.out = s.block.out ++ rtuEvents ++ s.block.tcp.tt.flatMap tickEvents ∧
    (∀ e ∈ rtuEvents, e.isRtu = true)

/-- 20_memory.md section 5 (R77) and 45_tcp_transport.md section 6 (R275 item 6): each TCP request completes at most once,
and is in the table until it does. What has completed and what is outstanding, as collections of tags, grow by exactly
the accepted submissions. -/
def Obligations.TcpRequestsCompleteOnce : Prop :=
  ∀ (i : Instr) (s t : State), s.Inv → exec i s = .next t →
    (doneTags .tcp t.block.out ++ tableTags t.block).Perm
      (doneTags .tcp s.block.out ++ tableTags s.block ++ tcpAccepted i t)

/-! ### Configuration, NOP, TICK -/

/-- 46_config_and_tick.md R301: CFG.WR. -/
def Obligations.CfgWrWritesOneRegister : Prop :=
  ∀ (s : State) (idx : Byte) (val : U32),
    encode (.cfgWr idx val) =
      [0x40, idx, BitVec.ofNat 8 (val.toNat / 2 ^ 24), BitVec.ofNat 8 (val.toNat / 2 ^ 16),
        BitVec.ofNat 8 (val.toNat / 2 ^ 8), BitVec.ofNat 8 val.toNat] ∧
    (6 < idx.toNat → exec (.cfgWr idx val) s = .next (answered s (.refused .badReg))) ∧
    (idx = 0 → val = 0 → s.block.rtu.isOpen = true →
      exec (.cfgWr idx val) s = .next (answered s (.refused .badCfg))) ∧
    (idx.toNat ≤ 6 → ¬ (idx = 0 ∧ val = 0 ∧ s.block.rtu.isOpen = true) → ∃ c : Cfg,
      (∀ j : Byte, j.toNat ≤ 6 → cfgGet j c = if j = idx then some val else cfgGet j s.block.cfg) ∧
      exec (.cfgWr idx val) s = .next
        { s with block := { s.block with cfg := c }, rsp := s.rsp ++ [.ok .nothing] })

/-- 46_config_and_tick.md R302 and 10_state.md R39: CFG.RD of every register and view; it changes no state. A count that
32 bits cannot hold reads as a free value (log 7), so the two counts are stated for counts below 2^32. -/
def Obligations.CfgRdReadsRegistersAndViews : Prop :=
  ∀ s : State,
    (∀ idx : Byte, encode (.cfgRd idx) = [0x41, idx]) ∧
    (∀ (idx : Byte) (v : U32),
      ([s.block.cfg.baud, s.block.cfg.ifdOvr, s.block.cfg.turnaround, s.block.cfg.rtuTimeout,
        s.block.cfg.rtuRetries, s.block.cfg.tcpTimeout, s.block.cfg.tcpRetries][idx.toNat]? = some v) →
      exec (.cfgRd idx) s = .next (answered s (.ok (.val v)))) ∧
    (∃ v : U32, exec (.cfgRd 7) s = .next (answered s (.ok (.val v))) ∧
      v.getLsbD 0 = s.block.rtu.isOpen ∧ v.getLsbD 1 = s.block.tcp.isOpen ∧
      v.extractLsb' 2 2 = (match s.block.rtu.st with | .idle => 0#2 | .waitingForReply => 1#2 | .processReply => 2#2) ∧
      v.getLsbD 4 = s.block.rtu.dly.armed ∧ v.getLsbD 5 = s.block.rtu.rspt.armed ∧
      v.getLsbD 6 = s.block.rtu.rxovf ∧ v.getLsbD 7 = s.block.tcp.rxfault ∧ v.toNat < 256) ∧
    (∃ v : U32, exec (.cfgRd 8) s = .next (answered s (.ok (.val v))) ∧
      (s.block.rtu.q.length < 2 ^ 32 → v.toNat = s.block.rtu.q.length)) ∧
    (∃ v : U32, exec (.cfgRd 9) s = .next (answered s (.ok (.val v))) ∧
      (s.block.tcp.tt.length < 2 ^ 32 → v.toNat = s.block.tcp.tt.length)) ∧
    (∃ v : U32, exec (.cfgRd 10) s = .next (answered s (.ok (.val v))) ∧ v.toNat = s.block.tcp.nextTid.toNat) ∧
    (∀ idx : Byte, 10 < idx.toNat → exec (.cfgRd idx) s = .next (answered s (.refused .badReg)))

/-- 46_config_and_tick.md R304: NOP. -/
def Obligations.NopChangesNothing : Prop :=
  encode .nop = [0x00] ∧ ∀ s : State, exec .nop s = .next (answered s (.ok .nothing))

/-- 46_config_and_tick.md section 2 (R305): with no timer armed TICK changes nothing. -/
def Obligations.TickWithNoTimerArmedChangesNothing : Prop :=
  encode .tick = [0x7F] ∧
  ∀ s : State, s.block.rtu.dly.armed = false → s.block.rtu.rspt.armed = false →
    (∀ p ∈ s.block.tcp.tt, p.2.tmr.armed = false) → exec .tick s = .next s

/-- 46_config_and_tick.md section 2 (R305, R307 item 1): an armed RTU timer with a count above 1 counts down by one in a
TICK and does nothing else, and a timer that is not armed keeps still. -/
def Obligations.TickCountsArmedTimersDown : Prop :=
  ∀ s : State,
    (s.block.rtu.dly.armed = true → 1 < s.block.rtu.dly.cnt.toNat) →
    (s.block.rtu.rspt.armed = true → 1 < s.block.rtu.rspt.cnt.toNat) →
    ∃ t, exec .tick s = .next t ∧ rtuTrace t.block.out = rtuTrace s.block.out ∧
      t.block.rtu = { s.block.rtu with
        dly := if s.block.rtu.dly.armed = true then { armed := true, cnt := s.block.rtu.dly.cnt - 1 }
               else s.block.rtu.dly
        rspt := if s.block.rtu.rspt.armed = true then { armed := true, cnt := s.block.rtu.rspt.cnt - 1 }
                else s.block.rtu.rspt }

/-! ### Whole-machine rules -/

/-- 60_exceptions.md section 1 (R326): a refused operation changes no state element and emits nothing, is a `CMD`
operation, and the code is one that R326 gives that operation. -/
def Obligations.RefusedOperationChangesNothing : Prop :=
  ∀ (i : Instr) (s t : State) (c : RefusalCode), exec i s = .next t → t.rsp = s.rsp ++ [.refused c] →
    t = answered s (.refused c) ∧ portOf i = .cmd ∧ mayRaise c i = true

/-- 30_encoding.md R113: every `CMD` operation gives exactly one response, with the value R113 names for it if it is
accepted, and an operation of any other port gives none; and the bytes of each response: `RC_OK` = 0 and the value's
fields in the order of R113, or the refusal code alone, with its number in 60_exceptions.md R326. -/
def Obligations.OneResponsePerCommand : Prop :=
  (∀ (i : Instr) (s t : State), exec i s = .next t →
    (portOf i = .cmd → ∃ r, t.rsp = s.rsp ++ [r] ∧ ∀ v, r = .ok v → returns i v = true) ∧
    (portOf i ≠ .cmd → t.rsp = s.rsp)) ∧
  (Response.ok .nothing).bytes = [0x00] ∧
  (∀ lo hi, (Response.ok (.crc lo hi)).bytes = [0x00, lo, hi]) ∧
  (∀ a : Bytes, (Response.ok (.adu a)).bytes = [0x00, BitVec.ofNat 8 (a.length / 256), BitVec.ofNat 8 a.length] ++ a) ∧
  (∀ (unit fc : Byte) (p : Bytes) (good : Bool), (Response.ok (.parsed unit fc p good)).bytes =
    [0x00, unit, fc, BitVec.ofNat 8 p.length] ++ p ++ [if good = true then 0x01 else 0x00]) ∧
  (∀ (tid proto length pdu : U16) (unit : Byte), (Response.ok (.header tid proto length unit pdu)).bytes =
    [0x00, highByte tid, lowByte tid, highByte proto, lowByte proto, highByte length, lowByte length, unit,
      highByte pdu, lowByte pdu]) ∧
  (∀ tid : U16, (Response.ok (.tid tid)).bytes = [0x00, highByte tid, lowByte tid]) ∧
  (∀ v : U32, (Response.ok (.val v)).bytes =
    [0x00, BitVec.ofNat 8 (v.toNat / 2 ^ 24), BitVec.ofNat 8 (v.toNat / 2 ^ 16), BitVec.ofNat 8 (v.toNat / 2 ^ 8),
      BitVec.ofNat 8 v.toNat]) ∧
  (Response.refused .notOpen).bytes = [0x01] ∧ (Response.refused .alreadyOpen).bytes = [0x02] ∧
  (Response.refused .badPdu).bytes = [0x03] ∧ (Response.refused .full).bytes = [0x04] ∧
  (Response.refused .badCfg).bytes = [0x05] ∧ (Response.refused .badReg).bytes = [0x06] ∧
  (Response.refused .badOpcode).bytes = [0x07] ∧ (Response.refused .badLen).bytes = [0x08]

/-- 10_state.md section 8 (R50) and section 9 (R55): an operation only appends to `OUT`, and changes neither the build
parameters nor what is presented next. -/
def Obligations.OutputIsOnlyAppendedTo : Prop :=
  ∀ (i : Instr) (s t : State), exec i s = .next t →
    s.block.out <+: t.block.out ∧ t.build = s.build ∧ t.input = s.input

/-- Every operation answers a next state in every state that meets the invariant: no operation blocks or is stopped
(60_exceptions.md section 8, R345: "no request ever blocks the calling thread"). -/
def Obligations.EveryOperationCompletes : Prop :=
  ∀ (i : Instr) (s : State), s.Inv → ∃ t, exec i s = .next t

/-- 60_exceptions.md section 1 (R320, R323, R325, R327): what an operation adds to `OUT` carries only the Error codes the
block raises, with the fields R320 gives them, and an `IERR` is always on RTU; and the numbers of the codes an event
carries (R320, R323, R325 and 10_state.md R52). -/
def Obligations.OnlyTheRaisedErrorCodesAreEmitted : Prop :=
  (∀ (i : Instr) (s t : State) (added : List Event), exec i s = .next t → t.block.out = s.block.out ++ added →
    (∀ (port : Transport) (tag : U16) (st : ReplyState) (err : ErrCode) (fc : Byte) (p : Bytes),
      .done port tag st err fc p ∈ added →
      (st = .finished ∧ err = .noError) ∨
      (st = .error ∧ (err = .timeoutError ∨ err = .replyAbortedError) ∧ fc = 0x00 ∧ p = []) ∨
      (st = .error ∧ err = .invalidResponseError ∧ port = .tcp)) ∧
    ∀ (port : Transport) (tag : U16) (code : IErrCode), .ierr port tag code ∈ added → port = .rtu) ∧
  [ErrCode.noError, .readError, .writeError, .connectionError, .configurationError, .timeoutError, .protocolError,
    .replyAbortedError, .unknownError, .invalidResponseError].map ErrCode.code = [0, 1, 2, 3, 4, 5, 6, 7, 8, 9] ∧
  IErrCode.responseCrcError.code = 0 ∧ IErrCode.responseRequestMismatch.code = 1 ∧
  LogKind.unmatchedTid.code = 0 ∧ Transport.rtu.code = 0 ∧ Transport.tcp.code = 1 ∧
  ReplyState.running.code = 0 ∧ ReplyState.finished.code = 1 ∧ ReplyState.error.code = 2

/-- Frames by state element (10_state.md sections 3 to 7: which operations write what; R22, R34, R40, R343). -/
def Obligations.EachElementHasItsWriters : Prop :=
  ∀ (i : Instr) (s t : State), exec i s = .next t →
    (i ≠ .crcInit → (∀ b, i ≠ .crcUpd b) → t.block.crc = s.block.crc) ∧
    ((∀ idx v, i ≠ .cfgWr idx v) → t.block.cfg = s.block.cfg) ∧
    (i ∉ [.rtuOpen, .rtuClose, .rtuWrDone, .tick] → (∀ b, i ≠ .rtuRxb b) → (∀ g u c p, i ≠ .rtuSubmit g u c p) →
      t.block.rtu = s.block.rtu ∧ rtuTrace t.block.out = rtuTrace s.block.out) ∧
    (i ∉ [.tcpOpen, .tcpClose, .tick] → (∀ b, i ≠ .tcpRxb b) → (∀ k, i ≠ .tcpWrDone k) →
      (∀ g u c p, i ≠ .tcpSubmit g u c p) →
      t.block.tcp = s.block.tcp ∧ tcpTrace t.block.out = tcpTrace s.block.out) ∧
    ((∀ g u c p, i ≠ .tcpSubmit g u c p) → t.block.tcp.nextTid = s.block.tcp.nextTid) ∧
    (i ≠ .rtuOpen → i ≠ .rtuClose → t.block.rtu.isOpen = s.block.rtu.isOpen) ∧
    (i ≠ .tcpOpen → i ≠ .tcpClose → t.block.tcp.isOpen = s.block.tcp.isOpen) ∧
    (i ≠ .rtuClose → (∀ b, i ≠ .rtuRxb b) → t.block.rtu.rxovf = s.block.rtu.rxovf) ∧
    (i ≠ .tcpClose → (∀ b, i ≠ .tcpRxb b) → t.block.tcp.rxfault = s.block.tcp.rxfault)

/-- 60_exceptions.md section 8 (R343): the two transports never read or write each other's state. READ: two machines that
agree on the RTU side and the configuration go on agreeing on both, and in what the RTU side emits, whatever their TCP
sides are; two that agree on the TCP side and on the registers it reads (`CFG_TCP_TIMEOUT`, `CFG_TCP_RETRIES`) go on
agreeing on them, whatever their RTU sides are. WRITE: no operation but TICK, in which both act one after the other
(R307), changes or emits anything on both sides. -/
def Obligations.TransportsDoNotInterfere : Prop :=
  ∀ (i : Instr) (s t s' t' : State) (new new' : List Event),
    s.build = s'.build → exec i s = .next t → exec i s' = .next t' →
    t.block.out = s.block.out ++ new → t'.block.out = s'.block.out ++ new' →
    (s.block.rtu = s'.block.rtu → s.block.cfg = s'.block.cfg →
      t.block.rtu = t'.block.rtu ∧ t.block.cfg = t'.block.cfg ∧ rtuTrace new = rtuTrace new') ∧
    (s.block.tcp = s'.block.tcp → s.block.cfg.tcpTimeout = s'.block.cfg.tcpTimeout →
      s.block.cfg.tcpRetries = s'.block.cfg.tcpRetries →
      t.block.tcp = t'.block.tcp ∧ t.block.cfg.tcpTimeout = t'.block.cfg.tcpTimeout ∧
        t.block.cfg.tcpRetries = t'.block.cfg.tcpRetries ∧ tcpTrace new = tcpTrace new') ∧
    (i ≠ .tick → (t.block.rtu = s.block.rtu ∧ rtuTrace new = []) ∨ (t.block.tcp = s.block.tcp ∧ tcpTrace new = []))

/-- 20_memory.md section 6 (R76) and 45_tcp_transport.md section 6 (R275 item 1): after TCP.CLOSE nothing happens on the
TCP side until TCP.OPEN: no TCP state element changes, the id counter included, and no event of the TCP side is emitted. -/
def Obligations.ClosedTcpTransportIsSilent : Prop :=
  ∀ (i : Instr) (s t : State), s.Inv → s.block.tcp.isOpen = false → i ≠ .tcpOpen → exec i s = .next t →
    t.block.tcp = s.block.tcp ∧ t.block.tcp.tt = [] ∧ tcpTrace t.block.out = tcpTrace s.block.out
end

