-- ==== Sys2Proof/Laws/Bytes.lean ====
section
/-! SUPPORT. Byte order: taking a 16-bit or 32-bit value apart and putting it together are inverse. -/

namespace Sys2Proof.Machine

@[simp] theorem word16_halves (v : U16) : word16 (v.extractLsb' 8 8) (v.extractLsb' 0 8) = v := by
  apply BitVec.eq_of_getLsbD_eq
  intro i hi
  simp only [word16, BitVec.getLsbD_append, BitVec.getLsbD_extractLsb']
  by_cases h : i < 8
  · simp [h]
  · simp [h, show i - 8 < 8 by omega, show 8 + (i - 8) = i by omega]

theorem word16_high (h l : Byte) : (word16 h l).extractLsb' 8 8 = h := by
  apply BitVec.eq_of_getLsbD_eq
  intro i hi
  simp only [word16, BitVec.getLsbD_append, BitVec.getLsbD_extractLsb', hi, decide_true, Bool.true_and]
  simp [show ¬ 8 + i < 8 by omega]

theorem word16_low (h l : Byte) : (word16 h l).extractLsb' 0 8 = l := by
  apply BitVec.eq_of_getLsbD_eq
  intro i hi
  simp only [word16, BitVec.getLsbD_append, BitVec.getLsbD_extractLsb', hi, decide_true, Bool.true_and]
  simp [hi]

theorem word16_toNat (h l : Byte) : (word16 h l).toNat = h.toNat * 256 + l.toNat := by
  rw [word16, BitVec.toNat_append, Nat.shiftLeft_eq, Nat.mul_comm, ← Nat.two_pow_add_eq_or_of_lt l.isLt]

theorem highByte_eq (v : U16) : v.extractLsb' 8 8 = BitVec.ofNat 8 (v.toNat / 256) := by
  apply BitVec.eq_of_toNat_eq
  simp [BitVec.extractLsb'_toNat, Nat.shiftRight_eq_div_pow]

theorem lowByte_eq (v : U16) : v.extractLsb' 0 8 = BitVec.ofNat 8 v.toNat := by
  apply BitVec.eq_of_toNat_eq
  simp [BitVec.extractLsb'_toNat]

@[simp] theorem be16_word16 (h l : Byte) : be16 (word16 h l) = [h, l] := by
  simp [be16, word16_high, word16_low]

@[simp] theorem le16_word16 (h l : Byte) : le16 (word16 h l) = [l, h] := by
  simp [le16, word16_high, word16_low]

@[simp] theorem length_be16 (v : U16) : (be16 v).length = 2 := rfl

@[simp] theorem length_le16 (v : U16) : (le16 v).length = 2 := rfl

@[simp] theorem length_be32 (v : U32) : (be32 v).length = 4 := rfl

@[simp] theorem word32_quarters (v : U32) :
    word32 (v.extractLsb' 24 8) (v.extractLsb' 16 8) (v.extractLsb' 8 8) (v.extractLsb' 0 8) = v := by
  apply BitVec.eq_of_getLsbD_eq
  intro i hi
  simp only [word32, BitVec.getLsbD_append, BitVec.getLsbD_extractLsb']
  by_cases h0 : i < 8
  · simp [h0]
  by_cases h1 : i < 16
  · simp [h0, show i - 8 < 8 by omega, show 8 + (i - 8) = i by omega]
  by_cases h2 : i < 24
  · simp [h0, show ¬ i - 8 < 8 by omega, show i - 8 - 8 < 8 by omega, show 16 + (i - 8 - 8) = i by omega]
  · simp [h0, show ¬ i - 8 < 8 by omega, show ¬ i - 8 - 8 < 8 by omega, show i - 8 - 8 - 8 < 8 by omega,
      show 24 + (i - 8 - 8 - 8) = i by omega]

theorem be32_word32 (a b c d : Byte) : be32 (word32 a b c d) = [a, b, c, d] := by
  simp only [be32, List.cons.injEq, and_true]
  refine ⟨?_, ?_, ?_, ?_⟩ <;>
  · apply BitVec.eq_of_getLsbD_eq
    intro i hi
    simp only [word32, BitVec.getLsbD_append, BitVec.getLsbD_extractLsb']
    simp (disch := omega) [hi, show ¬ 24 + i < 8 by omega, show ¬ 16 + i < 8 by omega,
      show ¬ 8 + i < 8 by omega, show ¬ 24 + i - 8 < 8 by omega, show ¬ 16 + i - 8 < 8 by omega,
      show 8 + i - 8 = i by omega, show 16 + i - 8 - 8 = i by omega, show 24 + i - 8 - 8 - 8 = i by omega,
      show ¬ 24 + i - 8 - 8 < 8 by omega]

@[simp] theorem length_slice (s : Bytes) (i n : Nat) : (slice s i n).length = min n (s.length - i) := by
  simp [slice]

theorem slice_zero (s : Bytes) (n : Nat) : slice s 0 n = s.take n := by simp [slice]

@[simp] theorem byteAt_cons_zero (b : Byte) (s : Bytes) : byteAt (b :: s) 0 = b := rfl

@[simp] theorem byteAt_cons_succ (b : Byte) (s : Bytes) (i : Nat) : byteAt (b :: s) (i + 1) = byteAt s i := rfl

end Sys2Proof.Machine
end

