-- ==== Sys2Proof/Laws/Crc.lean ====
section
/-! SUPPORT. The CRC (41_crc.md): the bit step is linear and injective, what eight steps do to a value whose low byte is
zero, and the fold over a byte sequence. -/

namespace Sys2Proof.Machine

theorem crc16_append (s t : Bytes) : crc16 (s ++ t) = t.foldl crcStep (crc16 s) := by
  simp [crc16]

/-- Every bit of the bit step's result (R152). -/
theorem getLsbD_crcBit (x : U16) (i : Nat) :
    (crcBit x).getLsbD i = (x.getLsbD (i + 1) ^^ (x.getLsbD 0 && (0xA001#16).getLsbD i)) := by
  unfold crcBit
  cases h : x.getLsbD 0 with
  | true =>
    rw [if_pos rfl, BitVec.getLsbD_xor, BitVec.getLsbD_ushiftRight, Nat.add_comm, Bool.true_and]; rfl
  | false =>
    rw [if_neg Bool.false_ne_true, BitVec.getLsbD_ushiftRight, Bool.false_and, Bool.xor_false, Nat.add_comm]

/-- The bit step is linear over XOR. -/
theorem crcBit_xor (x y : U16) : crcBit (x ^^^ y) = crcBit x ^^^ crcBit y := by
  apply BitVec.eq_of_getLsbD_eq
  intro i _
  simp only [getLsbD_crcBit, BitVec.getLsbD_xor]
  cases x.getLsbD (i + 1) <;> cases y.getLsbD (i + 1) <;> cases x.getLsbD 0 <;> cases y.getLsbD 0 <;> simp

theorem crcBit_zero : crcBit 0 = 0 := by decide

/-- The bit step loses nothing: bit 15 of the result tells which branch was taken. -/
theorem crcBit_eq_zero {x : U16} (h : crcBit x = 0) : x = 0 := by
  have hb : ∀ i, (x.getLsbD (i + 1) ^^ (x.getLsbD 0 && (0xA001#16).getLsbD i)) = false := by
    intro i; rw [← getLsbD_crcBit, h]; simp
  have h0 : x.getLsbD 0 = false := by
    have := hb 15
    rwa [BitVec.getLsbD_of_ge x 16 (by omega), show (0xA001#16).getLsbD 15 = true by decide, Bool.and_true,
      Bool.false_xor] at this
  apply BitVec.eq_of_getLsbD_eq
  intro i _
  cases i with
  | zero => rw [h0]; simp
  | succ i =>
    have := hb i
    rw [h0, Bool.false_and, Bool.xor_false] at this
    rw [this]; simp

theorem crcBit_iterate_xor (n : Nat) (x y : U16) : crcBit^[n] (x ^^^ y) = crcBit^[n] x ^^^ crcBit^[n] y := by
  induction n generalizing x y with
  | zero => rfl
  | succ n ih => simp only [Function.iterate_succ, Function.comp, crcBit_xor, ih]

theorem crcBit_iterate_zero (n : Nat) : crcBit^[n] 0 = 0 := by
  induction n with
  | zero => rfl
  | succ n ih => simpa only [Function.iterate_succ, Function.comp, crcBit_zero] using ih

theorem crcBit_iterate_eq_zero {n : Nat} {x : U16} (h : crcBit^[n] x = 0) : x = 0 := by
  induction n generalizing x with
  | zero => exact h
  | succ n ih => exact crcBit_eq_zero (ih (by simpa only [Function.iterate_succ, Function.comp] using h))

/-- Steps that only see zero bits are a shift. -/
theorem crcBit_iterate_of_low_zero (n : Nat) (x : U16) (h : ∀ j < n, x.getLsbD j = false) : crcBit^[n] x = x >>> n := by
  induction n generalizing x with
  | zero => simp
  | succ n ih =>
    have h0 : x.getLsbD 0 = false := h 0 (by omega)
    have hx : crcBit x = x >>> 1 := by rw [crcBit, h0, if_neg Bool.false_ne_true]
    rw [Function.iterate_succ, Function.comp, hx, ih]
    · rw [← BitVec.shiftRight_add, Nat.add_comm]
    · intro j hj
      rw [BitVec.getLsbD_ushiftRight]
      exact h _ (by omega)

/-- `CrcStep` is linear over XOR in the remainder and the byte together. -/
theorem crcStep_xor (c d : U16) (a b : Byte) : crcStep (c ^^^ d) (a ^^^ b) = crcStep c a ^^^ crcStep d b := by
  have h : (c ^^^ d) ^^^ (a ^^^ b).zeroExtend 16 = (c ^^^ a.zeroExtend 16) ^^^ (d ^^^ b.zeroExtend 16) := by
    apply BitVec.eq_of_getLsbD_eq
    intro i hi
    simp only [BitVec.getLsbD_xor, BitVec.truncate_eq_setWidth, BitVec.getLsbD_setWidth, hi, decide_true, Bool.true_and]
    cases c.getLsbD i <;> cases d.getLsbD i <;> cases a.getLsbD i <;> cases b.getLsbD i <;> rfl
  rw [crcStep, h, crcBit_iterate_xor]
  rfl

theorem crcStep_eq_zero {c : U16} {b : Byte} (h : crcStep c b = 0) : c = b.zeroExtend 16 :=
  BitVec.xor_eq_zero_iff.mp (crcBit_iterate_eq_zero h)

/-- Feeding the remainder its own low byte shifts it down by a byte. -/
theorem crcStep_low (h l : Byte) : crcStep (word16 h l) l = h.zeroExtend 16 := by
  unfold crcStep
  rw [crcBit_iterate_of_low_zero]
  · apply BitVec.eq_of_getLsbD_eq
    intro i hi
    simp only [BitVec.getLsbD_ushiftRight, BitVec.getLsbD_xor, word16, BitVec.getLsbD_append,
      BitVec.truncate_eq_setWidth, BitVec.getLsbD_setWidth]
    simp [show ¬ 8 + i < 8 by omega, hi]
  · intro j hj
    simp only [BitVec.getLsbD_xor, word16, BitVec.getLsbD_append, BitVec.truncate_eq_setWidth, BitVec.getLsbD_setWidth]
    simp [hj, show j < 16 by omega]

theorem crcStep_self (b : Byte) : crcStep (b.zeroExtend 16) b = 0 := by
  simp only [crcStep, BitVec.xor_self]
  exact crcBit_iterate_zero 8

/-- Two steps end in zero exactly from the remainder whose bytes, low first, are the two bytes. -/
theorem crcStep_crcStep_eq_zero {c : U16} {h l : Byte} : crcStep (crcStep c l) h = 0 ↔ c = word16 h l := by
  constructor
  · intro hz
    have h1 := crcStep_eq_zero hz
    have h2 : crcStep (c ^^^ word16 h l) (l ^^^ l) = 0 := by
      rw [crcStep_xor, h1, crcStep_low, BitVec.xor_self]; rfl
    have h3 := crcStep_eq_zero h2
    rw [BitVec.xor_self] at h3
    exact BitVec.xor_eq_zero_iff.mp (by simpa using h3)
  · rintro rfl
    rw [crcStep_low, crcStep_self]

/-- A difference in the remainder survives any bytes. -/
theorem foldl_crcStep_ne (t : Bytes) {c d : U16} (h : c ≠ d) : t.foldl crcStep c ≠ t.foldl crcStep d := by
  induction t generalizing c d with
  | nil => exact h
  | cons b t ih =>
    refine ih fun he => h ?_
    have h2 : crcStep (c ^^^ d) (b ^^^ b) = 0 := by rw [crcStep_xor, he, BitVec.xor_self]; rfl
    have h3 := crcStep_eq_zero h2
    rw [BitVec.xor_self] at h3
    exact BitVec.xor_eq_zero_iff.mp (by simpa using h3)

/-- Different bytes lead the same remainder to different ones. -/
theorem crcStep_ne {c : U16} {a b : Byte} (h : a ≠ b) : crcStep c a ≠ crcStep c b := by
  intro he
  have h2 : crcStep (c ^^^ c) (a ^^^ b) = 0 := by rw [crcStep_xor, he, BitVec.xor_self]; rfl
  have h3 := crcStep_eq_zero h2
  rw [BitVec.xor_self] at h3
  apply h
  have h4 : (a ^^^ b) = 0 := by
    apply BitVec.eq_of_getLsbD_eq
    intro i hi
    have := congrArg (BitVec.getLsbD · i) h3
    simpa [BitVec.getLsbD_setWidth, show i < 16 by omega] using this.symm
  exact BitVec.xor_eq_zero_iff.mp h4

theorem length_rtuFrame (unit fc : Byte) (p : Bytes) : (rtuFrame unit fc p).length = p.length + 4 := by
  simp [rtuFrame, rtuBody]

/-- What `RtuParse` finds in an ADU written as its fields (R92). -/
theorem rtuParse_fields (unit fc lo hi : Byte) (p : Bytes) :
    rtuParse ([unit, fc] ++ p ++ [lo, hi]) =
      { unit := unit, fc := fc, payload := p, crcValid := decide (crc16 ([unit, fc] ++ p) = word16 hi lo) } := by
  have hl : ([unit, fc] ++ p ++ [lo, hi]).length - 2 = ([unit, fc] ++ p).length := by simp
  have h1 : slice ([unit, fc] ++ p ++ [lo, hi]) 0 ([unit, fc] ++ p).length = [unit, fc] ++ p := by
    rw [slice_zero, List.take_left]
  have h2 : rdLe16 ([unit, fc] ++ p ++ [lo, hi]) ([unit, fc] ++ p).length = word16 hi lo := by
    simp [rdLe16, byteAt, List.getD_eq_getElem?_getD]
  have h3 : slice ([unit, fc] ++ p ++ [lo, hi]) 2 (([unit, fc] ++ p ++ [lo, hi]).length - 4) = p := by
    simp [slice]
  simp only [rtuParse, hl, h1, h2, h3]
  rfl

/-- Every ADU of at least 4 bytes is such fields. -/
theorem exists_fields {adu : Bytes} (h : 4 ≤ adu.length) :
    ∃ unit fc lo hi p, adu = [unit, fc] ++ p ++ [lo, hi] := by
  match adu, h with
  | u :: c :: r, h =>
    have hr : 2 ≤ r.length := by simpa using h
    obtain ⟨p, q, hq, rfl⟩ : ∃ p q, q.length = 2 ∧ r = p ++ q :=
      ⟨r.take (r.length - 2), r.drop (r.length - 2), by simp; omega, (List.take_append_drop _ _).symm⟩
    obtain ⟨lo, hi, rfl⟩ := List.length_eq_two.mp hq
    exact ⟨u, c, lo, hi, p, by simp⟩

theorem rtuFrame_eq_fields (unit fc : Byte) (p : Bytes) :
    rtuFrame unit fc p = [unit, fc] ++ p ++
      [(crc16 ([unit, fc] ++ p)).extractLsb' 0 8, (crc16 ([unit, fc] ++ p)).extractLsb' 8 8] := rfl

end Sys2Proof.Machine
end

