-- ==== Sys2Proof/Laws/Decode.lean ====
section
/-! SUPPORT. The operand shapes of 30_encoding.md R110: what each reader of operands takes from bytes that hold them, and
what bytes it has read when it answers an operation; reserved opcodes (R112). -/

namespace Sys2Proof

open Machine

theorem toNat_ofNat8 {k : Nat} (h : k ≤ 255) : (BitVec.ofNat 8 k).toNat = k := by
  rw [BitVec.toNat_ofNat]; omega

theorem toNat_ofNat16 {k : Nat} (h : k ≤ 65535) : (BitVec.ofNat 16 k).toNat = k := by
  rw [BitVec.toNat_ofNat]; omega

theorem payloadFits_iff {p : Bytes} : payloadFits p = true ↔ p.length ≤ 255 := decide_eq_true_iff

/-! ### Reading what is there -/

theorem opCounted_append (f : Bytes → Instr) (p rest : Bytes) {k : Nat} (h : p.length = k) :
    opCounted f k (p ++ rest) = .op (f p) rest := by
  subst h
  simp [opCounted]

theorem opPdu_encodePayload (f : Byte → Byte → Bytes → Instr) (u c : Byte) {p : Bytes} (rest : Bytes)
    (h : payloadFits p = true) : opPdu f (u :: c :: encodePayload p ++ rest) = .op (f u c p) rest :=
  opCounted_append _ _ _ (toNat_ofNat8 (payloadFits_iff.mp h)).symm

theorem opU16Pdu_be16 (f : U16 → Byte → Byte → Bytes → Instr) (t : U16) (u c : Byte) {p : Bytes} (rest : Bytes)
    (h : payloadFits p = true) : opU16Pdu f (be16 t ++ u :: c :: encodePayload p ++ rest) = .op (f t u c p) rest := by
  have h2 : opU16Pdu f (be16 t ++ u :: c :: encodePayload p ++ rest) =
      opPdu (f (word16 (t.extractLsb' 8 8) (t.extractLsb' 0 8))) (u :: c :: encodePayload p ++ rest) := rfl
  rw [h2, word16_halves]
  exact opPdu_encodePayload _ _ _ _ h

/-! ### What was read -/

theorem opU8_inv {f : Byte → Instr} {r rest : Bytes} {i : Instr} (h : opU8 f r = .op i rest) :
    ∃ b, r = b :: rest ∧ i = f b := by
  unfold opU8 at h
  split at h
  · cases h; exact ⟨_, rfl, rfl⟩
  · cases h

theorem opU16_inv {f : U16 → Instr} {r rest : Bytes} {i : Instr} (h : opU16 f r = .op i rest) :
    ∃ v, r = be16 v ++ rest ∧ i = f v := by
  unfold opU16 at h
  split at h
  · cases h; exact ⟨_, by rw [be16_word16]; rfl, rfl⟩
  · cases h

theorem opIdxU32_inv {f : Byte → U32 → Instr} {r rest : Bytes} {i : Instr} (h : opIdxU32 f r = .op i rest) :
    ∃ x v, r = x :: be32 v ++ rest ∧ i = f x v := by
  unfold opIdxU32 at h
  split at h
  · cases h; exact ⟨_, _, by rw [be32_word32]; rfl, rfl⟩
  · cases h

theorem opCounted_inv {f : Bytes → Instr} {k : Nat} {r rest : Bytes} {i : Instr} (h : opCounted f k r = .op i rest) :
    ∃ p, r = p ++ rest ∧ p.length = k ∧ i = f p := by
  unfold opCounted at h
  split at h
  · next hk => cases h; exact ⟨r.take k, (List.take_append_drop ..).symm, by simpa using hk, rfl⟩
  · cases h

theorem opM16_inv {f : Bytes → Instr} {r rest : Bytes} {i : Instr} (h : opM16 f r = .op i rest) :
    ∃ p, r = be16 (BitVec.ofNat 16 p.length) ++ p ++ rest ∧ p.length ≤ 65535 ∧ i = f p := by
  unfold opM16 at h
  split at h
  · next a b r =>
    obtain ⟨p, rfl, hl, rfl⟩ := opCounted_inv h
    refine ⟨p, ?_, ?_, rfl⟩
    · rw [hl, BitVec.ofNat_toNat, BitVec.setWidth_eq, be16_word16]; rfl
    · have := (word16 a b).isLt; omega
  · cases h

theorem opPdu_inv {f : Byte → Byte → Bytes → Instr} {r rest : Bytes} {i : Instr} (h : opPdu f r = .op i rest) :
    ∃ u c p, r = u :: c :: encodePayload p ++ rest ∧ payloadFits p = true ∧ i = f u c p := by
  unfold opPdu at h
  split at h
  · next u c n r =>
    obtain ⟨p, rfl, hl, rfl⟩ := opCounted_inv h
    refine ⟨u, c, p, ?_, ?_, rfl⟩
    · simp [encodePayload, hl]
    · have := n.isLt; rw [payloadFits_iff]; omega
  · cases h

theorem opU16Pdu_inv {f : U16 → Byte → Byte → Bytes → Instr} {r rest : Bytes} {i : Instr}
    (h : opU16Pdu f r = .op i rest) :
    ∃ t u c p, r = be16 t ++ u :: c :: encodePayload p ++ rest ∧ payloadFits p = true ∧ i = f t u c p := by
  unfold opU16Pdu at h
  split at h
  · obtain ⟨u, c, p, rfl, hl, rfl⟩ := opPdu_inv h
    exact ⟨_, u, c, p, by rw [be16_word16]; rfl, hl, rfl⟩
  · cases h

/-! ### Reserved opcodes -/

theorem opU8_ne_reserved (f : Byte → Instr) (r : Bytes) (o : Byte) (t : Bytes) : opU8 f r ≠ .reserved o t := by
  unfold opU8; split <;> simp

theorem opU16_ne_reserved (f : U16 → Instr) (r : Bytes) (o : Byte) (t : Bytes) : opU16 f r ≠ .reserved o t := by
  unfold opU16; split <;> simp

theorem opIdxU32_ne_reserved (f : Byte → U32 → Instr) (r : Bytes) (o : Byte) (t : Bytes) :
    opIdxU32 f r ≠ .reserved o t := by
  unfold opIdxU32; split <;> simp

theorem opCounted_ne_reserved (f : Bytes → Instr) (k : Nat) (r : Bytes) (o : Byte) (t : Bytes) :
    opCounted f k r ≠ .reserved o t := by
  unfold opCounted; split <;> simp

theorem opM16_ne_reserved (f : Bytes → Instr) (r : Bytes) (o : Byte) (t : Bytes) : opM16 f r ≠ .reserved o t := by
  unfold opM16; split
  · exact opCounted_ne_reserved _ _ _ _ _
  · simp

theorem opPdu_ne_reserved (f : Byte → Byte → Bytes → Instr) (r : Bytes) (o : Byte) (t : Bytes) :
    opPdu f r ≠ .reserved o t := by
  unfold opPdu; split
  · exact opCounted_ne_reserved _ _ _ _ _
  · simp

theorem opU16Pdu_ne_reserved (f : U16 → Byte → Byte → Bytes → Instr) (r : Bytes) (o : Byte) (t : Bytes) :
    opU16Pdu f r ≠ .reserved o t := by
  unfold opU16Pdu; split
  · exact opPdu_ne_reserved _ _ _ _
  · simp

/-- The opcodes of the table of R110, as numbers. -/
def tableOpcodes : List Nat :=
  [0x00, 0x01, 0x02, 0x03, 0x10, 0x11, 0x12, 0x13, 0x20, 0x21, 0x22, 0x23, 0x24, 0x30, 0x31, 0x32, 0x33, 0x34, 0x40,
    0x41, 0x7F]

theorem decode_of_reserved {op : Byte} (h : op.toNat ∉ tableOpcodes) (r : Bytes) : decode (op :: r) = .reserved op r := by
  simp only [decode, decodeOperands]
  split <;> (first | rfl | (exfalso; exact h (by simp_all [tableOpcodes])))

theorem reserved_of_decode {op o : Byte} {r t : Bytes} (h : decode (op :: r) = .reserved o t) :
    o = op ∧ t = r ∧ op.toNat ∉ tableOpcodes := by
  simp only [decode, decodeOperands] at h
  split at h <;> first
    | (cases h; done)
    | exact absurd h (opU8_ne_reserved _ _ _ _)
    | exact absurd h (opU16_ne_reserved _ _ _ _)
    | exact absurd h (opIdxU32_ne_reserved _ _ _ _)
    | exact absurd h (opCounted_ne_reserved _ _ _ _ _)
    | exact absurd h (opM16_ne_reserved _ _ _ _)
    | exact absurd h (opPdu_ne_reserved _ _ _ _)
    | exact absurd h (opU16Pdu_ne_reserved _ _ _ _)
    | (cases h; exact ⟨rfl, rfl, fun hm => by simp [tableOpcodes] at hm; simp_all⟩)

end Sys2Proof
end

