-- ==== Sys2Proof/Laws/State.lean ====
section
/-! SUPPORT. One lemma per field per update of the state, each true by unfolding: what an update writes and what it
leaves. Later proofs cite these and unfold no update. -/

namespace Sys2Proof.Machine

/-! ### Block: whole components -/

@[simp] theorem Block.setCrc_crc (c : U16) (b : Block) : (b.setCrc c).crc = c := rfl
@[simp] theorem Block.setCrc_rtu (c : U16) (b : Block) : (b.setCrc c).rtu = b.rtu := rfl
@[simp] theorem Block.setCrc_tcp (c : U16) (b : Block) : (b.setCrc c).tcp = b.tcp := rfl
@[simp] theorem Block.setCrc_cfg (c : U16) (b : Block) : (b.setCrc c).cfg = b.cfg := rfl
@[simp] theorem Block.setCrc_out (c : U16) (b : Block) : (b.setCrc c).out = b.out := rfl
@[simp] theorem Block.setRtu_crc (r : Rtu) (b : Block) : (b.setRtu r).crc = b.crc := rfl
@[simp] theorem Block.setRtu_rtu (r : Rtu) (b : Block) : (b.setRtu r).rtu = r := rfl
@[simp] theorem Block.setRtu_tcp (r : Rtu) (b : Block) : (b.setRtu r).tcp = b.tcp := rfl
@[simp] theorem Block.setRtu_cfg (r : Rtu) (b : Block) : (b.setRtu r).cfg = b.cfg := rfl
@[simp] theorem Block.setRtu_out (r : Rtu) (b : Block) : (b.setRtu r).out = b.out := rfl
@[simp] theorem Block.setTcp_crc (t : Tcp) (b : Block) : (b.setTcp t).crc = b.crc := rfl
@[simp] theorem Block.setTcp_rtu (t : Tcp) (b : Block) : (b.setTcp t).rtu = b.rtu := rfl
@[simp] theorem Block.setTcp_tcp (t : Tcp) (b : Block) : (b.setTcp t).tcp = t := rfl
@[simp] theorem Block.setTcp_cfg (t : Tcp) (b : Block) : (b.setTcp t).cfg = b.cfg := rfl
@[simp] theorem Block.setTcp_out (t : Tcp) (b : Block) : (b.setTcp t).out = b.out := rfl
@[simp] theorem Block.setCfg_crc (c : Cfg) (b : Block) : (b.setCfg c).crc = b.crc := rfl
@[simp] theorem Block.setCfg_rtu (c : Cfg) (b : Block) : (b.setCfg c).rtu = b.rtu := rfl
@[simp] theorem Block.setCfg_tcp (c : Cfg) (b : Block) : (b.setCfg c).tcp = b.tcp := rfl
@[simp] theorem Block.setCfg_cfg (c : Cfg) (b : Block) : (b.setCfg c).cfg = c := rfl
@[simp] theorem Block.setCfg_out (c : Cfg) (b : Block) : (b.setCfg c).out = b.out := rfl
@[simp] theorem Block.emit_crc (e : Event) (b : Block) : (b.emit e).crc = b.crc := rfl
@[simp] theorem Block.emit_rtu (e : Event) (b : Block) : (b.emit e).rtu = b.rtu := rfl
@[simp] theorem Block.emit_tcp (e : Event) (b : Block) : (b.emit e).tcp = b.tcp := rfl
@[simp] theorem Block.emit_cfg (e : Event) (b : Block) : (b.emit e).cfg = b.cfg := rfl
@[simp] theorem Block.emit_out (e : Event) (b : Block) : (b.emit e).out = b.out ++ [e] := rfl

/-! ### Block: RTU elements -/

@[simp] theorem Block.setRtuOpen_rtu_isOpen (v : Bool) (b : Block) : (b.setRtuOpen v).rtu.isOpen = v := rfl
@[simp] theorem Block.setRtuOpen_rtu_st (v : Bool) (b : Block) : (b.setRtuOpen v).rtu.st = b.rtu.st := rfl
@[simp] theorem Block.setRtuOpen_rtu_dly (v : Bool) (b : Block) : (b.setRtuOpen v).rtu.dly = b.rtu.dly := rfl
@[simp] theorem Block.setRtuOpen_rtu_rspt (v : Bool) (b : Block) : (b.setRtuOpen v).rtu.rspt = b.rtu.rspt := rfl
@[simp] theorem Block.setRtuOpen_rtu_q (v : Bool) (b : Block) : (b.setRtuOpen v).rtu.q = b.rtu.q := rfl
@[simp] theorem Block.setRtuOpen_rtu_rxbuf (v : Bool) (b : Block) : (b.setRtuOpen v).rtu.rxbuf = b.rtu.rxbuf := rfl
@[simp] theorem Block.setRtuOpen_rtu_rxovf (v : Bool) (b : Block) : (b.setRtuOpen v).rtu.rxovf = b.rtu.rxovf := rfl
@[simp] theorem Block.setRtuOpen_crc (v : Bool) (b : Block) : (b.setRtuOpen v).crc = b.crc := rfl
@[simp] theorem Block.setRtuOpen_tcp (v : Bool) (b : Block) : (b.setRtuOpen v).tcp = b.tcp := rfl
@[simp] theorem Block.setRtuOpen_cfg (v : Bool) (b : Block) : (b.setRtuOpen v).cfg = b.cfg := rfl
@[simp] theorem Block.setRtuOpen_out (v : Bool) (b : Block) : (b.setRtuOpen v).out = b.out := rfl
@[simp] theorem Block.setRtuState_rtu_isOpen (v : RtuState) (b : Block) : (b.setRtuState v).rtu.isOpen = b.rtu.isOpen := rfl
@[simp] theorem Block.setRtuState_rtu_st (v : RtuState) (b : Block) : (b.setRtuState v).rtu.st = v := rfl
@[simp] theorem Block.setRtuState_rtu_dly (v : RtuState) (b : Block) : (b.setRtuState v).rtu.dly = b.rtu.dly := rfl
@[simp] theorem Block.setRtuState_rtu_rspt (v : RtuState) (b : Block) : (b.setRtuState v).rtu.rspt = b.rtu.rspt := rfl
@[simp] theorem Block.setRtuState_rtu_q (v : RtuState) (b : Block) : (b.setRtuState v).rtu.q = b.rtu.q := rfl
@[simp] theorem Block.setRtuState_rtu_rxbuf (v : RtuState) (b : Block) : (b.setRtuState v).rtu.rxbuf = b.rtu.rxbuf := rfl
@[simp] theorem Block.setRtuState_rtu_rxovf (v : RtuState) (b : Block) : (b.setRtuState v).rtu.rxovf = b.rtu.rxovf := rfl
@[simp] theorem Block.setRtuState_crc (v : RtuState) (b : Block) : (b.setRtuState v).crc = b.crc := rfl
@[simp] theorem Block.setRtuState_tcp (v : RtuState) (b : Block) : (b.setRtuState v).tcp = b.tcp := rfl
@[simp] theorem Block.setRtuState_cfg (v : RtuState) (b : Block) : (b.setRtuState v).cfg = b.cfg := rfl
@[simp] theorem Block.setRtuState_out (v : RtuState) (b : Block) : (b.setRtuState v).out = b.out := rfl
@[simp] theorem Block.setRtuDly_rtu_isOpen (v : Timer) (b : Block) : (b.setRtuDly v).rtu.isOpen = b.rtu.isOpen := rfl
@[simp] theorem Block.setRtuDly_rtu_st (v : Timer) (b : Block) : (b.setRtuDly v).rtu.st = b.rtu.st := rfl
@[simp] theorem Block.setRtuDly_rtu_dly (v : Timer) (b : Block) : (b.setRtuDly v).rtu.dly = v := rfl
@[simp] theorem Block.setRtuDly_rtu_rspt (v : Timer) (b : Block) : (b.setRtuDly v).rtu.rspt = b.rtu.rspt := rfl
@[simp] theorem Block.setRtuDly_rtu_q (v : Timer) (b : Block) : (b.setRtuDly v).rtu.q = b.rtu.q := rfl
@[simp] theorem Block.setRtuDly_rtu_rxbuf (v : Timer) (b : Block) : (b.setRtuDly v).rtu.rxbuf = b.rtu.rxbuf := rfl
@[simp] theorem Block.setRtuDly_rtu_rxovf (v : Timer) (b : Block) : (b.setRtuDly v).rtu.rxovf = b.rtu.rxovf := rfl
@[simp] theorem Block.setRtuDly_crc (v : Timer) (b : Block) : (b.setRtuDly v).crc = b.crc := rfl
@[simp] theorem Block.setRtuDly_tcp (v : Timer) (b : Block) : (b.setRtuDly v).tcp = b.tcp := rfl
@[simp] theorem Block.setRtuDly_cfg (v : Timer) (b : Block) : (b.setRtuDly v).cfg = b.cfg := rfl
@[simp] theorem Block.setRtuDly_out (v : Timer) (b : Block) : (b.setRtuDly v).out = b.out := rfl
@[simp] theorem Block.setRtuRspt_rtu_isOpen (v : Timer) (b : Block) : (b.setRtuRspt v).rtu.isOpen = b.rtu.isOpen := rfl
@[simp] theorem Block.setRtuRspt_rtu_st (v : Timer) (b : Block) : (b.setRtuRspt v).rtu.st = b.rtu.st := rfl
@[simp] theorem Block.setRtuRspt_rtu_dly (v : Timer) (b : Block) : (b.setRtuRspt v).rtu.dly = b.rtu.dly := rfl
@[simp] theorem Block.setRtuRspt_rtu_rspt (v : Timer) (b : Block) : (b.setRtuRspt v).rtu.rspt = v := rfl
@[simp] theorem Block.setRtuRspt_rtu_q (v : Timer) (b : Block) : (b.setRtuRspt v).rtu.q = b.rtu.q := rfl
@[simp] theorem Block.setRtuRspt_rtu_rxbuf (v : Timer) (b : Block) : (b.setRtuRspt v).rtu.rxbuf = b.rtu.rxbuf := rfl
@[simp] theorem Block.setRtuRspt_rtu_rxovf (v : Timer) (b : Block) : (b.setRtuRspt v).rtu.rxovf = b.rtu.rxovf := rfl
@[simp] theorem Block.setRtuRspt_crc (v : Timer) (b : Block) : (b.setRtuRspt v).crc = b.crc := rfl
@[simp] theorem Block.setRtuRspt_tcp (v : Timer) (b : Block) : (b.setRtuRspt v).tcp = b.tcp := rfl
@[simp] theorem Block.setRtuRspt_cfg (v : Timer) (b : Block) : (b.setRtuRspt v).cfg = b.cfg := rfl
@[simp] theorem Block.setRtuRspt_out (v : Timer) (b : Block) : (b.setRtuRspt v).out = b.out := rfl
@[simp] theorem Block.setRtuQ_rtu_isOpen (v : List Elem) (b : Block) : (b.setRtuQ v).rtu.isOpen = b.rtu.isOpen := rfl
@[simp] theorem Block.setRtuQ_rtu_st (v : List Elem) (b : Block) : (b.setRtuQ v).rtu.st = b.rtu.st := rfl
@[simp] theorem Block.setRtuQ_rtu_dly (v : List Elem) (b : Block) : (b.setRtuQ v).rtu.dly = b.rtu.dly := rfl
@[simp] theorem Block.setRtuQ_rtu_rspt (v : List Elem) (b : Block) : (b.setRtuQ v).rtu.rspt = b.rtu.rspt := rfl
@[simp] theorem Block.setRtuQ_rtu_q (v : List Elem) (b : Block) : (b.setRtuQ v).rtu.q = v := rfl
@[simp] theorem Block.setRtuQ_rtu_rxbuf (v : List Elem) (b : Block) : (b.setRtuQ v).rtu.rxbuf = b.rtu.rxbuf := rfl
@[simp] theorem Block.setRtuQ_rtu_rxovf (v : List Elem) (b : Block) : (b.setRtuQ v).rtu.rxovf = b.rtu.rxovf := rfl
@[simp] theorem Block.setRtuQ_crc (v : List Elem) (b : Block) : (b.setRtuQ v).crc = b.crc := rfl
@[simp] theorem Block.setRtuQ_tcp (v : List Elem) (b : Block) : (b.setRtuQ v).tcp = b.tcp := rfl
@[simp] theorem Block.setRtuQ_cfg (v : List Elem) (b : Block) : (b.setRtuQ v).cfg = b.cfg := rfl
@[simp] theorem Block.setRtuQ_out (v : List Elem) (b : Block) : (b.setRtuQ v).out = b.out := rfl
@[simp] theorem Block.setRtuRxbuf_rtu_isOpen (v : Bytes) (b : Block) : (b.setRtuRxbuf v).rtu.isOpen = b.rtu.isOpen := rfl
@[simp] theorem Block.setRtuRxbuf_rtu_st (v : Bytes) (b : Block) : (b.setRtuRxbuf v).rtu.st = b.rtu.st := rfl
@[simp] theorem Block.setRtuRxbuf_rtu_dly (v : Bytes) (b : Block) : (b.setRtuRxbuf v).rtu.dly = b.rtu.dly := rfl
@[simp] theorem Block.setRtuRxbuf_rtu_rspt (v : Bytes) (b : Block) : (b.setRtuRxbuf v).rtu.rspt = b.rtu.rspt := rfl
@[simp] theorem Block.setRtuRxbuf_rtu_q (v : Bytes) (b : Block) : (b.setRtuRxbuf v).rtu.q = b.rtu.q := rfl
@[simp] theorem Block.setRtuRxbuf_rtu_rxbuf (v : Bytes) (b : Block) : (b.setRtuRxbuf v).rtu.rxbuf = v := rfl
@[simp] theorem Block.setRtuRxbuf_rtu_rxovf (v : Bytes) (b : Block) : (b.setRtuRxbuf v).rtu.rxovf = b.rtu.rxovf := rfl
@[simp] theorem Block.setRtuRxbuf_crc (v : Bytes) (b : Block) : (b.setRtuRxbuf v).crc = b.crc := rfl
@[simp] theorem Block.setRtuRxbuf_tcp (v : Bytes) (b : Block) : (b.setRtuRxbuf v).tcp = b.tcp := rfl
@[simp] theorem Block.setRtuRxbuf_cfg (v : Bytes) (b : Block) : (b.setRtuRxbuf v).cfg = b.cfg := rfl
@[simp] theorem Block.setRtuRxbuf_out (v : Bytes) (b : Block) : (b.setRtuRxbuf v).out = b.out := rfl
@[simp] theorem Block.setRtuRxovf_rtu_isOpen (v : Bool) (b : Block) : (b.setRtuRxovf v).rtu.isOpen = b.rtu.isOpen := rfl
@[simp] theorem Block.setRtuRxovf_rtu_st (v : Bool) (b : Block) : (b.setRtuRxovf v).rtu.st = b.rtu.st := rfl
@[simp] theorem Block.setRtuRxovf_rtu_dly (v : Bool) (b : Block) : (b.setRtuRxovf v).rtu.dly = b.rtu.dly := rfl
@[simp] theorem Block.setRtuRxovf_rtu_rspt (v : Bool) (b : Block) : (b.setRtuRxovf v).rtu.rspt = b.rtu.rspt := rfl
@[simp] theorem Block.setRtuRxovf_rtu_q (v : Bool) (b : Block) : (b.setRtuRxovf v).rtu.q = b.rtu.q := rfl
@[simp] theorem Block.setRtuRxovf_rtu_rxbuf (v : Bool) (b : Block) : (b.setRtuRxovf v).rtu.rxbuf = b.rtu.rxbuf := rfl
@[simp] theorem Block.setRtuRxovf_rtu_rxovf (v : Bool) (b : Block) : (b.setRtuRxovf v).rtu.rxovf = v := rfl
@[simp] theorem Block.setRtuRxovf_crc (v : Bool) (b : Block) : (b.setRtuRxovf v).crc = b.crc := rfl
@[simp] theorem Block.setRtuRxovf_tcp (v : Bool) (b : Block) : (b.setRtuRxovf v).tcp = b.tcp := rfl
@[simp] theorem Block.setRtuRxovf_cfg (v : Bool) (b : Block) : (b.setRtuRxovf v).cfg = b.cfg := rfl
@[simp] theorem Block.setRtuRxovf_out (v : Bool) (b : Block) : (b.setRtuRxovf v).out = b.out := rfl

/-! ### Block: TCP elements -/

@[simp] theorem Block.setTcpOpen_tcp_isOpen (v : Bool) (b : Block) : (b.setTcpOpen v).tcp.isOpen = v := rfl
@[simp] theorem Block.setTcpOpen_tcp_tt (v : Bool) (b : Block) : (b.setTcpOpen v).tcp.tt = b.tcp.tt := rfl
@[simp] theorem Block.setTcpOpen_tcp_nextTid (v : Bool) (b : Block) : (b.setTcpOpen v).tcp.nextTid = b.tcp.nextTid := rfl
@[simp] theorem Block.setTcpOpen_tcp_rxbuf (v : Bool) (b : Block) : (b.setTcpOpen v).tcp.rxbuf = b.tcp.rxbuf := rfl
@[simp] theorem Block.setTcpOpen_tcp_rxfault (v : Bool) (b : Block) : (b.setTcpOpen v).tcp.rxfault = b.tcp.rxfault := rfl
@[simp] theorem Block.setTcpOpen_crc (v : Bool) (b : Block) : (b.setTcpOpen v).crc = b.crc := rfl
@[simp] theorem Block.setTcpOpen_rtu (v : Bool) (b : Block) : (b.setTcpOpen v).rtu = b.rtu := rfl
@[simp] theorem Block.setTcpOpen_cfg (v : Bool) (b : Block) : (b.setTcpOpen v).cfg = b.cfg := rfl
@[simp] theorem Block.setTcpOpen_out (v : Bool) (b : Block) : (b.setTcpOpen v).out = b.out := rfl
@[simp] theorem Block.setTcpTt_tcp_isOpen (v : TransTable) (b : Block) : (b.setTcpTt v).tcp.isOpen = b.tcp.isOpen := rfl
@[simp] theorem Block.setTcpTt_tcp_tt (v : TransTable) (b : Block) : (b.setTcpTt v).tcp.tt = v := rfl
@[simp] theorem Block.setTcpTt_tcp_nextTid (v : TransTable) (b : Block) : (b.setTcpTt v).tcp.nextTid = b.tcp.nextTid := rfl
@[simp] theorem Block.setTcpTt_tcp_rxbuf (v : TransTable) (b : Block) : (b.setTcpTt v).tcp.rxbuf = b.tcp.rxbuf := rfl
@[simp] theorem Block.setTcpTt_tcp_rxfault (v : TransTable) (b : Block) : (b.setTcpTt v).tcp.rxfault = b.tcp.rxfault := rfl
@[simp] theorem Block.setTcpTt_crc (v : TransTable) (b : Block) : (b.setTcpTt v).crc = b.crc := rfl
@[simp] theorem Block.setTcpTt_rtu (v : TransTable) (b : Block) : (b.setTcpTt v).rtu = b.rtu := rfl
@[simp] theorem Block.setTcpTt_cfg (v : TransTable) (b : Block) : (b.setTcpTt v).cfg = b.cfg := rfl
@[simp] theorem Block.setTcpTt_out (v : TransTable) (b : Block) : (b.setTcpTt v).out = b.out := rfl
@[simp] theorem Block.setTcpNextTid_tcp_isOpen (v : U16) (b : Block) : (b.setTcpNextTid v).tcp.isOpen = b.tcp.isOpen := rfl
@[simp] theorem Block.setTcpNextTid_tcp_tt (v : U16) (b : Block) : (b.setTcpNextTid v).tcp.tt = b.tcp.tt := rfl
@[simp] theorem Block.setTcpNextTid_tcp_nextTid (v : U16) (b : Block) : (b.setTcpNextTid v).tcp.nextTid = v := rfl
@[simp] theorem Block.setTcpNextTid_tcp_rxbuf (v : U16) (b : Block) : (b.setTcpNextTid v).tcp.rxbuf = b.tcp.rxbuf := rfl
@[simp] theorem Block.setTcpNextTid_tcp_rxfault (v : U16) (b : Block) : (b.setTcpNextTid v).tcp.rxfault = b.tcp.rxfault := rfl
@[simp] theorem Block.setTcpNextTid_crc (v : U16) (b : Block) : (b.setTcpNextTid v).crc = b.crc := rfl
@[simp] theorem Block.setTcpNextTid_rtu (v : U16) (b : Block) : (b.setTcpNextTid v).rtu = b.rtu := rfl
@[simp] theorem Block.setTcpNextTid_cfg (v : U16) (b : Block) : (b.setTcpNextTid v).cfg = b.cfg := rfl
@[simp] theorem Block.setTcpNextTid_out (v : U16) (b : Block) : (b.setTcpNextTid v).out = b.out := rfl
@[simp] theorem Block.setTcpRxbuf_tcp_isOpen (v : Bytes) (b : Block) : (b.setTcpRxbuf v).tcp.isOpen = b.tcp.isOpen := rfl
@[simp] theorem Block.setTcpRxbuf_tcp_tt (v : Bytes) (b : Block) : (b.setTcpRxbuf v).tcp.tt = b.tcp.tt := rfl
@[simp] theorem Block.setTcpRxbuf_tcp_nextTid (v : Bytes) (b : Block) : (b.setTcpRxbuf v).tcp.nextTid = b.tcp.nextTid := rfl
@[simp] theorem Block.setTcpRxbuf_tcp_rxbuf (v : Bytes) (b : Block) : (b.setTcpRxbuf v).tcp.rxbuf = v := rfl
@[simp] theorem Block.setTcpRxbuf_tcp_rxfault (v : Bytes) (b : Block) : (b.setTcpRxbuf v).tcp.rxfault = b.tcp.rxfault := rfl
@[simp] theorem Block.setTcpRxbuf_crc (v : Bytes) (b : Block) : (b.setTcpRxbuf v).crc = b.crc := rfl
@[simp] theorem Block.setTcpRxbuf_rtu (v : Bytes) (b : Block) : (b.setTcpRxbuf v).rtu = b.rtu := rfl
@[simp] theorem Block.setTcpRxbuf_cfg (v : Bytes) (b : Block) : (b.setTcpRxbuf v).cfg = b.cfg := rfl
@[simp] theorem Block.setTcpRxbuf_out (v : Bytes) (b : Block) : (b.setTcpRxbuf v).out = b.out := rfl
@[simp] theorem Block.setTcpRxfault_tcp_isOpen (v : Bool) (b : Block) : (b.setTcpRxfault v).tcp.isOpen = b.tcp.isOpen := rfl
@[simp] theorem Block.setTcpRxfault_tcp_tt (v : Bool) (b : Block) : (b.setTcpRxfault v).tcp.tt = b.tcp.tt := rfl
@[simp] theorem Block.setTcpRxfault_tcp_nextTid (v : Bool) (b : Block) : (b.setTcpRxfault v).tcp.nextTid = b.tcp.nextTid := rfl
@[simp] theorem Block.setTcpRxfault_tcp_rxbuf (v : Bool) (b : Block) : (b.setTcpRxfault v).tcp.rxbuf = b.tcp.rxbuf := rfl
@[simp] theorem Block.setTcpRxfault_tcp_rxfault (v : Bool) (b : Block) : (b.setTcpRxfault v).tcp.rxfault = v := rfl
@[simp] theorem Block.setTcpRxfault_crc (v : Bool) (b : Block) : (b.setTcpRxfault v).crc = b.crc := rfl
@[simp] theorem Block.setTcpRxfault_rtu (v : Bool) (b : Block) : (b.setTcpRxfault v).rtu = b.rtu := rfl
@[simp] theorem Block.setTcpRxfault_cfg (v : Bool) (b : Block) : (b.setTcpRxfault v).cfg = b.cfg := rfl
@[simp] theorem Block.setTcpRxfault_out (v : Bool) (b : Block) : (b.setTcpRxfault v).out = b.out := rfl

/-! ### Completion -/

@[simp] theorem Block.complete_crc (p : Transport) (tag : U16) (st : ReplyState) (err : ErrCode) (fc : Byte) (pl : Bytes) (b : Block) : (b.complete p tag st err fc pl).crc = b.crc := rfl
@[simp] theorem Block.complete_rtu (p : Transport) (tag : U16) (st : ReplyState) (err : ErrCode) (fc : Byte) (pl : Bytes) (b : Block) : (b.complete p tag st err fc pl).rtu = b.rtu := rfl
@[simp] theorem Block.complete_tcp (p : Transport) (tag : U16) (st : ReplyState) (err : ErrCode) (fc : Byte) (pl : Bytes) (b : Block) : (b.complete p tag st err fc pl).tcp = b.tcp := rfl
@[simp] theorem Block.complete_cfg (p : Transport) (tag : U16) (st : ReplyState) (err : ErrCode) (fc : Byte) (pl : Bytes) (b : Block) : (b.complete p tag st err fc pl).cfg = b.cfg := rfl
@[simp] theorem Block.complete_out (p : Transport) (tag : U16) (st : ReplyState) (err : ErrCode) (fc : Byte) (pl : Bytes) (b : Block) : (b.complete p tag st err fc pl).out = b.out ++ [.done p tag st err fc pl] := rfl
@[simp] theorem Block.completeEmpty_crc (p : Transport) (tag : U16) (st : ReplyState) (err : ErrCode) (b : Block) : (b.completeEmpty p tag st err).crc = b.crc := rfl
@[simp] theorem Block.completeEmpty_rtu (p : Transport) (tag : U16) (st : ReplyState) (err : ErrCode) (b : Block) : (b.completeEmpty p tag st err).rtu = b.rtu := rfl
@[simp] theorem Block.completeEmpty_tcp (p : Transport) (tag : U16) (st : ReplyState) (err : ErrCode) (b : Block) : (b.completeEmpty p tag st err).tcp = b.tcp := rfl
@[simp] theorem Block.completeEmpty_cfg (p : Transport) (tag : U16) (st : ReplyState) (err : ErrCode) (b : Block) : (b.completeEmpty p tag st err).cfg = b.cfg := rfl
@[simp] theorem Block.completeEmpty_out (p : Transport) (tag : U16) (st : ReplyState) (err : ErrCode) (b : Block) : (b.completeEmpty p tag st err).out = b.out ++ [.done p tag st err 0x00 []] := rfl

/-! ### Machine -/

@[simp] theorem State.setBlock_build (b : Block) (s : State) : (s.setBlock b).build = s.build := rfl
@[simp] theorem State.setBlock_block (b : Block) (s : State) : (s.setBlock b).block = b := rfl
@[simp] theorem State.setBlock_input (b : Block) (s : State) : (s.setBlock b).input = s.input := rfl
@[simp] theorem State.setBlock_rsp (b : Block) (s : State) : (s.setBlock b).rsp = s.rsp := rfl
@[simp] theorem State.setInput_build (i : List Presented) (s : State) : (s.setInput i).build = s.build := rfl
@[simp] theorem State.setInput_block (i : List Presented) (s : State) : (s.setInput i).block = s.block := rfl
@[simp] theorem State.setInput_input (i : List Presented) (s : State) : (s.setInput i).input = i := rfl
@[simp] theorem State.setInput_rsp (i : List Presented) (s : State) : (s.setInput i).rsp = s.rsp := rfl
@[simp] theorem State.respond_build (r : Response) (s : State) : (s.respond r).build = s.build := rfl
@[simp] theorem State.respond_block (r : Response) (s : State) : (s.respond r).block = s.block := rfl
@[simp] theorem State.respond_input (r : Response) (s : State) : (s.respond r).input = s.input := rfl
@[simp] theorem State.respond_rsp (r : Response) (s : State) : (s.respond r).rsp = s.rsp ++ [r] := rfl
@[simp] theorem State.refuse_build (c : RefusalCode) (s : State) : (s.refuse c).build = s.build := rfl
@[simp] theorem State.refuse_block (c : RefusalCode) (s : State) : (s.refuse c).block = s.block := rfl
@[simp] theorem State.refuse_input (c : RefusalCode) (s : State) : (s.refuse c).input = s.input := rfl
@[simp] theorem State.refuse_rsp (c : RefusalCode) (s : State) : (s.refuse c).rsp = s.rsp ++ [.refused c] := rfl
@[simp] theorem State.accept_build (b : Block) (v : Returned) (s : State) : (s.accept b v).build = s.build := rfl
@[simp] theorem State.accept_block (b : Block) (v : Returned) (s : State) : (s.accept b v).block = b := rfl
@[simp] theorem State.accept_input (b : Block) (v : Returned) (s : State) : (s.accept b v).input = s.input := rfl
@[simp] theorem State.accept_rsp (b : Block) (v : Returned) (s : State) : (s.accept b v).rsp = s.rsp ++ [.ok v] := rfl
@[simp] theorem State.applyReset_build (later : List Presented) (s : State) : (s.applyReset later).build = s.build := rfl
@[simp] theorem State.applyReset_block (later : List Presented) (s : State) : (s.applyReset later).block = Block.atReset s.build := rfl
@[simp] theorem State.applyReset_input (later : List Presented) (s : State) : (s.applyReset later).input = later := rfl
@[simp] theorem State.applyReset_rsp (later : List Presented) (s : State) : (s.applyReset later).rsp = [] := rfl

/-! ### Timers -/

@[simp] theorem Timer.arm_armed (d : U32) : (Timer.arm d).armed = true := rfl
@[simp] theorem Timer.arm_cnt (d : U32) : (Timer.arm d).cnt = d := rfl
@[simp] theorem Timer.stop_armed (t : Timer) : t.stop.armed = false := rfl
@[simp] theorem Timer.stop_cnt (t : Timer) : t.stop.cnt = t.cnt := rfl

end Sys2Proof.Machine
end

