-- ==== Sys2Proof/Laws/Local.lean ====
section
/-! SUPPORT. Which part of the block a function of the transports reads and writes. `RtuLocal f`: `f` reads only the RTU
elements and the configuration, writes only the RTU elements, and appends events of the RTU side to `OUT`; `TcpLocal f`
the same for TCP (10_state.md R20, 60_exceptions.md R343). Each carries the frame of `f` and its independence from the rest
at once. -/

namespace Sys2Proof.Machine

/-- `f` acts on the RTU side alone. -/
def RtuLocal (f : Block → Block) : Prop :=
  ∃ g : Cfg → Rtu → Rtu × List Event, (∀ c r, ∀ e ∈ (g c r).2, e.isRtu = true) ∧
    ∀ b, f b = { b with rtu := (g b.cfg b.rtu).1, out := b.out ++ (g b.cfg b.rtu).2 }

/-- `f` acts on the TCP side alone; of the configuration it reads only `CFG_TCP_TIMEOUT` (TCP.SUBMIT samples
`CFG_TCP_RETRIES` before it enters the request). -/
def TcpLocal (f : Block → Block) : Prop :=
  ∃ g : U32 → Tcp → Tcp × List Event, (∀ c t, ∀ e ∈ (g c t).2, e.isRtu = false) ∧
    ∀ b, f b = { b with tcp := (g b.cfg.tcpTimeout b.tcp).1, out := b.out ++ (g b.cfg.tcpTimeout b.tcp).2 }

/-! ### What a local function leaves alone -/

section
variable {f : Block → Block}

theorem RtuLocal.crc (h : RtuLocal f) (b : Block) : (f b).crc = b.crc := by obtain ⟨g, _, h⟩ := h; rw [h]
theorem RtuLocal.tcp (h : RtuLocal f) (b : Block) : (f b).tcp = b.tcp := by obtain ⟨g, _, h⟩ := h; rw [h]
theorem RtuLocal.cfg (h : RtuLocal f) (b : Block) : (f b).cfg = b.cfg := by obtain ⟨g, _, h⟩ := h; rw [h]
theorem TcpLocal.crc (h : TcpLocal f) (b : Block) : (f b).crc = b.crc := by obtain ⟨g, _, h⟩ := h; rw [h]
theorem TcpLocal.rtu (h : TcpLocal f) (b : Block) : (f b).rtu = b.rtu := by obtain ⟨g, _, h⟩ := h; rw [h]
theorem TcpLocal.cfg (h : TcpLocal f) (b : Block) : (f b).cfg = b.cfg := by obtain ⟨g, _, h⟩ := h; rw [h]

/-- What a local function adds to `OUT`. -/
theorem RtuLocal.out (h : RtuLocal f) (b : Block) : ∃ new, (f b).out = b.out ++ new ∧ ∀ e ∈ new, e.isRtu = true := by
  obtain ⟨g, hg, h⟩ := h
  exact ⟨_, by rw [h], hg b.cfg b.rtu⟩

theorem TcpLocal.out (h : TcpLocal f) (b : Block) : ∃ new, (f b).out = b.out ++ new ∧ ∀ e ∈ new, e.isRtu = false := by
  obtain ⟨g, hg, h⟩ := h
  exact ⟨_, by rw [h], hg b.cfg.tcpTimeout b.tcp⟩

/-- Two blocks that agree on what a local function reads are treated alike. -/
theorem RtuLocal.congr (h : RtuLocal f) {b b' : Block} (hc : b.cfg = b'.cfg) (hr : b.rtu = b'.rtu) :
    (f b).rtu = (f b').rtu ∧ ∃ new, (f b).out = b.out ++ new ∧ (f b').out = b'.out ++ new := by
  obtain ⟨g, _, h⟩ := h
  rw [h, h, hc, hr]
  exact ⟨rfl, _, rfl, rfl⟩

theorem TcpLocal.congr (h : TcpLocal f) {b b' : Block} (hc : b.cfg.tcpTimeout = b'.cfg.tcpTimeout) (ht : b.tcp = b'.tcp) :
    (f b).tcp = (f b').tcp ∧ ∃ new, (f b).out = b.out ++ new ∧ (f b').out = b'.out ++ new := by
  obtain ⟨g, _, h⟩ := h
  rw [h, h, hc, ht]
  exact ⟨rfl, _, rfl, rfl⟩
end

theorem rtuTrace_append (a b : List Event) : rtuTrace (a ++ b) = rtuTrace a ++ rtuTrace b := by simp [rtuTrace]

theorem tcpTrace_append (a b : List Event) : tcpTrace (a ++ b) = tcpTrace a ++ tcpTrace b := by simp [tcpTrace]

/-- Events of the RTU side are all of the RTU trace and none of the TCP trace. -/
theorem rtuTrace_of_isRtu {new : List Event} (h : ∀ e ∈ new, e.isRtu = true) : rtuTrace new = new ∧ tcpTrace new = [] :=
  ⟨List.filter_eq_self.mpr h, List.filter_eq_nil_iff.mpr fun e he => by simp [h e he]⟩

theorem tcpTrace_of_not_isRtu {new : List Event} (h : ∀ e ∈ new, e.isRtu = false) :
    tcpTrace new = new ∧ rtuTrace new = [] :=
  ⟨List.filter_eq_self.mpr fun e he => by simp [h e he], List.filter_eq_nil_iff.mpr fun e he => by simp [h e he]⟩

/-- A function of one side leaves the other side's trace alone. -/
theorem RtuLocal.tcpTrace {f : Block → Block} (h : RtuLocal f) (b : Block) : tcpTrace (f b).out = tcpTrace b.out := by
  obtain ⟨new, ho, hn⟩ := h.out b
  rw [ho, tcpTrace_append, (rtuTrace_of_isRtu hn).2, List.append_nil]

theorem TcpLocal.rtuTrace {f : Block → Block} (h : TcpLocal f) (b : Block) : rtuTrace (f b).out = rtuTrace b.out := by
  obtain ⟨new, ho, hn⟩ := h.out b
  rw [ho, rtuTrace_append, (tcpTrace_of_not_isRtu hn).2, List.append_nil]

/-! ### Local functions compose -/

theorem RtuLocal.id : RtuLocal fun b => b := ⟨fun _ r => (r, []), by simp, fun b => by simp⟩

theorem TcpLocal.id : TcpLocal fun b => b := ⟨fun _ t => (t, []), by simp, fun b => by simp⟩

theorem RtuLocal.comp {f f' : Block → Block} (h : RtuLocal f) (h' : RtuLocal f') : RtuLocal fun b => f' (f b) := by
  obtain ⟨g, hg, h⟩ := h
  obtain ⟨g', hg', h'⟩ := h'
  refine ⟨fun c r => ((g' c (g c r).1).1, (g c r).2 ++ (g' c (g c r).1).2), ?_, fun b => ?_⟩
  · intro c r e he
    rcases List.mem_append.mp he with he | he
    · exact hg _ _ _ he
    · exact hg' _ _ _ he
  · show f' (f b) = _
    rw [h', h]; simp

theorem TcpLocal.comp {f f' : Block → Block} (h : TcpLocal f) (h' : TcpLocal f') : TcpLocal fun b => f' (f b) := by
  obtain ⟨g, hg, h⟩ := h
  obtain ⟨g', hg', h'⟩ := h'
  refine ⟨fun c t => ((g' c (g c t).1).1, (g c t).2 ++ (g' c (g c t).1).2), ?_, fun b => ?_⟩
  · intro c t e he
    rcases List.mem_append.mp he with he | he
    · exact hg _ _ _ he
    · exact hg' _ _ _ he
  · show f' (f b) = _
    rw [h', h]; simp

/-- A choice made by looking at the RTU elements and the configuration. -/
theorem RtuLocal.choose {f : Cfg → Rtu → Block → Block} (h : ∀ c r, RtuLocal (f c r)) :
    RtuLocal fun b => f b.cfg b.rtu b := by
  choose g hg h using h
  exact ⟨fun c r => g c r c r, fun c r => hg c r c r, fun b => h b.cfg b.rtu b⟩

theorem TcpLocal.choose {f : U32 → Tcp → Block → Block} (h : ∀ c t, TcpLocal (f c t)) :
    TcpLocal fun b => f b.cfg.tcpTimeout b.tcp b := by
  choose g hg h using h
  exact ⟨fun c t => g c t c t, fun c t => hg c t c t, fun b => h b.cfg.tcpTimeout b.tcp b⟩

/-- Writing the RTU elements from themselves and the configuration. -/
theorem RtuLocal.set (k : Cfg → Rtu → Rtu) : RtuLocal fun b => b.setRtu (k b.cfg b.rtu) :=
  ⟨fun c r => (k c r, []), by simp, fun b => by simp [Block.setRtu]⟩

theorem TcpLocal.set (k : U32 → Tcp → Tcp) : TcpLocal fun b => b.setTcp (k b.cfg.tcpTimeout b.tcp) :=
  ⟨fun c t => (k c t, []), by simp, fun b => by simp [Block.setTcp]⟩

/-- Emitting events of the right side. -/
theorem RtuLocal.emit {e : Event} (he : e.isRtu = true) : RtuLocal fun b => b.emit e :=
  ⟨fun _ r => (r, [e]), fun _ _ _ hx => by rwa [List.mem_singleton.mp hx], fun b => rfl⟩

theorem TcpLocal.emit {e : Event} (he : e.isRtu = false) : TcpLocal fun b => b.emit e :=
  ⟨fun _ t => (t, [e]), fun _ _ _ hx => by rwa [List.mem_singleton.mp hx], fun b => rfl⟩

theorem RtuLocal.ite {f f' : Block → Block} (p : Cfg → Rtu → Prop) [∀ c r, Decidable (p c r)] (h : RtuLocal f)
    (h' : RtuLocal f') : RtuLocal fun b => if p b.cfg b.rtu then f b else f' b := by
  refine RtuLocal.choose (f := fun c r b => if p c r then f b else f' b) fun c r => ?_
  by_cases hp : p c r
  · simpa only [if_pos hp] using h
  · simpa only [if_neg hp] using h'

theorem TcpLocal.ite {f f' : Block → Block} (p : U32 → Tcp → Prop) [∀ c t, Decidable (p c t)] (h : TcpLocal f)
    (h' : TcpLocal f') : TcpLocal fun b => if p b.cfg.tcpTimeout b.tcp then f b else f' b := by
  refine TcpLocal.choose (f := fun c t b => if p c t then f b else f' b) fun c t => ?_
  by_cases hp : p c t
  · simpa only [if_pos hp] using h
  · simpa only [if_neg hp] using h'

end Sys2Proof.Machine
end

