-- ==== Sys2Proof/Laws/Rtu.lean ====
section
/-! SUPPORT. The RTU transport (44_rtu_transport.md): every function of it is `RtuLocal`, and for each what it can do, said
once. -/

namespace Sys2Proof.Machine

/-! ### Aborts -/

theorem abortAll_out (port : Transport) (tags : List U16) (b : Block) :
    (abortAll port tags b).out = b.out ++ tags.map fun t => .done port t .error .replyAbortedError 0x00 [] := by
  induction tags generalizing b with
  | nil => simp [abortAll]
  | cons t ts ih => rw [abortAll, List.foldl_cons, ← abortAll, ih]; simp [Block.completeEmpty, Block.complete]

/-- The aborts only append to `OUT`. -/
theorem abortAll_eq (port : Transport) (tags : List U16) (b : Block) :
    abortAll port tags b =
      { b with out := b.out ++ tags.map fun t => .done port t .error .replyAbortedError 0x00 [] } := by
  induction tags generalizing b with
  | nil => simp [abortAll]
  | cons t ts ih =>
    rw [abortAll, List.foldl_cons, ← abortAll, ih]; simp [Block.completeEmpty, Block.complete, Block.emit]

/-! ### Scheduling -/

/-- `RtuKick(d)` in full (R216). -/
theorem rtuKick_eq (d : U32) (b : Block) :
    rtuKick d b = b.setRtu { b.rtu with
      dly := if b.rtu.st = .idle ∧ b.rtu.dly.armed = false ∧ b.rtu.q ≠ [] then Timer.arm d else b.rtu.dly } := by
  unfold rtuKick
  split <;> rfl

@[simp] theorem rtuKick_out (d : U32) (b : Block) : (rtuKick d b).out = b.out := by rw [rtuKick_eq]; rfl
@[simp] theorem rtuKick_crc (d : U32) (b : Block) : (rtuKick d b).crc = b.crc := by rw [rtuKick_eq]; rfl
@[simp] theorem rtuKick_tcp (d : U32) (b : Block) : (rtuKick d b).tcp = b.tcp := by rw [rtuKick_eq]; rfl
@[simp] theorem rtuKick_cfg (d : U32) (b : Block) : (rtuKick d b).cfg = b.cfg := by rw [rtuKick_eq]; rfl
@[simp] theorem rtuKick_isOpen (d : U32) (b : Block) : (rtuKick d b).rtu.isOpen = b.rtu.isOpen := by rw [rtuKick_eq]; rfl
@[simp] theorem rtuKick_st (d : U32) (b : Block) : (rtuKick d b).rtu.st = b.rtu.st := by rw [rtuKick_eq]; rfl
@[simp] theorem rtuKick_rspt (d : U32) (b : Block) : (rtuKick d b).rtu.rspt = b.rtu.rspt := by rw [rtuKick_eq]; rfl
@[simp] theorem rtuKick_q (d : U32) (b : Block) : (rtuKick d b).rtu.q = b.rtu.q := by rw [rtuKick_eq]; rfl
@[simp] theorem rtuKick_rxbuf (d : U32) (b : Block) : (rtuKick d b).rtu.rxbuf = b.rtu.rxbuf := by rw [rtuKick_eq]; rfl
@[simp] theorem rtuKick_rxovf (d : U32) (b : Block) : (rtuKick d b).rtu.rxovf = b.rtu.rxovf := by rw [rtuKick_eq]; rfl

theorem rtuKick_dly (d : U32) (b : Block) :
    (rtuKick d b).rtu.dly =
      if b.rtu.st = .idle ∧ b.rtu.dly.armed = false ∧ b.rtu.q ≠ [] then Timer.arm d else b.rtu.dly := by
  rw [rtuKick_eq]; rfl

/-! ### Closed forms: what each function leaves, field by field -/

/-- RTU.CLOSE of an open transport (R214). -/
theorem rtuClose_eq (b : Block) :
    rtuClose b = { b with
      rtu := { isOpen := false, st := .idle, dly := b.rtu.dly.stop, rspt := b.rtu.rspt.stop, q := [], rxbuf := [],
               rxovf := false }
      out := b.out ++ b.rtu.q.map fun e => .done .rtu e.tag .error .replyAbortedError 0x00 [] } := by
  simp only [rtuClose, abortAll_eq, List.map_map]
  rfl

/-- An accepted RTU.SUBMIT (R215). -/
theorem rtuEnqueue_eq (e : Elem) (b : Block) :
    rtuEnqueue e b = { b with
      rtu := { b.rtu with
        q := b.rtu.q ++ [e]
        dly := if b.rtu.st = .idle ∧ b.rtu.dly.armed = false then Timer.arm (ifd b.cfg) else b.rtu.dly } } := by
  simp [rtuEnqueue, rtuKick_eq, qPushBack, Block.setRtuQ, Block.setRtu]

/-- `RtuSend` with a head element (R218). -/
theorem rtuSend_cons {b : Block} {e : Elem} {rest : List Elem} (h : b.rtu.q = e :: rest) :
    rtuSend b = { b with
      rtu := { b.rtu with
        rxbuf := [], st := .waitingForReply,
        rspt := if e.unit = 0 then b.rtu.rspt else Timer.arm b.cfg.rtuTimeout }
      out := b.out ++ [.serTx e.adu] } := by
  obtain ⟨c, r, t, g, o⟩ := b
  obtain ⟨op, st, dl, rs, q, bf, ov⟩ := r
  obtain rfl : q = e :: rest := h
  by_cases hu : e.unit = 0
  · simp only [rtuSend, isBroadcast, hu, decide_true, if_true]; rfl
  · simp only [rtuSend, isBroadcast, hu, decide_false, Bool.false_eq_true, if_false]; rfl

theorem rtuSend_nil {b : Block} (h : b.rtu.q = []) : rtuSend b = b := by simp [rtuSend, h]

/-- The completion of the head `e` with nothing left of it but its event, the state Idle and the next element scheduled. -/
theorem rtuBroadcastDone_eq {b : Block} {e : Elem} {rest : List Elem} (h : b.rtu.q = e :: rest) :
    rtuBroadcastDone e b = rtuKick b.cfg.turnaround { b with
      rtu := { b.rtu with q := rest, st := .idle }
      out := b.out ++ [.done .rtu e.tag .finished .noError 0x00 []] } := by
  simp [rtuBroadcastDone, h, qPopFront, Block.completeEmpty, Block.complete, Block.emit, Block.setRtuQ, Block.setRtuState,
    Block.setRtu]

/-- What RTU.WRDONE can do (R219, R233). -/
theorem rtuWrDone_cases (b : Block) :
    rtuWrDone b = b ∨
    ∃ e rest, b.rtu.isOpen = true ∧ b.rtu.st = .waitingForReply ∧ b.rtu.q = e :: rest ∧ e.unit = 0 ∧
      rtuWrDone b = rtuBroadcastDone e b := by
  unfold rtuWrDone
  split
  · exact .inl rfl
  · next e rest hq =>
    split
    · next h => exact .inr ⟨e, rest, h.1, h.2.1, hq, by simpa [isBroadcast] using h.2.2, rfl⟩
    · exact .inl rfl

/-- The append of one received byte (R222). -/
theorem rtuAppend_eq (x : Byte) (b : Block) :
    rtuAppend x b = b.setRtu
      (if b.rtu.rxbuf.length < 256 then { b.rtu with rxbuf := b.rtu.rxbuf ++ [x] } else { b.rtu with rxovf := true }) := by
  unfold rtuAppend
  by_cases h : b.rtu.rxbuf.length < 256
  · simp [Config.rtuRxbufCap, h, bufAppend, Block.setRtuRxbuf]
  · simp [Config.rtuRxbufCap, h, Block.setRtuRxovf]

/-- The completion of the head by a matching reply (R228). -/
theorem rtuReplyDone_eq {b : Block} {e : Elem} {rest : List Elem} (r : RtuParsed) (h : b.rtu.q = e :: rest) :
    rtuReplyDone e r b = rtuKick (ifd b.cfg) { b with
      rtu := { b.rtu with q := rest, st := .idle, rspt := b.rtu.rspt.stop }
      out := b.out ++ [.done .rtu e.tag .finished .noError r.fc r.payload] } := by
  simp [rtuReplyDone, h, qPopFront, Block.complete, Block.emit, Block.setRtuQ, Block.setRtuState, Block.setRtuRspt,
    Block.setRtu]

/-- What `RtuAccept` can do with a frame of `n` bytes (R227, R229, R228). -/
theorem rtuAccept_cases (e : Elem) (n : Nat) (b : Block) :
    let r := rtuParse (slice b.rtu.rxbuf 0 n)
    let b1 := b.setRtuRxbuf (b.rtu.rxbuf.drop n)
    (r.crcValid = false ∧ rtuAccept e n b = b1.emit (.ierr .rtu e.tag .responseCrcError)) ∨
    (r.crcValid = true ∧ ¬ (r.unit = e.unit ∧ baseFc r.fc = baseFc e.fc) ∧
      rtuAccept e n b = b1.emit (.ierr .rtu e.tag .responseRequestMismatch)) ∨
    (r.crcValid = true ∧ r.unit = e.unit ∧ baseFc r.fc = baseFc e.fc ∧ rtuAccept e n b = rtuReplyDone e r b1) := by
  intro r b1
  simp only [rtuAccept]
  have hm' : rtuMatches e r = decide (r.unit = e.unit ∧ baseFc r.fc = baseFc e.fc) := by
    simp [rtuMatches]
  rcases Bool.eq_false_or_eq_true r.crcValid with hc | hc
  · refine .inr ?_
    rw [if_neg (by rw [hc]; decide), hm']
    by_cases hm : r.unit = e.unit ∧ baseFc r.fc = baseFc e.fc
    · exact .inr ⟨hc, hm.1, hm.2, if_neg (by simp [hm])⟩
    · exact .inl ⟨hc, hm, if_pos (by simpa using hm)⟩
  · exact .inl ⟨hc, if_pos hc⟩

/-- What RTU.RXB can do (R221 to R229): drop the byte, store it, or store it and accept the frame it completes. -/
theorem rtuRxb_cases (z : Sizer) (x : Byte) (b : Block) :
    (b.rtu.isOpen = false ∧ rtuRxb z x b = b) ∨
    (b.rtu.isOpen = true ∧ rtuRxb z x b = rtuAppend x b) ∨
    ∃ e rest n, b.rtu.isOpen = true ∧ b.rtu.st = .waitingForReply ∧ b.rtu.q = e :: rest ∧ e.unit ≠ 0 ∧
      rtuFrameSize z e (rtuAppend x b).rtu.rxbuf = some n ∧ rtuRxb z x b = rtuAccept e n (rtuAppend x b) := by
  have hq : (rtuAppend x b).rtu.q = b.rtu.q := by rw [rtuAppend_eq]; split <;> rfl
  have hst : (rtuAppend x b).rtu.st = b.rtu.st := by rw [rtuAppend_eq]; split <;> rfl
  unfold rtuRxb
  cases ho : b.rtu.isOpen with
  | false => exact .inl ⟨rfl, rfl⟩
  | true =>
    refine .inr ?_
    simp only [Bool.true_eq_false, if_false, hq, hst]
    split
    · exact .inl ⟨trivial, rfl⟩
    · next e rest he =>
      split
      · next hw =>
        simp only [rtuEvaluate]
        split
        · exact .inl ⟨trivial, rfl⟩
        · next n hn => exact .inr ⟨e, rest, n, trivial, hw.1, he, by simpa [isBroadcast] using hw.2, hn, rfl⟩
      · exact .inl ⟨trivial, rfl⟩

/-- A resend (R230). -/
theorem rtuResend_eq {b : Block} {e : Elem} {rest : List Elem} (h : b.rtu.q = e :: rest) :
    rtuResend e b = { b with
      rtu := { b.rtu with
        q := { e with retries := e.retries - 1 } :: rest, rxbuf := [], rspt := Timer.arm b.cfg.rtuTimeout }
      out := b.out ++ [.serTx e.adu] } := by
  simp [rtuResend, h, qSetHeadRetries, Block.emit, Block.setRtuQ, Block.setRtuRxbuf, Block.setRtuRspt, Block.setRtu]

/-- The failure of the head by timeout (R231). -/
theorem rtuFail_eq {b : Block} {e : Elem} {rest : List Elem} (h : b.rtu.q = e :: rest) :
    rtuFail e b = rtuKick (ifd b.cfg) { b with
      rtu := { b.rtu with q := rest, st := .idle }
      out := b.out ++ [.done .rtu e.tag .error .timeoutError 0x00 []] } := by
  simp [rtuFail, h, qPopFront, Block.completeEmpty, Block.complete, Block.emit, Block.setRtuQ, Block.setRtuState,
    Block.setRtu]

/-- What `RtuTimeout` can do (R230, R231). -/
theorem rtuTimeout_cases (b : Block) :
    ((b.rtu.q = [] ∨ b.rtu.st ≠ .waitingForReply) ∧ rtuTimeout b = b) ∨
    ∃ e rest, b.rtu.st = .waitingForReply ∧ b.rtu.q = e :: rest ∧
      ((0 < e.retries ∧ rtuTimeout b = rtuResend e b) ∨ (e.retries = 0 ∧ rtuTimeout b = rtuFail e b)) := by
  unfold rtuTimeout
  split
  · next h => exact .inl ⟨.inl h, rfl⟩
  · next e rest hq =>
    by_cases hst : b.rtu.st = .waitingForReply
    · refine .inr ⟨e, rest, hst, hq, ?_⟩
      rw [if_neg (not_not_intro hst)]
      by_cases hr : 0 < e.retries
      · exact .inl ⟨hr, if_pos hr⟩
      · exact .inr ⟨by omega, if_neg hr⟩
    · exact .inl ⟨.inr hst, if_pos hst⟩

/-! ### Every function of the transport is local -/

theorem rtuLocal_kick (d : U32) : RtuLocal (rtuKick d) :=
  ⟨fun _ r => ({ r with dly := if r.st = .idle ∧ r.dly.armed = false ∧ r.q ≠ [] then Timer.arm d else r.dly }, []),
    by simp, fun b => by rw [rtuKick_eq]; simp [Block.setRtu]⟩

theorem rtuLocal_kickIfd : RtuLocal fun b => rtuKick (ifd b.cfg) b :=
  RtuLocal.choose (f := fun c _ => rtuKick (ifd c)) fun _ _ => rtuLocal_kick _

theorem rtuLocal_open : RtuLocal (Block.setRtuOpen true) := RtuLocal.set fun _ r => { r with isOpen := true }

theorem rtuLocal_close : RtuLocal rtuClose :=
  ⟨fun _ r => ({ isOpen := false, st := .idle, dly := r.dly.stop, rspt := r.rspt.stop, q := [], rxbuf := [],
                 rxovf := false }, r.q.map fun e => .done .rtu e.tag .error .replyAbortedError 0x00 []),
    fun _ r e he => by obtain ⟨a, _, rfl⟩ := List.mem_map.mp he; rfl, rtuClose_eq⟩

theorem rtuLocal_enqueue (e : Elem) : RtuLocal (rtuEnqueue e) :=
  (RtuLocal.set fun _ r => { r with q := r.q ++ [e] }).comp rtuLocal_kickIfd

theorem rtuLocal_send : RtuLocal rtuSend := by
  refine RtuLocal.choose (f := fun c r b => match r.q with
    | [] => b
    | e :: _ =>
      if isBroadcast e then ((b.setRtuRxbuf []).emit (.serTx e.adu)).setRtuState .waitingForReply
      else (((b.setRtuRxbuf []).emit (.serTx e.adu)).setRtuState .waitingForReply).setRtuRspt (Timer.arm c.rtuTimeout))
    fun c r => ?_
  cases r.q with
  | nil => exact .id
  | cons e rest =>
    have h := ((RtuLocal.set fun _ r => { r with rxbuf := [] }).comp (RtuLocal.emit (e := .serTx e.adu) rfl)).comp
      (RtuLocal.set fun _ r => { r with st := .waitingForReply })
    cases hb : isBroadcast e with
    | true => simp only [hb, if_true]; exact h
    | false =>
      simp only [hb, Bool.false_eq_true, if_false]
      exact h.comp (RtuLocal.set fun _ r => { r with rspt := Timer.arm c.rtuTimeout })

theorem rtuLocal_append (x : Byte) : RtuLocal (rtuAppend x) :=
  ⟨fun _ r => (if r.rxbuf.length < 256 then { r with rxbuf := r.rxbuf ++ [x] } else { r with rxovf := true }, []),
    by simp, fun b => by rw [rtuAppend_eq]; simp [Block.setRtu]⟩

theorem rtuLocal_broadcastDone (e : Elem) : RtuLocal (rtuBroadcastDone e) :=
  (((RtuLocal.set fun _ r => { r with q := r.q.tail }).comp
    (RtuLocal.emit (e := .done .rtu e.tag .finished .noError 0x00 []) rfl)).comp
    (RtuLocal.set fun _ r => { r with st := .idle })).comp
    (RtuLocal.choose (f := fun c _ => rtuKick c.turnaround) fun _ _ => rtuLocal_kick _)

theorem rtuLocal_wrDone : RtuLocal rtuWrDone := by
  refine RtuLocal.choose (f := fun c r b => match r.q with
    | [] => b
    | e :: _ => if r.isOpen = true ∧ r.st = .waitingForReply ∧ isBroadcast e = true then rtuBroadcastDone e b else b)
    fun c r => ?_
  cases r.q with
  | nil => exact .id
  | cons e rest =>
    by_cases h : r.isOpen = true ∧ r.st = .waitingForReply ∧ isBroadcast e = true
    · simpa only [if_pos h] using rtuLocal_broadcastDone e
    · simpa only [if_neg h] using RtuLocal.id

theorem rtuLocal_replyDone (e : Elem) (r : RtuParsed) : RtuLocal (rtuReplyDone e r) :=
  (((((RtuLocal.set fun _ r => { r with st := .processReply }).comp
    (RtuLocal.set fun _ r => { r with rspt := r.rspt.stop })).comp
    (RtuLocal.set fun _ r => { r with q := r.q.tail })).comp
    (RtuLocal.emit (e := .done .rtu e.tag .finished .noError r.fc r.payload) rfl)).comp
    (RtuLocal.set fun _ r => { r with st := .idle })).comp rtuLocal_kickIfd

theorem rtuLocal_accept (e : Elem) (n : Nat) : RtuLocal (rtuAccept e n) := by
  refine RtuLocal.choose (f := fun _ r b =>
    if (rtuParse (slice r.rxbuf 0 n)).crcValid = false then
      (b.setRtuRxbuf (bufDropFront b.rtu.rxbuf n)).emit (.ierr .rtu e.tag .responseCrcError)
    else if rtuMatches e (rtuParse (slice r.rxbuf 0 n)) = false then
      (b.setRtuRxbuf (bufDropFront b.rtu.rxbuf n)).emit (.ierr .rtu e.tag .responseRequestMismatch)
    else rtuReplyDone e (rtuParse (slice r.rxbuf 0 n)) (b.setRtuRxbuf (bufDropFront b.rtu.rxbuf n))) fun _ r => ?_
  have hd : RtuLocal fun b => b.setRtuRxbuf (bufDropFront b.rtu.rxbuf n) :=
    RtuLocal.set fun _ r => { r with rxbuf := bufDropFront r.rxbuf n }
  split
  · exact hd.comp (RtuLocal.emit (e := .ierr .rtu e.tag .responseCrcError) rfl)
  · split
    · exact hd.comp (RtuLocal.emit (e := .ierr .rtu e.tag .responseRequestMismatch) rfl)
    · exact hd.comp (rtuLocal_replyDone e _)

theorem rtuLocal_evaluate (z : Sizer) (e : Elem) : RtuLocal (rtuEvaluate z e) := by
  refine RtuLocal.choose (f := fun _ r b => match rtuFrameSize z e r.rxbuf with
    | none => b
    | some n => rtuAccept e n b) fun _ r => ?_
  cases rtuFrameSize z e r.rxbuf with
  | none => exact .id
  | some n => exact rtuLocal_accept e n

theorem rtuLocal_rxb (z : Sizer) (x : Byte) : RtuLocal (rtuRxb z x) := by
  have hev : RtuLocal fun b => match b.rtu.q with
      | [] => b
      | e :: _ => if b.rtu.st = .waitingForReply ∧ isBroadcast e = false then rtuEvaluate z e b else b := by
    refine RtuLocal.choose (f := fun _ r b => match r.q with
      | [] => b
      | e :: _ => if r.st = .waitingForReply ∧ isBroadcast e = false then rtuEvaluate z e b else b) fun _ r => ?_
    cases r.q with
    | nil => exact .id
    | cons e rest =>
      by_cases h : r.st = .waitingForReply ∧ isBroadcast e = false
      · simpa only [if_pos h] using rtuLocal_evaluate z e
      · simpa only [if_neg h] using RtuLocal.id
  exact RtuLocal.ite (fun _ r => r.isOpen = false) .id ((rtuLocal_append x).comp hev)

theorem rtuLocal_resend (e : Elem) : RtuLocal (rtuResend e) :=
  (((RtuLocal.set fun _ r => { r with q := qSetHeadRetries (e.retries - 1) r.q }).comp
    (RtuLocal.set fun _ r => { r with rxbuf := [] })).comp
    (RtuLocal.emit (e := .serTx e.adu) rfl)).comp
    (RtuLocal.set fun c r => { r with rspt := Timer.arm c.rtuTimeout })

theorem rtuLocal_fail (e : Elem) : RtuLocal (rtuFail e) :=
  (((RtuLocal.set fun _ r => { r with q := r.q.tail }).comp
    (RtuLocal.emit (e := .done .rtu e.tag .error .timeoutError 0x00 []) rfl)).comp
    (RtuLocal.set fun _ r => { r with st := .idle })).comp rtuLocal_kickIfd

theorem rtuLocal_timeout : RtuLocal rtuTimeout := by
  refine RtuLocal.choose (f := fun _ r b => match r.q with
    | [] => b
    | e :: _ => if r.st ≠ .waitingForReply then b else if 0 < e.retries then rtuResend e b else rtuFail e b)
    fun _ r => ?_
  cases r.q with
  | nil => exact .id
  | cons e rest =>
    show RtuLocal fun b => if r.st ≠ .waitingForReply then b else if 0 < e.retries then rtuResend e b else rtuFail e b
    split
    · exact .id
    · split
      · exact rtuLocal_resend e
      · exact rtuLocal_fail e

end Sys2Proof.Machine
end

