-- ==== Sys2Proof/Laws/Table.lean ====
section
/-! SUPPORT. The transaction table (20_memory.md R63): read after write, what a removal leaves, and that every table
operation keeps the canonical form `ttSorted`. -/

namespace Sys2Proof.Machine

theorem ttSorted_nil : ttSorted [] := by simp [ttSorted, ttKeys]

theorem ttSorted_cons {k : U16} {e : Entry} {tt : TransTable} :
    ttSorted ((k, e) :: tt) ↔ (∀ p ∈ tt, k.toNat < p.1.toNat) ∧ ttSorted tt := by
  simp [ttSorted, ttKeys, List.pairwise_cons]

/-- Read after write. -/
@[simp] theorem ttGet_ttPut_self (k : U16) (e : Entry) (tt : TransTable) : ttGet k (ttPut k e tt) = some e := by
  induction tt with
  | nil => simp [ttPut, ttGet]
  | cons p rest ih =>
    obtain ⟨k', e'⟩ := p
    simp only [ttPut]
    split
    · simp [ttGet]
    · split
      · simp [ttGet]
      · rename_i h; simp [ttGet, Ne.symm h, ih]

/-- A write leaves every other key alone. -/
theorem ttGet_ttPut_of_ne {j k : U16} (h : j ≠ k) (e : Entry) (tt : TransTable) :
    ttGet j (ttPut k e tt) = ttGet j tt := by
  induction tt with
  | nil => simp [ttPut, ttGet, h.symm]
  | cons p rest ih =>
    obtain ⟨k', e'⟩ := p
    simp only [ttPut]
    split
    · simp [ttGet, h.symm]
    · split
      · rename_i h'; subst h'; simp [ttGet, h.symm]
      · simp [ttGet, ih]

theorem ttGet_ttPut (j k : U16) (e : Entry) (tt : TransTable) :
    ttGet j (ttPut k e tt) = if j = k then some e else ttGet j tt := by
  split
  · next h => subst h; simp
  · next h => exact ttGet_ttPut_of_ne h e tt

/-- What is in the table after a write. -/
theorem mem_ttPut {k : U16} {e : Entry} {tt : TransTable} {p : U16 × Entry} (h : p ∈ ttPut k e tt) :
    p = (k, e) ∨ p ∈ tt := by
  induction tt with
  | nil => simpa [ttPut] using h
  | cons q rest ih =>
    obtain ⟨k', e'⟩ := q
    simp only [ttPut] at h
    split at h
    · simpa using h
    · split at h
      · rcases List.mem_cons.mp h with h | h
        · exact .inl h
        · exact .inr (List.mem_cons_of_mem _ h)
      · rcases List.mem_cons.mp h with h | h
        · exact .inr (by simp [h])
        · exact (ih h).imp id (List.mem_cons_of_mem _)

theorem ttSorted_ttPut {k : U16} {e : Entry} {tt : TransTable} (h : ttSorted tt) : ttSorted (ttPut k e tt) := by
  induction tt with
  | nil => simp [ttPut, ttSorted, ttKeys]
  | cons q rest ih =>
    obtain ⟨k', e'⟩ := q
    obtain ⟨hlt, hs⟩ := ttSorted_cons.mp h
    simp only [ttPut]
    split
    · next hk =>
      refine ttSorted_cons.mpr ⟨?_, h⟩
      intro p hp
      rcases List.mem_cons.mp hp with rfl | hp
      · exact hk
      · exact Nat.lt_trans hk (hlt p hp)
    · split
      · next hk => subst hk; exact ttSorted_cons.mpr ⟨hlt, hs⟩
      · next hk hne =>
        refine ttSorted_cons.mpr ⟨?_, ih hs⟩
        intro p hp
        rcases mem_ttPut hp with rfl | hp
        · have : k.toNat ≠ k'.toNat := fun h => hne (BitVec.eq_of_toNat_eq h)
          show k'.toNat < k.toNat
          omega
        · exact hlt p hp

theorem ttGet_none_iff {k : U16} {tt : TransTable} : ttGet k tt = none ↔ ∀ p ∈ tt, p.1 ≠ k := by
  induction tt with
  | nil => simp [ttGet]
  | cons q rest ih =>
    obtain ⟨k', e'⟩ := q
    by_cases h : k' = k <;> simp [ttGet, h, ih]

theorem mem_of_ttGet {k : U16} {e : Entry} {tt : TransTable} (h : ttGet k tt = some e) : (k, e) ∈ tt := by
  induction tt with
  | nil => simp [ttGet] at h
  | cons q rest ih =>
    obtain ⟨k', e'⟩ := q
    simp only [ttGet] at h
    split at h
    · next hk => subst hk; simp_all
    · exact List.mem_cons_of_mem _ (ih h)

theorem ttGet_of_mem {k : U16} {e : Entry} {tt : TransTable} (hs : ttSorted tt) (h : (k, e) ∈ tt) :
    ttGet k tt = some e := by
  induction tt with
  | nil => simp at h
  | cons q rest ih =>
    obtain ⟨k', e'⟩ := q
    obtain ⟨hlt, hs'⟩ := ttSorted_cons.mp hs
    rcases List.mem_cons.mp h with h | h
    · cases h; simp [ttGet]
    · have hne : k' ≠ k := by
        intro hk; subst hk; exact absurd (hlt _ h) (by simp)
      simp [ttGet, hne, ih hs' h]

/-- A new key makes the table longer by one. -/
theorem length_ttPut_new {k : U16} {tt : TransTable} (e : Entry) (h : ttGet k tt = none) :
    (ttPut k e tt).length = tt.length + 1 := by
  induction tt with
  | nil => simp [ttPut]
  | cons q rest ih =>
    obtain ⟨k', e'⟩ := q
    simp only [ttGet] at h
    split at h
    · simp at h
    · next hne =>
      simp only [ttPut]
      split
      · simp
      · rw [if_neg (Ne.symm hne)]; simp [ih h]

/-- The table after a write to a new key holds the new entry and what it held. -/
theorem perm_ttPut_new {k : U16} {tt : TransTable} (e : Entry) (h : ttGet k tt = none) :
    (ttPut k e tt).Perm ((k, e) :: tt) := by
  induction tt with
  | nil => simp [ttPut]
  | cons q rest ih =>
    obtain ⟨k', e'⟩ := q
    simp only [ttGet] at h
    split at h
    · simp at h
    · next hne =>
      simp only [ttPut]
      split
      · exact .refl _
      · rw [if_neg (Ne.symm hne)]
        exact ((ih h).cons _).trans (.swap _ _ _)

/-- In a sorted table, writing to a key that is there replaces its entry in its place. -/
theorem ttPut_of_ttGet {k : U16} {e e' : Entry} {tt : TransTable} (hs : ttSorted tt) (h : ttGet k tt = some e') :
    ttPut k e tt = tt.map fun p => if p.1 = k then (k, e) else p := by
  induction tt with
  | nil => simp [ttGet] at h
  | cons q rest ih =>
    obtain ⟨k', e''⟩ := q
    obtain ⟨hlt, hs'⟩ := ttSorted_cons.mp hs
    simp only [ttGet] at h
    simp only [ttPut, List.map_cons]
    split at h
    · next hk =>
      subst hk
      have hrest : (rest.map fun p => if p.1 = k' then (k', e) else p) = rest := by
        refine (List.map_congr_left fun p hp => ?_).trans (List.map_id _)
        have := hlt p hp
        rw [if_neg (by rintro rfl; omega)]
        rfl
      simp [hrest]
    · next hne =>
      have hmem := mem_of_ttGet h
      have := hlt _ hmem
      rw [if_neg (by simp at this; omega), if_neg (Ne.symm hne), if_neg hne, ih hs' h]

theorem ttKeys_ttPut_of_ttGet {k : U16} {e e' : Entry} {tt : TransTable} (hs : ttSorted tt)
    (h : ttGet k tt = some e') : ttKeys (ttPut k e tt) = ttKeys tt := by
  rw [ttPut_of_ttGet hs h, ttKeys, List.map_map]
  refine List.map_congr_left fun p _ => ?_
  simp only [Function.comp]
  split
  · next h => exact h.symm
  · rfl

theorem mem_of_mem_ttRemove {k : U16} {tt : TransTable} {p : U16 × Entry} (h : p ∈ ttRemove k tt) : p ∈ tt := by
  induction tt with
  | nil => simp [ttRemove] at h
  | cons q rest ih =>
    obtain ⟨k', e'⟩ := q
    simp only [ttRemove] at h
    split at h
    · exact List.mem_cons_of_mem _ h
    · rcases List.mem_cons.mp h with h | h
      · simp [h]
      · exact List.mem_cons_of_mem _ (ih h)

theorem ttSorted_ttRemove {k : U16} {tt : TransTable} (h : ttSorted tt) : ttSorted (ttRemove k tt) := by
  induction tt with
  | nil => simpa [ttRemove] using h
  | cons q rest ih =>
    obtain ⟨k', e'⟩ := q
    obtain ⟨hlt, hs⟩ := ttSorted_cons.mp h
    simp only [ttRemove]
    split
    · exact hs
    · exact ttSorted_cons.mpr ⟨fun p hp => hlt p (mem_of_mem_ttRemove hp), ih hs⟩

/-- In a sorted table a removal is the table without that key. -/
theorem ttRemove_eq_filter {k : U16} {tt : TransTable} (hs : ttSorted tt) :
    ttRemove k tt = tt.filter fun p => decide (p.1 ≠ k) := by
  induction tt with
  | nil => rfl
  | cons q rest ih =>
    obtain ⟨k', e'⟩ := q
    obtain ⟨hlt, hs'⟩ := ttSorted_cons.mp hs
    simp only [ttRemove]
    split
    · next hk =>
      subst hk
      rw [List.filter_cons_of_neg (by simp)]
      refine (List.filter_eq_self.mpr fun p hp => ?_).symm
      have := hlt p hp
      simp only [ne_eq, decide_not, Bool.not_eq_true', decide_eq_false_iff_not]
      rintro rfl; omega
    · next hne => rw [List.filter_cons_of_pos (by simpa using hne), ih hs']

theorem ttGet_ttRemove {j k : U16} {tt : TransTable} (hs : ttSorted tt) :
    ttGet j (ttRemove k tt) = if j = k then none else ttGet j tt := by
  induction tt with
  | nil => simp [ttRemove, ttGet]
  | cons q rest ih =>
    obtain ⟨k', e'⟩ := q
    obtain ⟨hlt, hs'⟩ := ttSorted_cons.mp hs
    simp only [ttRemove]
    split
    · next hk =>
      subst hk
      split
      · next hj =>
        subst hj
        rw [ttGet_none_iff]
        rintro p hp rfl
        exact absurd (hlt p hp) (by simp)
      · next hj => simp [ttGet, Ne.symm hj]
    · next hne =>
      simp only [ttGet]
      split
      · next hj =>
        subst hj
        rw [if_neg hne]
      · exact ih hs'

theorem length_ttRemove {k : U16} {e : Entry} {tt : TransTable} (h : ttGet k tt = some e) :
    (ttRemove k tt).length + 1 = tt.length := by
  induction tt with
  | nil => simp [ttGet] at h
  | cons q rest ih =>
    obtain ⟨k', e'⟩ := q
    simp only [ttGet] at h
    simp only [ttRemove]
    split at h
    · next hk => simp [hk]
    · next hne => simp [hne, ih h]

/-- What a removal takes out is the entry the key had. -/
theorem perm_ttRemove {k : U16} {e : Entry} {tt : TransTable} (h : ttGet k tt = some e) :
    tt.Perm ((k, e) :: ttRemove k tt) := by
  induction tt with
  | nil => simp [ttGet] at h
  | cons q rest ih =>
    obtain ⟨k', e'⟩ := q
    simp only [ttGet] at h
    simp only [ttRemove]
    split at h
    · next hk => subst hk; cases h; simp
    · next hne => simp only [if_neg hne]; exact ((ih h).cons _).trans (.swap _ _ _)

/-! ### The search for a free id (R263) -/

/-- What the search answers is not in the table, and every id tried before it is. -/
theorem searchTid_spec {tt : TransTable} {fuel : Nat} {t0 t : U16} (h : searchTid tt fuel t0 = some t) :
    ∃ n < fuel, t = t0 + BitVec.ofNat 16 n ∧ ttGet t tt = none ∧
      ∀ m < n, ttGet (t0 + BitVec.ofNat 16 m) tt ≠ none := by
  induction fuel generalizing t0 with
  | zero => simp [searchTid] at h
  | succ f ih =>
    simp only [searchTid] at h
    split at h
    · next hhas =>
      obtain ⟨n, hn, ht, hg, hm⟩ := ih h
      have step : ∀ x : Nat, t0 + 1 + BitVec.ofNat 16 x = t0 + BitVec.ofNat 16 (x + 1) := by
        intro x; rw [BitVec.ofNat_add, BitVec.add_assoc, BitVec.add_comm (BitVec.ofNat 16 x)]; rfl
      refine ⟨n + 1, by omega, by rw [ht, step], hg, ?_⟩
      intro m hlt
      cases m with
      | zero => simpa [ttHas, Option.isSome_iff_ne_none] using hhas
      | succ m => rw [← step]; exact hm m (by omega)
    · next hhas =>
      cases h
      refine ⟨0, by omega, by simp, ?_, by omega⟩
      simpa [ttHas] using hhas

/-- The search fails only if every id it may try is in the table. -/
theorem searchTid_none {tt : TransTable} {fuel : Nat} {t0 : U16} (h : searchTid tt fuel t0 = none) :
    ∀ n < fuel, ttGet (t0 + BitVec.ofNat 16 n) tt ≠ none := by
  induction fuel generalizing t0 with
  | zero => omega
  | succ f ih =>
    simp only [searchTid] at h
    split at h
    · next hhas =>
      intro n hn
      cases n with
      | zero => simpa [ttHas, Option.isSome_iff_ne_none] using hhas
      | succ n =>
        have := ih h n (by omega)
        rwa [show t0 + 1 + BitVec.ofNat 16 n = t0 + BitVec.ofNat 16 (n + 1) by
          rw [BitVec.ofNat_add, BitVec.add_assoc, BitVec.add_comm (BitVec.ofNat 16 n)]; rfl] at this
    · simp at h

/-- The search ends where the table has fewer than 65536 entries: it has no key for every id. -/
theorem chooseTid_isSome {t : Tcp} (h : t.tt.length < 65536) : ∃ tid, chooseTid t = some tid := by
  cases hc : chooseTid t with
  | some tid => exact ⟨tid, rfl⟩
  | none =>
    exfalso
    have hall := searchTid_none hc
    have hsub : List.range 65536 ⊆ (ttKeys t.tt).map BitVec.toNat := by
      intro n hn
      rw [List.mem_range] at hn
      have hne := hall ((BitVec.ofNat 16 n - t.nextTid).toNat) (BitVec.isLt _)
      have heq : t.nextTid + BitVec.ofNat 16 (BitVec.ofNat 16 n - t.nextTid).toNat = BitVec.ofNat 16 n := by
        rw [BitVec.ofNat_toNat, BitVec.setWidth_eq, BitVec.add_comm, BitVec.sub_add_cancel]
      rw [heq] at hne
      obtain ⟨e, he⟩ := Option.ne_none_iff_exists'.mp hne
      have hmem := mem_of_ttGet he
      refine List.mem_map.mpr ⟨BitVec.ofNat 16 n, List.mem_map.mpr ⟨_, hmem, rfl⟩, ?_⟩
      simp [Nat.mod_eq_of_lt hn]
    have hlen := (List.nodup_range.subperm hsub).length_le
    simp [ttKeys] at hlen
    omega

end Sys2Proof.Machine
end

