-- ==== Sys2Proof/Laws/Tcp.lean ====
section
/-! SUPPORT. The TCP transport (45_tcp_transport.md): every function of it is `TcpLocal`, and for each what it can do, said
once. -/

namespace Sys2Proof.Machine

/-! ### Closed forms and case lemmas -/

/-- TCP.CLOSE of an open transport (R262). -/
theorem tcpClose_eq (b : Block) :
    tcpClose b = { b with
      tcp := { isOpen := false, tt := [], nextTid := b.tcp.nextTid, rxbuf := [], rxfault := false }
      out := b.out ++ b.tcp.tt.map fun p => .done .tcp p.2.elem.tag .error .replyAbortedError 0x00 [] } := by
  simp only [tcpClose, abortAll_eq, List.map_map]
  rfl

/-- An accepted TCP.SUBMIT (R263). -/
theorem tcpEnter_eq (tid : U16) (e : Entry) (b : Block) :
    tcpEnter tid e b = { b with
      tcp := { b.tcp with nextTid := tid + 1, tt := ttPut tid e b.tcp.tt }, out := b.out ++ [.tcpTx e.elem.adu] } := rfl

/-- What TCP.WRDONE can do (R265). -/
theorem tcpWrDone_cases (tid : U16) (b : Block) :
    ((b.tcp.isOpen = false ∨ ttGet tid b.tcp.tt = none ∨ ∃ e, ttGet tid b.tcp.tt = some e ∧ e.tmr.armed = true) ∧
      tcpWrDone tid b = b) ∨
    ∃ e, b.tcp.isOpen = true ∧ ttGet tid b.tcp.tt = some e ∧ e.tmr.armed = false ∧
      tcpWrDone tid b = b.setTcpTt (ttPut tid { e with tmr := Timer.arm b.cfg.tcpTimeout } b.tcp.tt) := by
  unfold tcpWrDone
  split
  · next h => exact .inl ⟨.inr (.inl h), rfl⟩
  · next e he =>
    by_cases hc : b.tcp.isOpen = true ∧ e.tmr.armed = false
    · exact .inr ⟨e, hc.1, he, hc.2, if_pos hc⟩
    · refine .inl ⟨?_, if_neg hc⟩
      by_cases ho : b.tcp.isOpen = true
      · exact .inr (.inr ⟨e, he, by simpa [ho] using hc⟩)
      · exact .inl (by simpa using ho)

/-- What a whole ADU can do (R270 to R272). -/
theorem tcpCorrelate_cases (tid : U16) (fc : Byte) (p : Bytes) (b : Block) :
    (ttGet tid b.tcp.tt = none ∧ tcpCorrelate tid fc p b = b.emit (.log .unmatchedTid tid)) ∨
    ∃ e, ttGet tid b.tcp.tt = some e ∧
      ((rspWellFormed fc p.length = true ∧ tcpCorrelate tid fc p b =
          (b.setTcpTt (ttRemove tid b.tcp.tt)).emit (.done .tcp e.elem.tag .finished .noError fc p)) ∨
       (rspWellFormed fc p.length = false ∧ tcpCorrelate tid fc p b =
          (b.setTcpTt (ttRemove tid b.tcp.tt)).emit (.done .tcp e.elem.tag .error .invalidResponseError fc p))) := by
  unfold tcpCorrelate
  split
  · next h => exact .inl ⟨h, rfl⟩
  · next e he =>
    refine .inr ⟨e, he, ?_⟩
    cases hw : rspWellFormed fc p.length with
    | true => exact .inl ⟨rfl, by simp [Block.complete]⟩
    | false => exact .inr ⟨rfl, by simp [Block.complete]⟩

/-- What the receiver does with its buffer (R268, R269): wait, fault, or take an ADU from its front. -/
theorem tcpEvaluate_cases (b : Block) :
    let h := tcpParseHdr (slice b.tcp.rxbuf 0 7)
    (b.tcp.rxbuf.length < 7 ∧ tcpEvaluate b = b) ∨
    (7 ≤ b.tcp.rxbuf.length ∧ (h.length.toNat < 2 ∨ 254 < h.length.toNat) ∧ tcpEvaluate b = tcpLengthFault b) ∨
    (7 ≤ b.tcp.rxbuf.length ∧ 2 ≤ h.length.toNat ∧ h.length.toNat ≤ 254 ∧
      ((b.tcp.rxbuf.length < 6 + h.length.toNat ∧ tcpEvaluate b = b) ∨
       (6 + h.length.toNat ≤ b.tcp.rxbuf.length ∧
        tcpEvaluate b = tcpCorrelate h.tid (byteAt b.tcp.rxbuf 7) (slice b.tcp.rxbuf 8 (h.length.toNat - 2))
          (b.setTcpRxbuf (b.tcp.rxbuf.drop (6 + h.length.toNat)))))) := by
  intro h
  unfold tcpEvaluate
  by_cases h7 : b.tcp.rxbuf.length < 7
  · exact .inl ⟨h7, if_pos h7⟩
  rw [if_neg h7]
  refine .inr ?_
  have hbad : badMbapLength h.length = decide (h.length.toNat < 2 ∨ 254 < h.length.toNat) := by
    simp [badMbapLength]
  by_cases hb : h.length.toNat < 2 ∨ 254 < h.length.toNat
  · exact .inl ⟨by omega, hb, if_pos (by rw [hbad, decide_eq_true hb])⟩
  · refine .inr ⟨by omega, by omega, by omega, ?_⟩
    show _ ∨ _
    have hf : ¬ badMbapLength h.length = true := by rw [hbad]; simpa using hb
    by_cases hl : b.tcp.rxbuf.length < 6 + h.length.toNat
    · exact .inl ⟨hl, (if_neg hf).trans (if_pos hl)⟩
    · refine .inr ⟨by omega, (if_neg hf).trans ((if_neg hl).trans ?_)⟩
      show tcpCorrelate _ _ (slice _ 8 (6 + h.length.toNat - 8)) _ = _
      rw [show 6 + h.length.toNat - 8 = h.length.toNat - 2 by omega]
      rfl

/-- What `TcpTimeout` can do (R273, R274). -/
theorem tcpTimeout_cases (tid : U16) (b : Block) :
    (ttGet tid b.tcp.tt = none ∧ tcpTimeout tid b = b) ∨
    ∃ e, ttGet tid b.tcp.tt = some e ∧
      ((0 < e.elem.retries ∧ tcpTimeout tid b =
          (b.setTcpTt (ttPut tid { e with elem := { e.elem with retries := e.elem.retries - 1 } } b.tcp.tt)).emit
            (.tcpTx e.elem.adu)) ∨
       (e.elem.retries = 0 ∧ tcpTimeout tid b =
          (b.setTcpTt (ttRemove tid b.tcp.tt)).emit (.done .tcp e.elem.tag .error .timeoutError 0x00 []))) := by
  unfold tcpTimeout
  split
  · next h => exact .inl ⟨h, rfl⟩
  · next e he =>
    refine .inr ⟨e, he, ?_⟩
    by_cases hr : 0 < e.elem.retries
    · exact .inl ⟨hr, if_pos hr⟩
    · exact .inr ⟨by omega, if_neg hr⟩

/-! ### Every function of the transport is local -/

theorem tcpLocal_open : TcpLocal (Block.setTcpOpen true) := TcpLocal.set fun _ t => { t with isOpen := true }

theorem tcpLocal_close : TcpLocal tcpClose :=
  ⟨fun _ t => ({ isOpen := false, tt := [], nextTid := t.nextTid, rxbuf := [], rxfault := false },
      t.tt.map fun p => .done .tcp p.2.elem.tag .error .replyAbortedError 0x00 []),
    fun _ t e he => by obtain ⟨a, _, rfl⟩ := List.mem_map.mp he; rfl, tcpClose_eq⟩

theorem tcpLocal_enter (tid : U16) (e : Entry) : TcpLocal (tcpEnter tid e) :=
  ⟨fun _ t => ({ t with nextTid := tid + 1, tt := ttPut tid e t.tt }, [.tcpTx e.elem.adu]),
    fun _ _ _ he => by rw [List.mem_singleton.mp he]; rfl, tcpEnter_eq tid e⟩

theorem tcpLocal_wrDone (tid : U16) : TcpLocal (tcpWrDone tid) := by
  refine TcpLocal.choose (f := fun c t b => match ttGet tid t.tt with
    | none => b
    | some e =>
      if t.isOpen = true ∧ e.tmr.armed = false then
        b.setTcpTt (ttPut tid { e with tmr := Timer.arm c } b.tcp.tt)
      else b) fun c t => ?_
  cases ttGet tid t.tt with
  | none => exact .id
  | some e =>
    show TcpLocal fun b => if t.isOpen = true ∧ e.tmr.armed = false then
        b.setTcpTt (ttPut tid { e with tmr := Timer.arm c } b.tcp.tt) else b
    split
    · exact TcpLocal.set fun _ t => { t with tt := ttPut tid { e with tmr := Timer.arm c } t.tt }
    · exact .id

theorem tcpLocal_correlate (tid : U16) (fc : Byte) (p : Bytes) : TcpLocal (tcpCorrelate tid fc p) := by
  refine TcpLocal.choose (f := fun _ t b => match ttGet tid t.tt with
    | none => b.emit (.log .unmatchedTid tid)
    | some e =>
      if rspWellFormed fc p.length then
        (b.setTcpTt (ttRemove tid b.tcp.tt)).complete .tcp e.elem.tag .finished .noError fc p
      else (b.setTcpTt (ttRemove tid b.tcp.tt)).complete .tcp e.elem.tag .error .invalidResponseError fc p) fun _ t => ?_
  have hr : TcpLocal fun b => b.setTcpTt (ttRemove tid b.tcp.tt) :=
    TcpLocal.set fun _ t => { t with tt := ttRemove tid t.tt }
  cases ttGet tid t.tt with
  | none => exact TcpLocal.emit (e := .log .unmatchedTid tid) rfl
  | some e =>
    cases rspWellFormed fc p.length with
    | true => exact hr.comp (TcpLocal.emit (e := .done .tcp e.elem.tag .finished .noError fc p) rfl)
    | false => exact hr.comp (TcpLocal.emit (e := .done .tcp e.elem.tag .error .invalidResponseError fc p) rfl)

theorem tcpLocal_evaluate : TcpLocal tcpEvaluate := by
  refine TcpLocal.choose (f := fun _ t b =>
    if t.rxbuf.length < 7 then b
    else if badMbapLength (tcpParseHdr (slice t.rxbuf 0 7)).length then tcpLengthFault b
    else if t.rxbuf.length < tcpAduLen (tcpParseHdr (slice t.rxbuf 0 7)).length then b
    else tcpCorrelate (tcpParseHdr (slice t.rxbuf 0 7)).tid (byteAt t.rxbuf 7)
      (slice t.rxbuf 8 (tcpAduLen (tcpParseHdr (slice t.rxbuf 0 7)).length - 8))
      (b.setTcpRxbuf (bufDropFront b.tcp.rxbuf (tcpAduLen (tcpParseHdr (slice t.rxbuf 0 7)).length)))) fun _ t => ?_
  split
  · exact .id
  · split
    · exact TcpLocal.set fun _ t => { t with rxfault := true, rxbuf := [] }
    · split
      · exact .id
      · exact TcpLocal.comp
          (TcpLocal.set fun _ t' => { t' with
            rxbuf := bufDropFront t'.rxbuf (tcpAduLen (tcpParseHdr (slice t.rxbuf 0 7)).length) })
          (tcpLocal_correlate _ _ _)

theorem tcpLocal_rxb (x : Byte) : TcpLocal (tcpRxb x) :=
  TcpLocal.ite (fun _ t => t.isOpen = false) .id
    (TcpLocal.ite (fun _ t => t.rxfault = true) .id
      ((TcpLocal.set fun _ t => { t with rxbuf := bufAppend Config.tcpRxbufCap t.rxbuf x }).comp tcpLocal_evaluate))

theorem tcpLocal_timeout (tid : U16) : TcpLocal (tcpTimeout tid) := by
  refine TcpLocal.choose (f := fun _ t b => match ttGet tid t.tt with
    | none => b
    | some e =>
      if 0 < e.elem.retries then
        (b.setTcpTt (ttPut tid { e with elem := { e.elem with retries := e.elem.retries - 1 } } b.tcp.tt)).emit
          (.tcpTx e.elem.adu)
      else (b.setTcpTt (ttRemove tid b.tcp.tt)).completeEmpty .tcp e.elem.tag .error .timeoutError) fun _ t => ?_
  cases ttGet tid t.tt with
  | none => exact .id
  | some e =>
    show TcpLocal fun b => if 0 < e.elem.retries then
        (b.setTcpTt (ttPut tid { e with elem := { e.elem with retries := e.elem.retries - 1 } } b.tcp.tt)).emit
          (.tcpTx e.elem.adu)
      else (b.setTcpTt (ttRemove tid b.tcp.tt)).completeEmpty .tcp e.elem.tag .error .timeoutError
    split
    · exact TcpLocal.comp (TcpLocal.set fun _ t => { t with
          tt := ttPut tid { e with elem := { e.elem with retries := e.elem.retries - 1 } } t.tt })
        (TcpLocal.emit (e := .tcpTx e.elem.adu) rfl)
    · exact TcpLocal.comp (TcpLocal.set fun _ t => { t with tt := ttRemove tid t.tt })
        (TcpLocal.emit (e := .done .tcp e.elem.tag .error .timeoutError 0x00 []) rfl)

end Sys2Proof.Machine
end

