-- ==== Sys2Proof/Laws/Tick.lean ====
section
/-! SUPPORT. TICK (46_config_and_tick.md R305, R307): it counts every timer down, then runs the RTU handlers, which are
`RtuLocal`, then the TCP handlers, which are `TcpLocal`. -/

namespace Sys2Proof.Machine

theorem RtuLocal.foldl {α : Type} {f : Block → α → Block} (h : ∀ a, RtuLocal fun b => f b a) (l : List α) :
    RtuLocal fun b => l.foldl f b := by
  induction l with
  | nil => exact .id
  | cons a l ih => exact (h a).comp ih

theorem TcpLocal.foldl {α : Type} {f : Block → α → Block} (h : ∀ a, TcpLocal fun b => f b a) (l : List α) :
    TcpLocal fun b => l.foldl f b := by
  induction l with
  | nil => exact .id
  | cons a l ih => exact (h a).comp ih

/-! ### The countdown -/

/-- A timer that expires is armed and keeps its count in the countdown. -/
theorem Timer.countDown_of_expires {t : Timer} (h : t.expires = true) : t.countDown = t := by
  simp only [Timer.expires, Bool.and_eq_true, decide_eq_true_eq] at h
  simp only [Timer.countDown, Bool.and_eq_true, decide_eq_true_eq]
  rw [if_neg (by omega)]

theorem Timer.countDown_armed (t : Timer) : t.countDown.armed = t.armed := by
  unfold Timer.countDown
  split <;> rfl

theorem Timer.countDown_of_not_armed {t : Timer} (h : t.armed = false) : t.countDown = t := by
  simp [Timer.countDown, h]

theorem Timer.countDown_of_lt {t : Timer} (ha : t.armed = true) (h : 1 < t.cnt.toNat) :
    t.countDown = { armed := true, cnt := t.cnt - 1 } := by
  simp [Timer.countDown, ha, h]

/-! ### One timer in its turn -/

theorem expire_rtuDly (b : Block) :
    expire b .rtuDly = if b.rtu.dly.armed then rtuSend (b.setRtuDly b.rtu.dly.stop) else b := rfl

theorem expire_rtuRspt (b : Block) :
    expire b .rtuRspt = if b.rtu.rspt.armed then rtuTimeout (b.setRtuRspt b.rtu.rspt.stop) else b := rfl

/-- The turn of a TCP entry's timer: nothing, or the entry's timer stopped and `TcpTimeout` run. -/
theorem expire_tcpTmr_cases (t : U16) (b : Block) :
    ((ttGet t b.tcp.tt = none ∨ ∃ e, ttGet t b.tcp.tt = some e ∧ e.tmr.armed = false) ∧ expire b (.tcpTmr t) = b) ∨
    ∃ e, ttGet t b.tcp.tt = some e ∧ e.tmr.armed = true ∧
      expire b (.tcpTmr t) = tcpTimeout t (b.setTcpTt (ttPut t { e with tmr := e.tmr.stop } b.tcp.tt)) := by
  cases he : ttGet t b.tcp.tt with
  | none => exact .inl ⟨.inl rfl, by simp [expire, timerOf, he]⟩
  | some e =>
    cases ha : e.tmr.armed with
    | false => exact .inl ⟨.inr ⟨e, rfl, ha⟩, by simp [expire, timerOf, he, ha]⟩
    | true => exact .inr ⟨e, rfl, ha, by simp [expire, timerOf, he, ha, fire, disarm]⟩

theorem rtuLocal_expire_dly : RtuLocal fun b => expire b .rtuDly :=
  RtuLocal.ite (fun _ r => r.dly.armed = true) ((RtuLocal.set fun _ r => { r with dly := r.dly.stop }).comp rtuLocal_send)
    .id

theorem rtuLocal_expire_rspt : RtuLocal fun b => expire b .rtuRspt :=
  RtuLocal.ite (fun _ r => r.rspt.armed = true)
    ((RtuLocal.set fun _ r => { r with rspt := r.rspt.stop }).comp rtuLocal_timeout) .id

theorem tcpLocal_expire (t : U16) : TcpLocal fun b => expire b (.tcpTmr t) := by
  have h := TcpLocal.choose (f := fun _ k b => match ttGet t k.tt with
    | none => b
    | some e =>
      if e.tmr.armed then tcpTimeout t (b.setTcpTt (ttPut t { e with tmr := e.tmr.stop } b.tcp.tt)) else b) fun _ k => by
    cases ttGet t k.tt with
    | none => exact .id
    | some e =>
      show TcpLocal fun b => if e.tmr.armed then
        tcpTimeout t (b.setTcpTt (ttPut t { e with tmr := e.tmr.stop } b.tcp.tt)) else b
      split
      · exact TcpLocal.comp (TcpLocal.set fun _ k => { k with tt := ttPut t { e with tmr := e.tmr.stop } k.tt })
          (tcpLocal_timeout t)
      · exact .id
  refine cast (congrArg TcpLocal (funext fun b => ?_)) h
  cases he : ttGet t b.tcp.tt with
  | none => simp [expire, timerOf, he]
  | some e => cases ha : e.tmr.armed <;> simp [expire, timerOf, he, ha, fire, disarm]

/-! ### The whole TICK -/

/-- The RTU timers that expire in a TICK, in order. -/
def expiringRtu (r : Rtu) : List TimerId :=
  (if r.dly.expires then [.rtuDly] else []) ++ (if r.rspt.expires then [.rtuRspt] else [])

/-- The ids of the TCP entries whose timers expire in a TICK, in order. -/
def expiringTcp (tt : TransTable) : List U16 := (ttKeys tt).filter fun t => (ttGet t tt).any fun e => e.tmr.expires

theorem expiring_eq (b : Block) : expiring b = expiringRtu b.rtu ++ (expiringTcp b.tcp.tt).map .tcpTmr := by
  have h1 : [TimerId.rtuDly, .rtuRspt].filter (fun i => (timerOf b i).any Timer.expires) = expiringRtu b.rtu := by
    cases hd : b.rtu.dly.expires <;> cases hr : b.rtu.rspt.expires <;> simp [expiringRtu, timerOf, hd, hr]
  have h2 : ((ttKeys b.tcp.tt).map TimerId.tcpTmr).filter (fun i => (timerOf b i).any Timer.expires) =
      (expiringTcp b.tcp.tt).map .tcpTmr := by
    rw [List.filter_map, expiringTcp]
    congr 1
    refine List.filter_congr fun t _ => ?_
    simp only [Function.comp, timerOf]
    cases ttGet t b.tcp.tt <;> rfl
  rw [expiring, allTimers, List.filter_append, h1, h2]

/-- TICK as three parts, one after another. -/
theorem tickBlock_eq (b : Block) :
    tickBlock b = (expiringTcp b.tcp.tt).foldl (fun b t => expire b (.tcpTmr t))
      ((expiringRtu b.rtu).foldl expire (countDownAll b)) := by
  rw [tickBlock, expiring_eq, List.foldl_append, List.foldl_map]

@[simp] theorem countDownAll_crc (b : Block) : (countDownAll b).crc = b.crc := rfl
@[simp] theorem countDownAll_cfg (b : Block) : (countDownAll b).cfg = b.cfg := rfl
@[simp] theorem countDownAll_out (b : Block) : (countDownAll b).out = b.out := rfl

theorem countDownAll_rtu (b : Block) :
    (countDownAll b).rtu = { b.rtu with dly := b.rtu.dly.countDown, rspt := b.rtu.rspt.countDown } := rfl

theorem countDownAll_tcp (b : Block) :
    (countDownAll b).tcp = { b.tcp with tt := b.tcp.tt.map fun p => (p.1, p.2.countDown) } := rfl

/-- The RTU handlers of a TICK. -/
theorem rtuLocal_tick (ids : List TimerId) (h : ∀ i ∈ ids, i = .rtuDly ∨ i = .rtuRspt) :
    RtuLocal fun b => ids.foldl expire b := by
  induction ids with
  | nil => exact .id
  | cons i ids ih =>
    have hi : RtuLocal fun b => expire b i := by
      rcases h i List.mem_cons_self with rfl | rfl
      · exact rtuLocal_expire_dly
      · exact rtuLocal_expire_rspt
    exact hi.comp (ih fun j hj => h j (List.mem_cons_of_mem _ hj))

theorem rtuLocal_expiringRtu (r : Rtu) : RtuLocal fun b => (expiringRtu r).foldl expire b := by
  refine rtuLocal_tick _ fun i hi => ?_
  rcases List.mem_append.mp hi with hi | hi <;> (split at hi <;> simp_all)

/-- The TCP handlers of a TICK. -/
theorem tcpLocal_expiringTcp (tt : TransTable) :
    TcpLocal fun b => (expiringTcp tt).foldl (fun b t => expire b (.tcpTmr t)) b :=
  TcpLocal.foldl (fun t => tcpLocal_expire t) _

theorem tickBlock_crc (b : Block) : (tickBlock b).crc = b.crc := by
  rw [tickBlock_eq, (tcpLocal_expiringTcp _).crc, (rtuLocal_expiringRtu _).crc]; rfl

theorem tickBlock_cfg (b : Block) : (tickBlock b).cfg = b.cfg := by
  rw [tickBlock_eq, (tcpLocal_expiringTcp _).cfg, (rtuLocal_expiringRtu _).cfg]; rfl

/-- The RTU elements after a TICK are those the RTU handlers leave. -/
theorem tickBlock_rtu (b : Block) :
    (tickBlock b).rtu = ((expiringRtu b.rtu).foldl expire (countDownAll b)).rtu := by
  rw [tickBlock_eq, (tcpLocal_expiringTcp _).rtu]

/-- What a TICK emits on the RTU side is what the RTU handlers emit. -/
theorem tickBlock_rtuTrace (b : Block) :
    rtuTrace (tickBlock b).out = rtuTrace ((expiringRtu b.rtu).foldl expire (countDownAll b)).out := by
  rw [tickBlock_eq, (tcpLocal_expiringTcp _).rtuTrace]

/-- No RTU timer expires: the RTU side of a TICK is the countdown. -/
theorem tickBlock_rtu_quiet {b : Block} (hd : b.rtu.dly.expires = false) (hr : b.rtu.rspt.expires = false) :
    (tickBlock b).rtu = { b.rtu with dly := b.rtu.dly.countDown, rspt := b.rtu.rspt.countDown } ∧
      rtuTrace (tickBlock b).out = rtuTrace b.out := by
  rw [tickBlock_rtu, tickBlock_rtuTrace]
  simp [expiringRtu, hd, hr, countDownAll_rtu]

/-- Only the delay timer expires: the head is sent. -/
theorem tickBlock_rtu_send {b : Block} (hd : b.rtu.dly.expires = true) (hr : b.rtu.rspt.expires = false) :
    (tickBlock b).rtu = (rtuSend ((countDownAll b).setRtuDly b.rtu.dly.stop)).rtu ∧
      rtuTrace (tickBlock b).out = rtuTrace (rtuSend ((countDownAll b).setRtuDly b.rtu.dly.stop)).out := by
  have ha : b.rtu.dly.armed = true := by simp [Timer.expires] at hd; exact hd.1
  rw [tickBlock_rtu, tickBlock_rtuTrace]
  simp [expiringRtu, hd, hr, expire_rtuDly, countDownAll_rtu, Timer.countDown_of_expires hd, ha]

/-- Only the response timer expires: the head is resent or fails. -/
theorem tickBlock_rtu_timeout {b : Block} (hd : b.rtu.dly.expires = false) (hr : b.rtu.rspt.expires = true) :
    (tickBlock b).rtu = (rtuTimeout ((countDownAll b).setRtuRspt b.rtu.rspt.stop)).rtu ∧
      rtuTrace (tickBlock b).out = rtuTrace (rtuTimeout ((countDownAll b).setRtuRspt b.rtu.rspt.stop)).out := by
  have ha : b.rtu.rspt.armed = true := by simp [Timer.expires] at hr; exact hr.1
  rw [tickBlock_rtu, tickBlock_rtuTrace]
  simp [expiringRtu, hd, hr, expire_rtuRspt, countDownAll_rtu, Timer.countDown_of_expires hr, ha]

/-- The table operations of a TICK see the table the countdown leaves. -/
theorem tickRtu_tcp (b : Block) :
    ((expiringRtu b.rtu).foldl expire (countDownAll b)).tcp = (countDownAll b).tcp :=
  (rtuLocal_expiringRtu _).tcp _

end Sys2Proof.Machine
end

