-- ==== Sys2Proof/Laws/RtuInv.lean ====
section
/-! SUPPORT. The invariants of the RTU transport (44_rtu_transport.md R234): what they say in each of the three situations
of the transport (closed, idle, waiting), and that each function of the transport keeps them. -/

namespace Sys2Proof.Machine

/-- Every element is as RTU.SUBMIT makes it (R234 item 8). -/
abbrev elemsFramed (q : List Elem) : Prop :=
  ∀ e ∈ q, pduValid e.fc e.payload.length = true ∧ e.adu = rtuFrame e.unit e.fc e.payload

section
variable {p : Build} {c : Cfg} {r : Rtu}

/-- The invariants of an open, idle transport. -/
theorem RtuInv.of_idle (ho : r.isOpen = true) (hst : r.st = .idle) (hr : r.rspt.armed = false)
    (hd : r.dly.armed = true ↔ r.q ≠ []) (hb : c.baud ≠ 0) (hf : elemsFramed r.q) (hq : r.q.length ≤ p.rtuQDepth)
    (hx : r.rxbuf.length ≤ 256) : RtuInv p c r where
  settled := by simp [hst]
  dlyArmed h := ⟨ho, hst, hd.mp h⟩
  rsptArmed h := by simp [hr] at h
  closedClean h := by simp [ho] at h
  scheduled _ _ h := hd.mpr h
  awaited h := by simp [hst] at h
  openBaud _ := hb
  framed := hf
  qBound := hq
  rxBound := hx

/-- The invariants of a transport that waits for a reply or for a broadcast to be written. -/
theorem RtuInv.of_waiting {e : Elem} {rest : List Elem} (ho : r.isOpen = true) (hst : r.st = .waitingForReply)
    (hd : r.dly.armed = false) (he : r.q = e :: rest) (hr : r.rspt.armed = true ↔ e.unit ≠ 0) (hb : c.baud ≠ 0)
    (hf : elemsFramed r.q) (hq : r.q.length ≤ p.rtuQDepth) (hx : r.rxbuf.length ≤ 256) : RtuInv p c r where
  settled := by simp [hst]
  dlyArmed h := by simp [hd] at h
  rsptArmed h := ⟨hst, e, by simp [he], decide_eq_false (hr.mp h)⟩
  closedClean h := by simp [ho] at h
  scheduled _ h := by simp [hst] at h
  awaited _ := ⟨e, by simp [he], fun h => hr.mpr (of_decide_eq_false h)⟩
  openBaud _ := hb
  framed := hf
  qBound := hq
  rxBound := hx

/-- The invariants of a closed transport. -/
theorem RtuInv.of_closed (ho : r.isOpen = false) (hst : r.st = .idle) (hd : r.dly.armed = false)
    (hr : r.rspt.armed = false) (hq : r.q = []) (hx : r.rxbuf = []) (hv : r.rxovf = false) : RtuInv p c r where
  settled := by simp [hst]
  dlyArmed h := by simp [hd] at h
  rsptArmed h := by simp [hr] at h
  closedClean _ := ⟨hq, hd, hr, hst, hx, hv⟩
  scheduled h := by simp [ho] at h
  awaited h := by simp [hst] at h
  openBaud h := by simp [ho] at h
  framed := by simp [hq]
  qBound := by simp [hq]
  rxBound := by simp [hx]

/-- A transport that meets the invariants is closed, or idle, or waiting. -/
theorem RtuInv.cases (h : RtuInv p c r) :
    (r.isOpen = false ∧ r.st = .idle ∧ r.dly.armed = false ∧ r.rspt.armed = false ∧ r.q = [] ∧ r.rxbuf = [] ∧
      r.rxovf = false) ∨
    (r.isOpen = true ∧ r.st = .idle ∧ r.rspt.armed = false ∧ (r.dly.armed = true ↔ r.q ≠ [])) ∨
    ∃ e rest, r.isOpen = true ∧ r.st = .waitingForReply ∧ r.dly.armed = false ∧ r.q = e :: rest ∧
      (r.rspt.armed = true ↔ e.unit ≠ 0) := by
  cases ho : r.isOpen with
  | false =>
    obtain ⟨a, b, d, e, f, g⟩ := h.closedClean ho
    exact .inl ⟨rfl, e, b, d, a, f, g⟩
  | true =>
    refine .inr ?_
    cases hst : r.st with
    | idle =>
      refine .inl ⟨rfl, rfl, ?_, fun hd => (h.dlyArmed hd).2.2, h.scheduled ho hst⟩
      rw [Bool.eq_false_iff]
      intro hr
      have := (h.rsptArmed hr).1
      simp [hst] at this
    | waitingForReply =>
      obtain ⟨e, he, hr⟩ := h.awaited hst
      obtain ⟨rest, hq⟩ := List.head?_eq_some_iff.mp he
      refine .inr ⟨e, rest, rfl, rfl, ?_, hq, fun ha => ?_, fun hu => hr (decide_eq_false hu)⟩
      · rw [Bool.eq_false_iff]
        intro hd
        have := (h.dlyArmed hd).2.1
        simp [hst] at this
      · obtain ⟨_, e', he', hb⟩ := h.rsptArmed ha
        rw [he] at he'
        cases he'
        exact of_decide_eq_false hb
    | processReply => exact absurd hst h.settled

/-- A configuration write that keeps the baud rate set while the transport is open keeps the invariants. -/
theorem RtuInv.set_cfg {c' : Cfg} (h : RtuInv p c r) (hb : r.isOpen = true → c'.baud ≠ 0) : RtuInv p c' r :=
  { h with openBaud := hb }
end

variable {p : Build} {b : Block}

/-- Scheduling after a completion or a submission: an open, idle transport whose delay timer, if armed, has something to
send. -/
theorem RtuInv.kick (d : U32) (ho : b.rtu.isOpen = true) (hst : b.rtu.st = .idle) (hr : b.rtu.rspt.armed = false)
    (hd : b.rtu.dly.armed = true → b.rtu.q ≠ []) (hb : b.cfg.baud ≠ 0) (hf : elemsFramed b.rtu.q)
    (hq : b.rtu.q.length ≤ p.rtuQDepth) (hx : b.rtu.rxbuf.length ≤ 256) : RtuInv p b.cfg (rtuKick d b).rtu := by
  refine RtuInv.of_idle (by simpa using ho) (by simpa using hst) (by simpa using hr) ?_ hb (by simpa using hf)
    (by simpa using hq) (by simpa using hx)
  rw [rtuKick_dly, rtuKick_q]
  by_cases ha : b.rtu.dly.armed = true
  · simp [ha, hd ha]
  · by_cases hn : b.rtu.q = [] <;> simp [ha, hn, hst, Timer.arm]

theorem RtuInv.open (h : RtuInv p b.cfg b.rtu) (ho : b.rtu.isOpen = false) (hb : b.cfg.baud ≠ 0) :
    RtuInv p b.cfg (b.setRtuOpen true).rtu := by
  obtain ⟨a, d, e, f, g, i⟩ := h.closedClean ho
  exact RtuInv.of_idle rfl f e (by simp [d, a]) hb
    (fun x hx => by have hx : x ∈ b.rtu.q := hx; simp [a] at hx) (by simp [a]) (by simp [g])

theorem RtuInv.close (b : Block) : RtuInv p b.cfg (rtuClose b).rtu := by
  rw [rtuClose_eq]
  exact RtuInv.of_closed rfl rfl rfl rfl rfl rfl rfl

theorem RtuInv.enqueue (h : RtuInv p b.cfg b.rtu) (ho : b.rtu.isOpen = true) {e : Elem}
    (he : pduValid e.fc e.payload.length = true ∧ e.adu = rtuFrame e.unit e.fc e.payload)
    (hroom : b.rtu.q.length ≠ p.rtuQDepth) : RtuInv p b.cfg (rtuEnqueue e b).rtu := by
  have hf : elemsFramed (b.rtu.q ++ [e]) := by
    intro x hx
    rcases List.mem_append.mp hx with hx | hx
    · exact h.framed x hx
    · rw [List.mem_singleton.mp hx]; exact he
  have hl : (b.rtu.q ++ [e]).length ≤ p.rtuQDepth := by
    have := h.qBound
    simp only [List.length_append, List.length_cons, List.length_nil]
    omega
  rw [rtuEnqueue_eq]
  rcases h.cases with ⟨hc, _⟩ | ⟨_, hst, hr, hd⟩ | ⟨e', rest, _, hst, hd, hq, hr⟩
  · simp [ho] at hc
  · refine RtuInv.of_idle ho hst hr ?_ (h.openBaud ho) hf hl h.rxBound
    by_cases ha : b.rtu.dly.armed = true <;> simp [ha, hst, Timer.arm]
  · refine RtuInv.of_waiting (e := e') (rest := rest ++ [e]) ho hst ?_ ?_ hr (h.openBaud ho) hf hl h.rxBound
    · simp [hst, hd]
    · simp [hq]

/-- Sending the head (R218), the delay timer already stopped. -/
theorem RtuInv.send (ho : b.rtu.isOpen = true) (hd : b.rtu.dly.armed = false) (hr : b.rtu.rspt.armed = false)
    (hq : b.rtu.q ≠ []) (hb : b.cfg.baud ≠ 0) (hf : elemsFramed b.rtu.q) (hl : b.rtu.q.length ≤ p.rtuQDepth) :
    RtuInv p b.cfg (rtuSend b).rtu := by
  obtain ⟨e, rest, he⟩ := List.exists_cons_of_ne_nil hq
  rw [rtuSend_cons he]
  refine RtuInv.of_waiting (e := e) (rest := rest) ho rfl hd he ?_ hb hf hl (by simp)
  by_cases hu : e.unit = 0
  · simp only [hu, if_true, hr]; simp
  · simp only [hu, if_false]; exact ⟨fun _ => hu, fun _ => rfl⟩

theorem RtuInv.wrDone (h : RtuInv p b.cfg b.rtu) : RtuInv p b.cfg (rtuWrDone b).rtu := by
  rcases rtuWrDone_cases b with h' | ⟨e, rest, ho, hst, hq, hu, h'⟩ <;> rw [h']
  · exact h
  · rcases h.cases with ⟨_, hi, _⟩ | ⟨_, hi, _⟩ | ⟨e', rest', _, _, hd, hq', hr⟩
    · simp [hi] at hst
    · simp [hi] at hst
    · rw [hq] at hq'
      cases hq'
      rw [rtuBroadcastDone_eq hq]
      have hlen := h.qBound
      rw [hq] at hlen
      refine RtuInv.kick (b := { b with rtu := { b.rtu with q := rest, st := .idle }, out := _ }) _ ho rfl ?_
        (fun ha => ?_) (h.openBaud ho) (fun x hx => h.framed x (hq ▸ List.mem_cons_of_mem _ hx)) ?_ h.rxBound
      · rw [Bool.eq_false_iff, Ne, hr]; exact not_not_intro hu
      · have ha : b.rtu.dly.armed = true := ha
        simp [hd] at ha
      · simp only [List.length_cons] at hlen ⊢; omega

theorem rtuAppend_fields (x : Byte) (b : Block) :
    (rtuAppend x b).rtu.q = b.rtu.q ∧ (rtuAppend x b).rtu.isOpen = b.rtu.isOpen ∧ (rtuAppend x b).rtu.st = b.rtu.st ∧
      (rtuAppend x b).rtu.dly = b.rtu.dly ∧ (rtuAppend x b).rtu.rspt = b.rtu.rspt := by
  rw [rtuAppend_eq]
  split <;> exact ⟨rfl, rfl, rfl, rfl, rfl⟩

theorem rtuAppend_rxbuf_length (x : Byte) {b : Block} (h : b.rtu.rxbuf.length ≤ 256) :
    (rtuAppend x b).rtu.rxbuf.length ≤ 256 := by
  rw [rtuAppend_eq]
  split
  · simp; omega
  · exact h

/-- Accepting a frame while waiting (R227, R229, R228). -/
theorem RtuInv.accept (h : RtuInv p b.cfg b.rtu) {e : Elem} {rest : List Elem} (ho : b.rtu.isOpen = true)
    (hst : b.rtu.st = .waitingForReply) (hq : b.rtu.q = e :: rest) (n : Nat) :
    RtuInv p b.cfg (rtuAccept e n b).rtu := by
  rcases h.cases with ⟨_, hi, _⟩ | ⟨_, hi, _⟩ | ⟨e', rest', _, _, hd, hq', hr⟩
  · simp [hi] at hst
  · simp [hi] at hst
  · rw [hq] at hq'
    cases hq'
    have hx : (b.rtu.rxbuf.drop n).length ≤ 256 := by
      have := h.rxBound
      simp only [Config.rtuRxbufCap] at this
      simp; omega
    rcases rtuAccept_cases e n b with ⟨_, h'⟩ | ⟨_, _, h'⟩ | ⟨_, _, _, h'⟩ <;> rw [h']
    · exact RtuInv.of_waiting ho hst hd hq hr (h.openBaud ho) h.framed h.qBound hx
    · exact RtuInv.of_waiting ho hst hd hq hr (h.openBaud ho) h.framed h.qBound hx
    · rw [rtuReplyDone_eq (b := b.setRtuRxbuf (b.rtu.rxbuf.drop n)) (rest := rest) _ hq]
      have hlen := h.qBound
      rw [hq] at hlen
      refine RtuInv.kick (b := { b.setRtuRxbuf (b.rtu.rxbuf.drop n) with
          rtu := { (b.setRtuRxbuf (b.rtu.rxbuf.drop n)).rtu with q := rest, st := .idle, rspt := b.rtu.rspt.stop },
          out := _ }) _ ho rfl rfl ?_ (h.openBaud ho)
        (fun x hx => h.framed x (hq ▸ List.mem_cons_of_mem _ hx)) ?_ hx
      · intro ha
        have ha : b.rtu.dly.armed = true := ha
        simp [hd] at ha
      · simp only [List.length_cons] at hlen ⊢; omega

theorem RtuInv.rxb (h : RtuInv p b.cfg b.rtu) (z : Sizer) (x : Byte) : RtuInv p b.cfg (rtuRxb z x b).rtu := by
  obtain ⟨a1, a2, a3, a4, a5⟩ := rtuAppend_fields x b
  have happ (ho : b.rtu.isOpen = true) : RtuInv p b.cfg (rtuAppend x b).rtu := by
    have hx := rtuAppend_rxbuf_length x (b := b) h.rxBound
    rcases h.cases with ⟨hc, _⟩ | ⟨_, hst, hr, hd⟩ | ⟨e', rest, _, hst, hd, hq, hr⟩
    · simp [ho] at hc
    · exact RtuInv.of_idle (by rw [a2, ho]) (by rw [a3, hst]) (by rw [a5, hr]) (by rw [a4, a1, hd]) (h.openBaud ho)
        (by rw [a1]; exact h.framed) (by rw [a1]; exact h.qBound) hx
    · exact RtuInv.of_waiting (by rw [a2, ho]) (by rw [a3, hst]) (by rw [a4, hd]) (by rw [a1, hq]) (by rw [a5, hr])
        (h.openBaud ho) (by rw [a1]; exact h.framed) (by rw [a1]; exact h.qBound) hx
  rcases rtuRxb_cases z x b with ⟨_, h'⟩ | ⟨ho, h'⟩ | ⟨e, rest, n, ho, hst, hq, _, _, h'⟩ <;> rw [h']
  · exact h
  · exact happ ho
  · have hc : (rtuAppend x b).cfg = b.cfg := (rtuLocal_append x).cfg b
    have := RtuInv.accept (hc ▸ happ ho) (e := e) (rest := rest) (by rw [a2, ho]) (by rw [a3, hst]) (by rw [a1, hq]) n
    rwa [hc] at this

/-- `RtuTimeout` (R230, R231), the response timer already stopped, the head not a broadcast. -/
theorem RtuInv.timeout {e : Elem} {rest : List Elem} (ho : b.rtu.isOpen = true) (hst : b.rtu.st = .waitingForReply)
    (hd : b.rtu.dly.armed = false) (hr : b.rtu.rspt.armed = false) (hq : b.rtu.q = e :: rest) (hu : e.unit ≠ 0)
    (hb : b.cfg.baud ≠ 0) (hf : elemsFramed b.rtu.q) (hl : b.rtu.q.length ≤ p.rtuQDepth)
    (hx : b.rtu.rxbuf.length ≤ 256) : RtuInv p b.cfg (rtuTimeout b).rtu := by
  rcases rtuTimeout_cases b with ⟨h | h, _⟩ | ⟨e', rest', _, hq', ⟨_, h⟩ | ⟨_, h⟩⟩
  · simp [hq] at h
  · exact absurd hst h
  · rw [hq] at hq'
    cases hq'
    rw [h, rtuResend_eq hq]
    have he := hf e (by simp [hq])
    refine RtuInv.of_waiting (e := { e with retries := e.retries - 1 }) (rest := rest) ho hst hd rfl ?_ hb ?_ ?_ (by simp)
    · exact ⟨fun _ => hu, fun _ => rfl⟩
    · intro x hx
      rcases List.mem_cons.mp hx with rfl | hx
      · exact he
      · exact hf x (by simp [hq, hx])
    · rw [hq] at hl; simpa using hl
  · rw [hq] at hq'
    cases hq'
    rw [h, rtuFail_eq hq]
    rw [hq] at hl
    refine RtuInv.kick (b := { b with rtu := { b.rtu with q := rest, st := .idle }, out := _ }) _ ho rfl hr
      (fun ha => ?_) hb (fun x hx => hf x (hq ▸ List.mem_cons_of_mem _ hx)) ?_ hx
    · have ha : b.rtu.dly.armed = true := ha
      simp [hd] at ha
    simp only [List.length_cons] at hl ⊢; omega

/-- The RTU part of a TICK. -/
theorem RtuInv.tick (h : RtuInv p b.cfg b.rtu) : RtuInv p b.cfg (tickBlock b).rtu := by
  have hx := h.rxBound
  simp only [Config.rtuRxbufCap] at hx
  have hno {t : Timer} (ht : t.armed = false) : t.expires = false := by simp [Timer.expires, ht]
  rcases h.cases with ⟨ho, hst, hd, hr, hq, hxb, hv⟩ | ⟨ho, hst, hr, hd⟩ | ⟨e, rest, ho, hst, hd, hq, hr⟩
  · rw [(tickBlock_rtu_quiet (hno hd) (hno hr)).1, Timer.countDown_of_not_armed hd, Timer.countDown_of_not_armed hr]
    exact h
  · cases hde : b.rtu.dly.expires with
    | false =>
      rw [(tickBlock_rtu_quiet hde (hno hr)).1, Timer.countDown_of_not_armed hr]
      exact RtuInv.of_idle ho hst hr (by simpa [Timer.countDown_armed] using hd) (h.openBaud ho) h.framed h.qBound hx
    | true =>
      have ha : b.rtu.dly.armed = true := by simp [Timer.expires] at hde; exact hde.1
      rw [(tickBlock_rtu_send hde (hno hr)).1]
      refine RtuInv.send (b := (countDownAll b).setRtuDly b.rtu.dly.stop) ho rfl ?_ (hd.mp ha) (h.openBaud ho) h.framed
        h.qBound
      simp [countDownAll_rtu, Timer.countDown_armed, hr]
  · cases hre : b.rtu.rspt.expires with
    | false =>
      rw [(tickBlock_rtu_quiet (hno hd) hre).1, Timer.countDown_of_not_armed hd]
      exact RtuInv.of_waiting ho hst hd hq (by simpa [Timer.countDown_armed] using hr) (h.openBaud ho) h.framed h.qBound hx
    | true =>
      have ha : b.rtu.rspt.armed = true := by simp [Timer.expires] at hre; exact hre.1
      rw [(tickBlock_rtu_timeout (hno hd) hre).1]
      refine RtuInv.timeout (b := (countDownAll b).setRtuRspt b.rtu.rspt.stop) ho hst ?_ rfl hq (hr.mp ha)
        (h.openBaud ho) h.framed h.qBound hx
      simp [countDownAll_rtu, Timer.countDown_armed, hd]

end Sys2Proof.Machine
end

