-- ==== Sys2Proof/Laws/TcpInv.lean ====
section
/-! SUPPORT. The invariants of the TCP transport (45_tcp_transport.md R275) and the canonical form of its table: each function
of the transport keeps them. -/

namespace Sys2Proof.Machine

section
variable {p : Build} {t : Tcp}

/-- A new table under the same invariants. -/
theorem TcpInv.set_tt (h : TcpInv p t) (ho : t.isOpen = true) {tt : TransTable} (hs : ttSorted tt)
    (hl : tt.length ≤ p.ttDepth) (hf : ∀ x ∈ tt, entryFramed x) : TcpInv p { t with tt := tt } :=
  { h with
    sorted := hs
    closedClean := fun hc => by simp [ho] at hc
    countBound := hl
    framed := hf }

/-- A transport with an entry is open. -/
theorem TcpInv.open_of_get (h : TcpInv p t) {k : U16} {e : Entry} (he : ttGet k t.tt = some e) : t.isOpen = true := by
  by_contra hc
  have := (h.closedClean (by simpa using hc)).1
  simp [this, ttGet] at he

theorem TcpInv.framed_of_get (h : TcpInv p t) {k : U16} {e : Entry} (he : ttGet k t.tt = some e) : entryFramed (k, e) :=
  h.framed _ (mem_of_ttGet he)

/-- Replacing an entry by one with the same request. -/
theorem TcpInv.replace (h : TcpInv p t) {k : U16} {e : Entry} (he : ttGet k t.tt = some e) (e' : Entry)
    (hu : e'.elem.unit = e.elem.unit) (hc : e'.elem.fc = e.elem.fc) (hp : e'.elem.payload = e.elem.payload)
    (ha : e'.elem.adu = e.elem.adu) : TcpInv p { t with tt := ttPut k e' t.tt } := by
  have hf : entryFramed (k, e') := by
    have := h.framed_of_get he
    simpa only [entryFramed, hu, hc, hp, ha] using this
  refine h.set_tt (h.open_of_get he) (ttSorted_ttPut h.sorted) ?_ fun x hx => ?_
  · have := congrArg List.length (ttKeys_ttPut_of_ttGet (e := e') h.sorted he)
    simp only [ttKeys, List.length_map] at this
    rw [this]
    exact h.countBound
  · rcases mem_ttPut hx with rfl | hx
    · exact hf
    · exact h.framed x hx

theorem TcpInv.remove (h : TcpInv p t) {k : U16} {e : Entry} (he : ttGet k t.tt = some e) :
    TcpInv p { t with tt := ttRemove k t.tt } := by
  refine h.set_tt (h.open_of_get he) (ttSorted_ttRemove h.sorted) ?_ fun x hx => h.framed x (mem_of_mem_ttRemove hx)
  have := length_ttRemove he
  have := h.countBound
  simp only [ttCount] at this
  omega
end

variable {p : Build} {b : Block}

theorem TcpInv.open (h : TcpInv p b.tcp) : TcpInv p (b.setTcpOpen true).tcp :=
  { sorted := h.sorted
    closedClean := fun hc => by simp at hc
    countBound := h.countBound
    framed := h.framed
    rxShort := h.rxShort
    rxPartial := h.rxPartial
    faultClean := h.faultClean }

theorem TcpInv.close (b : Block) : TcpInv p (tcpClose b).tcp := by
  rw [tcpClose_eq]
  exact { sorted := ttSorted_nil
          closedClean := fun _ => ⟨rfl, rfl, rfl⟩
          countBound := Nat.zero_le _
          framed := by simp
          rxShort := show 0 < Config.tcpRxbufCap by decide
          rxPartial := by simp
          faultClean := fun _ => rfl }

/-- An accepted TCP.SUBMIT (R263). -/
theorem TcpInv.enter (h : TcpInv p b.tcp) (ho : b.tcp.isOpen = true) {tid tag : U16} {unit fc : Byte} {payload : Bytes}
    (hv : pduValid fc payload.length = true) (hroom : b.tcp.tt.length ≠ p.ttDepth) (hfree : ttGet tid b.tcp.tt = none) :
    TcpInv p (tcpEnter tid (tcpEntry b.cfg tid tag unit fc payload) b).tcp := by
  have hl := h.countBound
  simp only [ttCount] at hl
  have hput := h.set_tt ho (ttSorted_ttPut (k := tid) (e := tcpEntry b.cfg tid tag unit fc payload) h.sorted)
    (by rw [length_ttPut_new _ hfree]; omega) (fun x hx => by
      rcases mem_ttPut hx with rfl | hx
      · exact ⟨hv, rfl⟩
      · exact h.framed x hx)
  exact { hput with }

theorem TcpInv.wrDone (h : TcpInv p b.tcp) (tid : U16) : TcpInv p (tcpWrDone tid b).tcp := by
  rcases tcpWrDone_cases tid b with ⟨_, h'⟩ | ⟨e, _, he, _, h'⟩ <;> rw [h']
  · exact h
  · exact h.replace he _ rfl rfl rfl rfl

theorem TcpInv.correlate (h : TcpInv p b.tcp) (tid : U16) (fc : Byte) (payload : Bytes) :
    TcpInv p (tcpCorrelate tid fc payload b).tcp := by
  rcases tcpCorrelate_cases tid fc payload b with ⟨_, h'⟩ | ⟨e, he, ⟨_, h'⟩ | ⟨_, h'⟩⟩ <;> rw [h']
  · exact h
  · exact h.remove he
  · exact h.remove he

/-- The header the receiver reads is the header of its buffer. -/
theorem tcpParseHdr_slice (s : Bytes) : tcpParseHdr (slice s 0 7) = tcpParseHdr s := by
  have hb (i : Nat) (hi : i < 7) : byteAt (slice s 0 7) i = byteAt s i := by
    simp [byteAt, slice_zero, List.getD_eq_getElem?_getD, hi]
  simp only [tcpParseHdr, rdBe16, hb 0 (by omega), hb 1 (by omega), hb 2 (by omega), hb 3 (by omega), hb 4 (by omega),
    hb 5 (by omega), hb 6 (by omega)]

theorem TcpInv.rxb (h : TcpInv p b.tcp) (x : Byte) : TcpInv p (tcpRxb x b).tcp := by
  unfold tcpRxb
  split
  · exact h
  · next ho =>
    split
    · exact h
    · next hf =>
      have ho : b.tcp.isOpen = true := by simpa using ho
      have hf : b.tcp.rxfault = false := by simpa using hf
      have hshort := h.rxShort
      simp only [Config.tcpRxbufCap] at hshort
      have hbuf : bufAppend Config.tcpRxbufCap b.tcp.rxbuf x = b.tcp.rxbuf ++ [x] := by
        simp [bufAppend, Config.tcpRxbufCap, hshort]
      rw [hbuf]
      have hset {buf : Bytes} (hl : buf.length < 260)
          (hp : 7 ≤ buf.length → 2 ≤ (tcpParseHdr buf).length.toNat ∧ (tcpParseHdr buf).length.toNat ≤ 254 ∧
            buf.length < tcpAduLen (tcpParseHdr buf).length) : TcpInv p (b.setTcpRxbuf buf).tcp :=
        { sorted := h.sorted
          closedClean := fun hc => by simp [ho] at hc
          countBound := h.countBound
          framed := h.framed
          rxShort := hl
          rxPartial := hp
          faultClean := fun hc => by simp [hf] at hc }
      have hlen : (b.tcp.rxbuf ++ [x]).length = b.tcp.rxbuf.length + 1 := by simp
      have hnil : TcpInv p (b.setTcpRxbuf []).tcp := hset (by decide) (by simp)
      have hc := tcpEvaluate_cases (b.setTcpRxbuf (b.tcp.rxbuf ++ [x]))
      simp only [Block.setTcpRxbuf_tcp_rxbuf, tcpParseHdr_slice] at hc
      have hfault : TcpInv p (tcpLengthFault (b.setTcpRxbuf (b.tcp.rxbuf ++ [x]))).tcp :=
        { sorted := h.sorted
          closedClean := fun hc => by
            have hc : b.tcp.isOpen = false := hc
            simp [ho] at hc
          countBound := h.countBound
          framed := h.framed
          rxShort := show 0 < Config.tcpRxbufCap by decide
          rxPartial := by simp [tcpLengthFault]
          faultClean := fun _ => rfl }
      rcases hc with ⟨h7, h'⟩ | ⟨_, _, h'⟩ | ⟨h7, h2, h254, ⟨hlt, h'⟩ | ⟨hge, h'⟩⟩ <;> rw [h']
      · exact hset (by omega) (by omega)
      · exact hfault
      · exact hset (by omega) fun _ => ⟨h2, h254, hlt⟩
      · -- an ADU is taken: the byte just appended was its last one, so nothing is left
        have hexact : (b.tcp.rxbuf ++ [x]).length ≤ 6 + (tcpParseHdr (b.tcp.rxbuf ++ [x])).length.toNat := by
          by_cases h7' : 7 ≤ b.tcp.rxbuf.length
          · have := h.rxPartial h7'
            have hsame : tcpParseHdr (b.tcp.rxbuf ++ [x]) = tcpParseHdr b.tcp.rxbuf := by
              rw [← tcpParseHdr_slice, ← tcpParseHdr_slice b.tcp.rxbuf, slice_zero, slice_zero,
                List.take_append_of_le_length h7']
            rw [hsame]
            simp only [tcpAduLen] at this
            omega
          · omega
        rw [List.drop_of_length_le hexact]
        exact TcpInv.correlate (b := (b.setTcpRxbuf (b.tcp.rxbuf ++ [x])).setTcpRxbuf []) hnil _ _ _

theorem TcpInv.timeout (h : TcpInv p b.tcp) (tid : U16) : TcpInv p (tcpTimeout tid b).tcp := by
  rcases tcpTimeout_cases tid b with ⟨_, h'⟩ | ⟨e, he, ⟨_, h'⟩ | ⟨_, h'⟩⟩ <;> rw [h']
  · exact h
  · exact h.replace he _ rfl rfl rfl rfl
  · exact h.remove he

theorem TcpInv.expire (h : TcpInv p b.tcp) (tid : U16) : TcpInv p (expire b (.tcpTmr tid)).tcp := by
  rcases expire_tcpTmr_cases tid b with ⟨_, h'⟩ | ⟨e, he, _, h'⟩ <;> rw [h']
  · exact h
  · exact TcpInv.timeout (b := b.setTcpTt (ttPut tid { e with tmr := e.tmr.stop } b.tcp.tt))
      (h.replace he _ rfl rfl rfl rfl) tid

theorem TcpInv.countDown (h : TcpInv p b.tcp) : TcpInv p (countDownAll b).tcp := by
  rw [countDownAll_tcp]
  exact
    { sorted := by
        have := h.sorted
        simpa only [ttSorted, ttKeys, List.map_map, Function.comp_def] using this
      closedClean := fun hc => by
        obtain ⟨a, d, e⟩ := h.closedClean hc
        exact ⟨by simp [a], d, e⟩
      countBound := by simpa [ttCount] using h.countBound
      framed := fun x hx => by
        obtain ⟨y, hy, rfl⟩ := List.mem_map.mp hx
        exact h.framed y hy
      rxShort := h.rxShort
      rxPartial := h.rxPartial
      faultClean := h.faultClean }

/-- The TCP part of a TICK. -/
theorem TcpInv.tick (h : TcpInv p b.tcp) : TcpInv p (tickBlock b).tcp := by
  have hfold (l : List U16) : ∀ b : Block, TcpInv p b.tcp →
      TcpInv p (l.foldl (fun b t => Machine.expire b (.tcpTmr t)) b).tcp := by
    induction l with
    | nil => exact fun b h => h
    | cons t l ih => exact fun b h => ih _ (h.expire t)
  rw [tickBlock_eq]
  exact hfold _ _ (by rw [tickRtu_tcp]; exact h.countDown)

end Sys2Proof.Machine
end

