-- ==== Sys2Proof/Laws/Emit.lean ====
section
/-! SUPPORT. What the block emits: under the invariants every event that a function of the block appends to `OUT` is legal
(`Event.legal`: 20_memory.md R72, 60_exceptions.md R320, R323, R327). -/

namespace Sys2Proof.Machine

/-- `b'` is `b` with legal events appended to `OUT`, as far as `OUT` goes. -/
def EmitsLegal (b b' : Block) : Prop := ∃ new, b'.out = b.out ++ new ∧ ∀ e ∈ new, e.legal

theorem EmitsLegal.refl (b : Block) : EmitsLegal b b := ⟨[], by simp, by simp⟩

theorem EmitsLegal.of_out_eq {b b' : Block} (h : b'.out = b.out) : EmitsLegal b b' := ⟨[], by simp [h], by simp⟩

theorem EmitsLegal.one {b b' : Block} {e : Event} (h : b'.out = b.out ++ [e]) (he : e.legal) : EmitsLegal b b' :=
  ⟨[e], h, fun _ hx => List.mem_singleton.mp hx ▸ he⟩

theorem EmitsLegal.trans {b b' b'' : Block} (h : EmitsLegal b b') (h' : EmitsLegal b' b'') : EmitsLegal b b'' := by
  obtain ⟨n, hn, hl⟩ := h
  obtain ⟨n', hn', hl'⟩ := h'
  refine ⟨n ++ n', by rw [hn', hn, List.append_assoc], fun e he => ?_⟩
  rcases List.mem_append.mp he with he | he
  · exact hl e he
  · exact hl' e he

/-! ### The events -/

theorem pduValid_bounds {fc : Byte} {n : Nat} (h : pduValid fc n = true) : 1 ≤ (baseFc fc).toNat ∧ n ≤ 252 := by
  simp only [pduValid, Bool.and_eq_true, decide_eq_true_eq] at h
  omega

theorem legal_serTx {unit fc : Byte} {payload adu : Bytes} (hv : pduValid fc payload.length = true)
    (ha : adu = rtuFrame unit fc payload) : (Event.serTx adu).legal := by
  obtain ⟨h1, h2⟩ := pduValid_bounds hv
  subst ha
  have hl := length_rtuFrame unit fc payload
  have hp : rtuParse (rtuFrame unit fc payload) = { unit := unit, fc := fc, payload := payload, crcValid := true } := by
    rw [rtuFrame_eq_fields, rtuParse_fields, word16_halves]
    simp
  refine ⟨by omega, by omega, ?_, ?_⟩
  · rw [hp]
  · rw [hp]; exact h1

theorem length_tcpFrame (tid : U16) (unit fc : Byte) (payload : Bytes) :
    (tcpFrame tid unit fc payload).length = payload.length + 8 := by
  simp [tcpFrame]; omega

theorem tcpParseHdr_tcpFrame (tid : U16) (unit fc : Byte) (payload : Bytes) :
    tcpParseHdr (tcpFrame tid unit fc payload) =
      { tid := tid, proto := 0, length := BitVec.ofNat 16 (payload.length + 2), unit := unit } := by
  have h : tcpParseHdr (tcpFrame tid unit fc payload) =
      { tid := word16 (tid.extractLsb' 8 8) (tid.extractLsb' 0 8), proto := word16 0 0,
        length := word16 ((BitVec.ofNat 16 (payload.length + 2)).extractLsb' 8 8)
          ((BitVec.ofNat 16 (payload.length + 2)).extractLsb' 0 8), unit := unit } := rfl
  rw [h, word16_halves, word16_halves]
  rfl

theorem legal_tcpTx {tid : U16} {unit fc : Byte} {payload adu : Bytes} (hv : pduValid fc payload.length = true)
    (ha : adu = tcpFrame tid unit fc payload) : (Event.tcpTx adu).legal := by
  obtain ⟨_, h2⟩ := pduValid_bounds hv
  subst ha
  have hl := length_tcpFrame tid unit fc payload
  refine ⟨by omega, by omega, ?_, ?_⟩
  · rw [tcpParseHdr_tcpFrame]
  · rw [tcpParseHdr_tcpFrame, hl, tcpAduLen, BitVec.toNat_ofNat]; omega

theorem legal_finished {port : Transport} {tag : U16} {fc : Byte} {payload : Bytes} (h : payload.length ≤ 252) :
    (Event.done port tag .finished .noError fc payload).legal := ⟨h, .inl ⟨rfl, rfl⟩⟩

theorem legal_timeout {port : Transport} {tag : U16} : (Event.done port tag .error .timeoutError 0x00 []).legal :=
  ⟨by simp, .inr (.inl ⟨rfl, .inl rfl, rfl, rfl⟩)⟩

theorem legal_aborted {port : Transport} {tag : U16} : (Event.done port tag .error .replyAbortedError 0x00 []).legal :=
  ⟨by simp, .inr (.inl ⟨rfl, .inr rfl, rfl, rfl⟩)⟩

theorem legal_invalid {tag : U16} {fc : Byte} {payload : Bytes} (h : payload.length ≤ 252) :
    (Event.done .tcp tag .error .invalidResponseError fc payload).legal := ⟨h, .inr (.inr ⟨rfl, rfl, rfl⟩)⟩

/-! ### RTU -/

variable {p : Build} {b : Block}

theorem EmitsLegal.rtuClose (b : Block) : EmitsLegal b (rtuClose b) := by
  rw [rtuClose_eq]
  exact ⟨_, rfl, fun e he => by obtain ⟨x, _, rfl⟩ := List.mem_map.mp he; exact legal_aborted⟩

theorem EmitsLegal.rtuSend (hf : elemsFramed b.rtu.q) : EmitsLegal b (rtuSend b) := by
  cases hq : b.rtu.q with
  | nil => rw [rtuSend_nil hq]; exact .refl b
  | cons e rest =>
    obtain ⟨hv, ha⟩ := hf e (by simp [hq])
    rw [rtuSend_cons hq]
    exact .one rfl (legal_serTx hv ha)

theorem EmitsLegal.rtuTimeout (hf : elemsFramed b.rtu.q) : EmitsLegal b (rtuTimeout b) := by
  rcases rtuTimeout_cases b with ⟨_, h⟩ | ⟨e, rest, _, hq, ⟨_, h⟩ | ⟨_, h⟩⟩ <;> rw [h]
  · exact .refl b
  · obtain ⟨hv, ha⟩ := hf e (by simp [hq])
    rw [rtuResend_eq hq]
    exact .one rfl (legal_serTx hv ha)
  · rw [rtuFail_eq hq]
    exact .one (rtuKick_out _ _) legal_timeout

theorem EmitsLegal.rtuWrDone (b : Block) : EmitsLegal b (rtuWrDone b) := by
  rcases rtuWrDone_cases b with h | ⟨e, rest, _, _, hq, _, h⟩ <;> rw [h]
  · exact .refl b
  · rw [rtuBroadcastDone_eq hq]
    exact .one (rtuKick_out _ _) (legal_finished (by simp))

theorem length_rtuParse_payload (adu : Bytes) (h : adu.length ≤ 256) : (rtuParse adu).payload.length ≤ 252 := by
  simp only [rtuParse, length_slice]
  omega

theorem EmitsLegal.rtuAccept {e : Elem} {rest : List Elem} (hq : b.rtu.q = e :: rest) (n : Nat)
    (hx : b.rtu.rxbuf.length ≤ 256) : EmitsLegal b (rtuAccept e n b) := by
  have hp : (rtuParse (slice b.rtu.rxbuf 0 n)).payload.length ≤ 252 :=
    length_rtuParse_payload _ (by simp only [length_slice]; omega)
  rcases rtuAccept_cases e n b with ⟨_, h⟩ | ⟨_, _, h⟩ | ⟨_, _, _, h⟩ <;> rw [h]
  · exact .one rfl rfl
  · exact .one rfl rfl
  · rw [rtuReplyDone_eq (b := b.setRtuRxbuf (b.rtu.rxbuf.drop n)) (rest := rest) _ hq]
    exact .one (rtuKick_out _ _) (legal_finished hp)

theorem EmitsLegal.rtuRxb (h : RtuInv p b.cfg b.rtu) (z : Sizer) (x : Byte) : EmitsLegal b (rtuRxb z x b) := by
  have happ : EmitsLegal b (rtuAppend x b) := .of_out_eq (by rw [rtuAppend_eq]; rfl)
  rcases rtuRxb_cases z x b with ⟨_, h'⟩ | ⟨_, h'⟩ | ⟨e, rest, n, _, _, hq, _, _, h'⟩ <;> rw [h']
  · exact .refl b
  · exact happ
  · exact happ.trans (.rtuAccept (rest := rest) (by rw [(rtuAppend_fields x b).1, hq]) n
      (rtuAppend_rxbuf_length x h.rxBound))

/-! ### TCP -/

theorem EmitsLegal.tcpClose (b : Block) : EmitsLegal b (tcpClose b) := by
  rw [tcpClose_eq]
  exact ⟨_, rfl, fun e he => by obtain ⟨x, _, rfl⟩ := List.mem_map.mp he; exact legal_aborted⟩

theorem EmitsLegal.tcpWrDone (tid : U16) (b : Block) : EmitsLegal b (tcpWrDone tid b) := by
  rcases tcpWrDone_cases tid b with ⟨_, h⟩ | ⟨e, _, _, _, h⟩ <;> rw [h]
  · exact .refl b
  · exact .of_out_eq rfl

theorem EmitsLegal.tcpCorrelate (tid : U16) (fc : Byte) {payload : Bytes} (hl : payload.length ≤ 252) (b : Block) :
    EmitsLegal b (tcpCorrelate tid fc payload b) := by
  rcases tcpCorrelate_cases tid fc payload b with ⟨_, h⟩ | ⟨e, _, ⟨_, h⟩ | ⟨_, h⟩⟩ <;> rw [h]
  · exact .one rfl trivial
  · exact .one rfl (legal_finished hl)
  · exact .one rfl (legal_invalid hl)

theorem EmitsLegal.tcpRxb (x : Byte) (b : Block) : EmitsLegal b (tcpRxb x b) := by
  unfold Machine.tcpRxb
  split
  · exact .refl b
  · split
    · exact .refl b
    · refine EmitsLegal.trans (b' := b.setTcpRxbuf (bufAppend Config.tcpRxbufCap b.tcp.rxbuf x)) (.of_out_eq rfl) ?_
      rcases tcpEvaluate_cases (b.setTcpRxbuf (bufAppend Config.tcpRxbufCap b.tcp.rxbuf x)) with
        ⟨_, h⟩ | ⟨_, _, h⟩ | ⟨_, h2, h254, ⟨_, h⟩ | ⟨_, h⟩⟩ <;> rw [h]
      · exact .refl _
      · exact .of_out_eq rfl
      · exact .refl _
      · exact .tcpCorrelate (b := (b.setTcpRxbuf _).setTcpRxbuf _) _ _ (by simp only [length_slice]; omega)

theorem EmitsLegal.tcpTimeout (hf : ∀ x ∈ b.tcp.tt, entryFramed x) (tid : U16) : EmitsLegal b (tcpTimeout tid b) := by
  rcases tcpTimeout_cases tid b with ⟨_, h⟩ | ⟨e, he, ⟨_, h⟩ | ⟨_, h⟩⟩ <;> rw [h]
  · exact .refl b
  · obtain ⟨hv, ha⟩ := hf _ (mem_of_ttGet he)
    exact .one rfl (legal_tcpTx hv ha)
  · exact .one rfl legal_timeout

/-! ### TICK -/

theorem EmitsLegal.expire_rtu (hf : elemsFramed b.rtu.q) {i : TimerId} (hi : i = .rtuDly ∨ i = .rtuRspt) :
    EmitsLegal b (expire b i) := by
  rcases hi with rfl | rfl
  · rw [expire_rtuDly]
    split
    · exact EmitsLegal.trans (.of_out_eq rfl) (EmitsLegal.rtuSend (b := b.setRtuDly b.rtu.dly.stop) hf)
    · exact .refl b
  · rw [expire_rtuRspt]
    split
    · exact EmitsLegal.trans (.of_out_eq rfl) (EmitsLegal.rtuTimeout (b := b.setRtuRspt b.rtu.rspt.stop) hf)
    · exact .refl b

theorem EmitsLegal.expire_tcp (h : TcpInv p b.tcp) (tid : U16) : EmitsLegal b (expire b (.tcpTmr tid)) := by
  rcases expire_tcpTmr_cases tid b with ⟨_, h'⟩ | ⟨e, he, _, h'⟩ <;> rw [h']
  · exact .refl b
  · exact EmitsLegal.trans (.of_out_eq rfl)
      (EmitsLegal.tcpTimeout (b := b.setTcpTt (ttPut tid { e with tmr := e.tmr.stop } b.tcp.tt))
        (h.replace he { e with tmr := e.tmr.stop } rfl rfl rfl rfl).framed tid)

theorem EmitsLegal.tick (hr : RtuInv p b.cfg b.rtu) (ht : TcpInv p b.tcp) : EmitsLegal b (tickBlock b) := by
  have hfold (l : List U16) : ∀ b : Block, TcpInv p b.tcp →
      EmitsLegal b (l.foldl (fun b t => Machine.expire b (.tcpTmr t)) b) := by
    induction l with
    | nil => exact fun b _ => .refl b
    | cons t l ih => exact fun b h => (EmitsLegal.expire_tcp h t).trans (ih _ (h.expire t))
  have hrtu : EmitsLegal b ((expiringRtu b.rtu).foldl Machine.expire (countDownAll b)) := by
    rcases hr.cases with ⟨_, _, hd, hs, _⟩ | ⟨_, _, hs, _⟩ | ⟨_, _, _, _, hd, _⟩
    · have h1 : b.rtu.dly.expires = false := by simp [Timer.expires, hd]
      have h2 : b.rtu.rspt.expires = false := by simp [Timer.expires, hs]
      simp only [expiringRtu, h1, h2]
      exact .of_out_eq rfl
    · have h2 : b.rtu.rspt.expires = false := by simp [Timer.expires, hs]
      cases h1 : b.rtu.dly.expires with
      | false => simp only [expiringRtu, h1, h2]; exact .of_out_eq rfl
      | true =>
        have hl : expiringRtu b.rtu = [.rtuDly] := by simp [expiringRtu, h1, h2]
        rw [hl]
        exact EmitsLegal.trans (b' := countDownAll b) (.of_out_eq rfl)
          (.expire_rtu (b := countDownAll b) hr.framed (.inl rfl))
    · have h1 : b.rtu.dly.expires = false := by simp [Timer.expires, hd]
      cases h2 : b.rtu.rspt.expires with
      | false => simp only [expiringRtu, h1, h2]; exact .of_out_eq rfl
      | true =>
        have hl : expiringRtu b.rtu = [.rtuRspt] := by simp [expiringRtu, h1, h2]
        rw [hl]
        exact EmitsLegal.trans (b' := countDownAll b) (.of_out_eq rfl)
          (.expire_rtu (b := countDownAll b) hr.framed (.inr rfl))
  rw [tickBlock_eq]
  exact hrtu.trans (hfold _ _ (by rw [tickRtu_tcp]; exact ht.countDown))

end Sys2Proof.Machine
end

