-- ==== Sys2Proof/Laws/Exec.lean ====
section
/-! SUPPORT. Everything one operation can do, said once: what it does to the block (`Effect`), to the responses, and to the
rest of the machine. -/

namespace Sys2Proof.Machine

/-- What an operation that is not refused does to the block, with the tests it has passed. -/
inductive Effect (p : Build) : Instr → Block → Block → Prop
  | crcInit (b) : Effect p .crcInit b (b.setCrc 0xFFFF)
  | crcUpd (x b) : Effect p (.crcUpd x) b (b.setCrc (crcStep b.crc x))
  | rtuOpen (b) (closed : b.rtu.isOpen = false) (baud : b.cfg.baud ≠ 0) : Effect p .rtuOpen b (b.setRtuOpen true)
  | rtuClose (b) (opened : b.rtu.isOpen = true) : Effect p .rtuClose b (rtuClose b)
  | rtuSubmit (tag unit fc payload b) (opened : b.rtu.isOpen = true) (valid : pduValid fc payload.length = true)
      (room : b.rtu.q.length ≠ p.rtuQDepth) :
      Effect p (.rtuSubmit tag unit fc payload) b (rtuEnqueue (rtuElem b.cfg tag unit fc payload) b)
  | rtuRxb (x b) : Effect p (.rtuRxb x) b (rtuRxb p.rspSizer x b)
  | rtuWrDone (b) : Effect p .rtuWrDone b (rtuWrDone b)
  | tcpOpen (b) (closed : b.tcp.isOpen = false) : Effect p .tcpOpen b (b.setTcpOpen true)
  | tcpClose (b) (opened : b.tcp.isOpen = true) : Effect p .tcpClose b (tcpClose b)
  | tcpSubmit (tag unit fc payload b tid) (opened : b.tcp.isOpen = true) (valid : pduValid fc payload.length = true)
      (room : b.tcp.tt.length ≠ p.ttDepth) (chosen : chooseTid b.tcp = some tid) :
      Effect p (.tcpSubmit tag unit fc payload) b (tcpEnter tid (tcpEntry b.cfg tid tag unit fc payload) b)
  | tcpRxb (x b) : Effect p (.tcpRxb x) b (tcpRxb x b)
  | tcpWrDone (tid b) : Effect p (.tcpWrDone tid) b (tcpWrDone tid b)
  | cfgWr (idx val b) (writable : idx.toNat ≤ 6) (kept : ¬ (idx = 0 ∧ val = 0 ∧ b.rtu.isOpen = true)) :
      Effect p (.cfgWr idx val) b (b.setCfg (cfgSet idx val b.cfg))
  | tick (b) : Effect p .tick b (tickBlock b)

/-- An operation that goes on is refused, or accepted with a value (`CMD`), or an input event (R113, R326); what it does to
the block is `Effect`, or nothing. -/
theorem exec_cases {i : Instr} {s t : State} (h : exec i s = .next t) :
    (∃ c, t = s.refuse c ∧ portOf i = .cmd) ∨
    (∃ b v, t = s.accept b v ∧ portOf i = .cmd ∧ (b = s.block ∨ Effect s.build i s.block b)) ∨
    (∃ b, t = s.setBlock b ∧ portOf i ≠ .cmd ∧ Effect s.build i s.block b) := by
  cases i <;> simp only [exec] at h
  case nop => cases h; exact .inr (.inl ⟨_, _, rfl, rfl, .inl rfl⟩)
  case crcInit => cases h; exact .inr (.inl ⟨_, _, rfl, rfl, .inr (.crcInit _)⟩)
  case crcUpd => cases h; exact .inr (.inl ⟨_, _, rfl, rfl, .inr (.crcUpd _ _)⟩)
  case crcGet => cases h; exact .inr (.inl ⟨_, _, rfl, rfl, .inl rfl⟩)
  case rtuFrame =>
    unfold execRtuFrame at h
    split at h <;> cases h
    · exact .inr (.inl ⟨_, _, rfl, rfl, .inl rfl⟩)
    · exact .inl ⟨_, rfl, rfl⟩
  case rtuParse =>
    unfold execRtuParse at h
    split at h <;> cases h
    · exact .inl ⟨_, rfl, rfl⟩
    · exact .inr (.inl ⟨_, _, rfl, rfl, .inl rfl⟩)
  case tcpFrame =>
    unfold execTcpFrame at h
    split at h <;> cases h
    · exact .inr (.inl ⟨_, _, rfl, rfl, .inl rfl⟩)
    · exact .inl ⟨_, rfl, rfl⟩
  case tcpParseHdr =>
    unfold execTcpParseHdr at h
    simp only at h
    split at h <;> cases h
    · exact .inl ⟨_, rfl, rfl⟩
    · exact .inr (.inl ⟨_, _, rfl, rfl, .inl rfl⟩)
  case rtuOpen =>
    unfold execRtuOpen at h
    split at h
    · cases h; exact .inl ⟨_, rfl, rfl⟩
    · next ho =>
      split at h <;> cases h
      · exact .inl ⟨_, rfl, rfl⟩
      · next hb => exact .inr (.inl ⟨_, _, rfl, rfl, .inr (.rtuOpen _ (by simpa using ho) hb)⟩)
  case rtuClose =>
    unfold execRtuClose at h
    split at h <;> cases h
    · next ho => exact .inr (.inl ⟨_, _, rfl, rfl, .inr (.rtuClose _ ho)⟩)
    · exact .inl ⟨_, rfl, rfl⟩
  case rtuSubmit =>
    unfold execRtuSubmit at h
    split at h
    · cases h; exact .inl ⟨_, rfl, rfl⟩
    · next ho =>
      split at h
      · cases h; exact .inl ⟨_, rfl, rfl⟩
      · next hv =>
        split at h <;> cases h
        · exact .inl ⟨_, rfl, rfl⟩
        · next hr =>
          exact .inr (.inl ⟨_, _, rfl, rfl, .inr (.rtuSubmit _ _ _ _ _ (by simpa using ho) (by simpa using hv) hr)⟩)
  case rtuRxb => cases h; exact .inr (.inr ⟨_, rfl, by simp [portOf], .rtuRxb _ _⟩)
  case rtuWrDone => cases h; exact .inr (.inr ⟨_, rfl, by simp [portOf], .rtuWrDone _⟩)
  case tcpOpen =>
    unfold execTcpOpen at h
    split at h <;> cases h
    · exact .inl ⟨_, rfl, rfl⟩
    · next ho => exact .inr (.inl ⟨_, _, rfl, rfl, .inr (.tcpOpen _ (by simpa using ho))⟩)
  case tcpClose =>
    unfold execTcpClose at h
    split at h <;> cases h
    · next ho => exact .inr (.inl ⟨_, _, rfl, rfl, .inr (.tcpClose _ ho)⟩)
    · exact .inl ⟨_, rfl, rfl⟩
  case tcpSubmit =>
    unfold execTcpSubmit at h
    split at h
    · cases h; exact .inl ⟨_, rfl, rfl⟩
    · next ho =>
      split at h
      · cases h; exact .inl ⟨_, rfl, rfl⟩
      · next hv =>
        split at h
        · cases h; exact .inl ⟨_, rfl, rfl⟩
        · next hr =>
          split at h <;> cases h
          next hc =>
          exact .inr (.inl ⟨_, _, rfl, rfl,
            .inr (.tcpSubmit _ _ _ _ _ _ (by simpa using ho) (by simpa using hv) hr hc)⟩)
  case tcpRxb => cases h; exact .inr (.inr ⟨_, rfl, by simp [portOf], .tcpRxb _ _⟩)
  case tcpWrDone => cases h; exact .inr (.inr ⟨_, rfl, by simp [portOf], .tcpWrDone _ _⟩)
  case cfgWr =>
    unfold execCfgWr at h
    split at h
    · cases h; exact .inl ⟨_, rfl, rfl⟩
    · next hi =>
      split at h <;> cases h
      · exact .inl ⟨_, rfl, rfl⟩
      · next hb => exact .inr (.inl ⟨_, _, rfl, rfl, .inr (.cfgWr _ _ _ (by omega) hb)⟩)
  case cfgRd =>
    unfold execCfgRd at h
    split at h <;> cases h
    · exact .inr (.inl ⟨_, _, rfl, rfl, .inl rfl⟩)
    · exact .inl ⟨_, rfl, rfl⟩
  case tick => cases h; exact .inr (.inr ⟨_, rfl, by simp [portOf], .tick _⟩)

/-- What an operation that goes on does to the block. -/
theorem exec_effect {i : Instr} {s t : State} (h : exec i s = .next t) :
    t.block = s.block ∨ Effect s.build i s.block t.block := by
  rcases exec_cases h with ⟨c, rfl, _⟩ | ⟨b, v, rfl, _, hb⟩ | ⟨b, rfl, _, hb⟩
  · exact .inl rfl
  · exact hb
  · exact .inr hb

/-- The three kinds of effect: on the RTU side alone, on the TCP side alone, on neither side; or TICK. -/
theorem Effect.kind {p : Build} {i : Instr} {b b' : Block} (h : Effect p i b b') :
    (∃ f, RtuLocal f ∧ b' = f b) ∨ (∃ f, TcpLocal f ∧ b' = f b) ∨
      (b'.rtu = b.rtu ∧ b'.tcp = b.tcp ∧ b'.out = b.out) ∨ (i = .tick ∧ b' = tickBlock b) := by
  cases h
  case crcInit => exact .inr (.inr (.inl ⟨rfl, rfl, rfl⟩))
  case crcUpd => exact .inr (.inr (.inl ⟨rfl, rfl, rfl⟩))
  case rtuOpen => exact .inl ⟨_, rtuLocal_open, rfl⟩
  case rtuClose => exact .inl ⟨_, rtuLocal_close, rfl⟩
  case rtuSubmit => exact .inl ⟨_, rtuLocal_enqueue _, rfl⟩
  case rtuRxb => exact .inl ⟨_, rtuLocal_rxb _ _, rfl⟩
  case rtuWrDone => exact .inl ⟨_, rtuLocal_wrDone, rfl⟩
  case tcpOpen => exact .inr (.inl ⟨_, tcpLocal_open, rfl⟩)
  case tcpClose => exact .inr (.inl ⟨_, tcpLocal_close, rfl⟩)
  case tcpSubmit => exact .inr (.inl ⟨_, tcpLocal_enter _ _, rfl⟩)
  case tcpRxb => exact .inr (.inl ⟨_, tcpLocal_rxb _, rfl⟩)
  case tcpWrDone => exact .inr (.inl ⟨_, tcpLocal_wrDone _, rfl⟩)
  case cfgWr => exact .inr (.inr (.inl ⟨rfl, rfl, rfl⟩))
  case tick => exact .inr (.inr (.inr ⟨rfl, rfl⟩))

end Sys2Proof.Machine
end

