-- ==== Sys2Proof/Laws/PerInstr.lean ====
section
/-! SUPPORT. Statements made for every instruction: one family, one lemma per constructor of Instr. -/

open Sys2Proof Sys2Proof.Machine

/-- 30_encoding.md R111: the length read off the first bytes of a well-formed instruction's command word is the length
of that word. `tableBytes` rests on it. -/
def Sys2Proof.Laws.WordLength.Statement (i : Instr) : Prop :=
  i.wf = true → wordLength (byteAt (encode i)) = (encode i).length

namespace Sys2Proof.Laws.WordLength

theorem nop : Statement .nop := fun _ => rfl

theorem crcInit : Statement .crcInit := fun _ => rfl

theorem crcUpd (b : Byte) : Statement (.crcUpd b) := fun _ => rfl

theorem crcGet : Statement .crcGet := fun _ => rfl

theorem rtuFrame (unit fc : Byte) (payload : Bytes) : Statement (.rtuFrame unit fc payload) := fun h => by
  change 4 + (BitVec.ofNat 8 payload.length).toNat = payload.length + 4
  rw [toNat_ofNat8 (payloadFits_iff.mp h), Nat.add_comm]

theorem rtuParse (adu : Bytes) : Statement (.rtuParse adu) := fun h => by
  have h : adu.length ≤ 65535 := of_decide_eq_true h
  change 3 + (word16 ((BitVec.ofNat 16 adu.length).extractLsb' 8 8)
    ((BitVec.ofNat 16 adu.length).extractLsb' 0 8)).toNat = adu.length + 3
  rw [word16_halves, toNat_ofNat16 h, Nat.add_comm]

theorem tcpFrame (tid : U16) (unit fc : Byte) (payload : Bytes) : Statement (.tcpFrame tid unit fc payload) := fun h => by
  change 6 + (BitVec.ofNat 8 payload.length).toNat = payload.length + 6
  rw [toNat_ofNat8 (payloadFits_iff.mp h), Nat.add_comm]

theorem tcpParseHdr (hdr : Bytes) : Statement (.tcpParseHdr hdr) := fun h => by
  have h : hdr.length = 7 := of_decide_eq_true h
  change 8 = hdr.length + 1
  rw [h]

theorem rtuOpen : Statement .rtuOpen := fun _ => rfl

theorem rtuClose : Statement .rtuClose := fun _ => rfl

theorem rtuSubmit (tag : U16) (unit fc : Byte) (payload : Bytes) : Statement (.rtuSubmit tag unit fc payload) := fun h => by
  change 6 + (BitVec.ofNat 8 payload.length).toNat = payload.length + 6
  rw [toNat_ofNat8 (payloadFits_iff.mp h), Nat.add_comm]

theorem rtuRxb (b : Byte) : Statement (.rtuRxb b) := fun _ => rfl

theorem rtuWrDone : Statement .rtuWrDone := fun _ => rfl

theorem tcpOpen : Statement .tcpOpen := fun _ => rfl

theorem tcpClose : Statement .tcpClose := fun _ => rfl

theorem tcpSubmit (tag : U16) (unit fc : Byte) (payload : Bytes) : Statement (.tcpSubmit tag unit fc payload) := fun h => by
  change 6 + (BitVec.ofNat 8 payload.length).toNat = payload.length + 6
  rw [toNat_ofNat8 (payloadFits_iff.mp h), Nat.add_comm]

theorem tcpRxb (b : Byte) : Statement (.tcpRxb b) := fun _ => rfl

theorem tcpWrDone (tid : U16) : Statement (.tcpWrDone tid) := fun _ => rfl

theorem cfgWr (idx : Byte) (val : U32) : Statement (.cfgWr idx val) := fun _ => rfl

theorem cfgRd (idx : Byte) : Statement (.cfgRd idx) := fun _ => rfl

theorem tick : Statement .tick := fun _ => rfl

end Sys2Proof.Laws.WordLength
end

