-- ==== Sys2Proof/Tests/Slice0.lean ====
section
/-! SUPPORT. Tests. Every expected value is one of spec/ (95_test_vectors.md V<n>, P<n>, S<n>; else the rule named), none
is the model's own answer. Then one witness for the hypotheses of each obligation that has hypotheses. -/

namespace Sys2Proof.Tests

open Sys2Proof Sys2Proof.Machine

-- One proof after another: in the package as one text, each proof that waits for the kernel would hold a thread.
set_option Elab.async false

/-! ### Small states -/

/-- The build of the conventions of 95_test_vectors.md: depths 8, the default table, `RESET_*` = 0. -/
def bench : Build :=
  { rtuQDepthLess1 := 7, ttDepthLess1 := 7, rspSizer := defaultSizer,
    resetRtuTimeout := 0, resetRtuRetries := 0, resetTcpTimeout := 0, resetTcpRetries := 0 }

/-- After reset. -/
def fresh : State := { build := bench, block := Block.atReset bench, input := [], rsp := [] }

/-- Configured: 9600 baud, timeouts 100, no RTU retries, one TCP retry. -/
def cfg : Cfg :=
  { baud := 9600, ifdOvr := 0, turnaround := 100, rtuTimeout := 100, rtuRetries := 0, tcpTimeout := 100, tcpRetries := 1 }

def closedRtu : Rtu := fresh.block.rtu
def closedTcp : Tcp := fresh.block.tcp

/-- The two transports, configured, with nothing presented, emitted or answered. -/
def bring (rtu : Rtu) (tcp : Tcp) : State :=
  { fresh with block := { fresh.block with rtu := rtu, tcp := tcp, cfg := cfg } }

/-- An element as RTU.SUBMIT queues it. -/
def request (tag : U16) (unit fc : Byte) (p : Bytes) (retries : Nat) : Elem :=
  { tag := tag, unit := unit, fc := fc, payload := p, retries := retries, adu := rtuFrame unit fc p }

/-- RTU open and idle, no request queued. -/
def idleRtu : Rtu := { closedRtu with isOpen := true }

/-- RTU with a request scheduled in `n` ticks. -/
def scheduled (n : U32) (q : List Elem) : Rtu := { idleRtu with dly := { armed := true, cnt := n }, q := q }

/-- RTU waiting for a reply to its head element, its response timer at `n`, with bytes received. -/
def awaiting (n : U32) (q : List Elem) (buf : Bytes) : Rtu :=
  { idleRtu with st := .waitingForReply, rspt := { armed := true, cnt := n }, q := q, rxbuf := buf }

/-- RTU with a broadcast in flight: no response timer. -/
def broadcasting (q : List Elem) : Rtu := { idleRtu with st := .waitingForReply, q := q }

/-- A table entry as TCP.SUBMIT makes it. -/
def outstanding (tid tag : U16) (retries : Nat) (tmr : Timer) : U16 × Entry :=
  (tid, { elem := { tag := tag, unit := 1, fc := 3, payload := [0x00, 0x00, 0x00, 0x01], retries := retries,
                    adu := tcpFrame tid 1 3 [0x00, 0x00, 0x00, 0x01] }
          tmr := tmr })

def notArmed : Timer := { armed := false, cnt := 0 }
def armedAt (n : U32) : Timer := { armed := true, cnt := n }

/-- TCP open, with these entries and bytes received. -/
def openTcp (next : U16) (tt : TransTable) (buf : Bytes) : Tcp :=
  { closedTcp with isOpen := true, nextTid := next, tt := tt, rxbuf := buf }

/-- `s` with one byte string presented. -/
def present (w : Bytes) (s : State) : State := { s with input := [.word w] }

/-- What a next state shows. -/
def see {α : Type} (f : State → α) : Host.Outcome State Fault Refusal → Option α
  | .next t => some (f t)
  | .fault _ | .refused _ => none

/-- The response bytes on `RSP` (R113). -/
def said (s : State) : List Bytes := s.rsp.map Response.bytes

/-- The requests of 95_test_vectors.md. -/
def read1 : Elem := request 1 1 3 [0x00, 0x00, 0x00, 0x01] 0
def shout : Elem := request 9 0 6 [0x00, 0x01, 0x00, 0x03] 0
def echo4 : Elem := request 2 1 8 [0x00, 0x00, 0xA5, 0x37] 0

/-- The three outstanding requests of V17. -/
def three : TransTable := [outstanding 0 1 1 notArmed, outstanding 1 2 1 notArmed, outstanding 2 3 1 notArmed]

/-! ### Ill-formed terms (30_encoding.md R110, R111) are refused -/

theorem test_illformed_rtuFrame (u c : Byte) : (Instr.rtuFrame u c (List.replicate 256 0)).wf = false := by
  simp only [Instr.wf, payloadFits, List.length_replicate]; decide

theorem test_illformed_tcpFrame (t : U16) (u c : Byte) : (Instr.tcpFrame t u c (List.replicate 256 0)).wf = false := by
  simp only [Instr.wf, payloadFits, List.length_replicate]; decide

theorem test_illformed_rtuSubmit (t : U16) (u c : Byte) : (Instr.rtuSubmit t u c (List.replicate 256 0)).wf = false := by
  simp only [Instr.wf, payloadFits, List.length_replicate]; decide

theorem test_illformed_tcpSubmit (t : U16) (u c : Byte) : (Instr.tcpSubmit t u c (List.replicate 256 0)).wf = false := by
  simp only [Instr.wf, payloadFits, List.length_replicate]; decide

theorem test_illformed_rtuParse : (Instr.rtuParse (List.replicate 65536 0)).wf = false := by
  simp only [Instr.wf, List.length_replicate]; decide

theorem test_illformed_tcpParseHdr :
    (Instr.tcpParseHdr [0, 0, 0, 0, 0, 0]).wf = false ∧ (Instr.tcpParseHdr [0, 0, 0, 0, 0, 0, 0, 0]).wf = false := by decide

/-! ### Decoding: one written-out word per constructor (V9, V11, V12) -/

theorem test_decode_nop : decode [0x00] = .op .nop [] := by decide
theorem test_decode_crcInit : decode [0x01] = .op .crcInit [] := by decide
theorem test_decode_crcUpd : decode [0x02, 0x0A] = .op (.crcUpd 0x0A) [] := by decide
theorem test_decode_crcGet : decode [0x03] = .op .crcGet [] := by decide
theorem test_decode_rtuFrame : decode [0x10, 0x01, 0x05, 0x04, 0x00, 0xAC, 0xFF, 0x00] =
    .op (.rtuFrame 0x01 0x05 [0x00, 0xAC, 0xFF, 0x00]) [] := by decide
theorem test_decode_rtuParse : decode [0x11, 0x00, 0x05, 0x01, 0x85, 0x02, 0xC3, 0x51] =
    .op (.rtuParse [0x01, 0x85, 0x02, 0xC3, 0x51]) [] := by decide
theorem test_decode_tcpFrame : decode [0x12, 0x00, 0x01, 0x01, 0x83, 0x01, 0x02] =
    .op (.tcpFrame 0x0001 0x01 0x83 [0x02]) [] := by decide
theorem test_decode_tcpParseHdr : decode [0x13, 0x12, 0x34, 0x00, 0x00, 0x00, 0x05, 0x01] =
    .op (.tcpParseHdr [0x12, 0x34, 0x00, 0x00, 0x00, 0x05, 0x01]) [] := by decide
theorem test_decode_rtuOpen : decode [0x20] = .op .rtuOpen [] := by decide
theorem test_decode_rtuClose : decode [0x21] = .op .rtuClose [] := by decide
theorem test_decode_rtuSubmit : decode [0x22, 0x00, 0x07, 0x01, 0x03, 0x04, 0x00, 0x00, 0x00, 0x0A] =
    .op (.rtuSubmit 7 0x01 0x03 [0x00, 0x00, 0x00, 0x0A]) [] := by decide
theorem test_decode_rtuRxb : decode [0x23, 0x55] = .op (.rtuRxb 0x55) [] := by decide
theorem test_decode_rtuWrDone : decode [0x24] = .op .rtuWrDone [] := by decide
theorem test_decode_tcpOpen : decode [0x30] = .op .tcpOpen [] := by decide
theorem test_decode_tcpClose : decode [0x31] = .op .tcpClose [] := by decide
theorem test_decode_tcpSubmit : decode [0x32, 0x00, 0x01, 0x01, 0x03, 0x04, 0x00, 0x00, 0x00, 0x0A] =
    .op (.tcpSubmit 1 0x01 0x03 [0x00, 0x00, 0x00, 0x0A]) [] := by decide
theorem test_decode_tcpRxb : decode [0x33, 0x00] = .op (.tcpRxb 0x00) [] := by decide
theorem test_decode_tcpWrDone : decode [0x34, 0x00, 0x02] = .op (.tcpWrDone 0x0002) [] := by decide
theorem test_decode_cfgWr : decode [0x40, 0x00, 0x00, 0x00, 0x25, 0x80] = .op (.cfgWr 0 9600) [] := by decide
theorem test_decode_cfgRd : decode [0x41, 0x07] = .op (.cfgRd 7) [] := by decide
theorem test_decode_tick : decode [0x7F] = .op .tick [] := by decide
theorem test_decode_reserved : decode [0x04] = .reserved 0x04 [] ∧ decode [0xFF, 0x01] = .reserved 0xFF [0x01] := by decide

/-- A word of the table's numbering: byte 0 in bits 7..0. `CFG.WR 0 9600` of V12, and a word with an operand too long
for the bits given (its operand bytes are zero). -/
theorem test_decodeTableWord :
    decodeTableWord 48 0x802500000040 = some (.cfgWr 0 9600) ∧
    decodeTableWord 8 0x13 = some (.tcpParseHdr [0, 0, 0, 0, 0, 0, 0]) := by decide

/-- `withFetchWord` presents exactly that instruction: `CFG.RD 2` after reset answers 100 (V20). -/
theorem test_withFetchWord : see said (step (fresh.withFetchWord 16 0x0241)) = some [[0x00, 0x00, 0x00, 0x00, 0x64]] := by
  decide

/-! ### One step each -/

theorem test_nop : see said (step (present [0x00] fresh)) = some [[0x00]] := by decide

/-- P1 row 1, from another remainder. -/
theorem test_crcInit : see (·.block.crc) (exec .crcInit { fresh with block := { fresh.block with crc := 0x1234 } }) =
    some 0xFFFF := by decide

/-- V2. -/
theorem test_crcUpd : see (·.block.crc) (exec (.crcUpd 0x01) fresh) = some 0x807E := by decide

/-- P1 row 8. -/
theorem test_crcGet : see said (exec .crcGet { fresh with block := { fresh.block with crc := 0xCDC5 } }) =
    some [[0x00, 0xC5, 0xCD]] := by decide

/-- V9. -/
theorem test_rtuFrame : see said (step (present [0x10, 0x01, 0x05, 0x04, 0x00, 0xAC, 0xFF, 0x00] fresh)) =
    some [[0x00, 0x00, 0x08, 0x01, 0x05, 0x00, 0xAC, 0xFF, 0x00, 0x4C, 0x1B]] := by decide +kernel

theorem test_rtuFrame_badPdu : see said (step (present [0x10, 0x01, 0x80, 0x01, 0x01] fresh)) = some [[0x03]] := by decide

theorem test_rtuParse : see said (step (present [0x11, 0x00, 0x05, 0x01, 0x85, 0x02, 0xC3, 0x51] fresh)) =
    some [[0x00, 0x01, 0x85, 0x01, 0x02, 0x01]] := by decide +kernel

theorem test_rtuParse_badCrc : see said (step (present [0x11, 0x00, 0x05, 0x01, 0x85, 0x02, 0xC3, 0x50] fresh)) =
    some [[0x00, 0x01, 0x85, 0x01, 0x02, 0x00]] := by decide +kernel

/-- V11. -/
theorem test_tcpFrame : see said (step (present [0x12, 0x00, 0x01, 0x01, 0x83, 0x01, 0x02] fresh)) =
    some [[0x00, 0x00, 0x09, 0x00, 0x01, 0x00, 0x00, 0x00, 0x03, 0x01, 0x83, 0x02]] := by decide

theorem test_tcpParseHdr : see said (step (present [0x13, 0x00, 0x00, 0x00, 0x00, 0xFF, 0xFF, 0x00] fresh)) =
    some [[0x00, 0x00, 0x00, 0x00, 0x00, 0xFF, 0xFF, 0x00, 0xFF, 0xFE]] := by decide

theorem test_tcpParseHdr_badLen : see said (step (present [0x13, 0x00, 0x01, 0x00, 0x00, 0x00, 0x00, 0x01] fresh)) =
    some [[0x08]] := by decide

/-- V16: right after reset `CFG_BAUD` is 0. -/
theorem test_rtuOpen_badCfg : see said (exec .rtuOpen fresh) = some [[0x05]] := by decide

theorem test_rtuOpen : see (fun t => (t.block.rtu, said t)) (exec .rtuOpen (bring closedRtu closedTcp)) =
    some (idleRtu, [[0x00]]) := by decide

/-- S8, P6 row 15: the head in flight is aborted like the others. -/
theorem test_rtuClose : see (fun t => (t.block.rtu.isOpen, t.block.rtu.q, t.block.out))
    (exec .rtuClose (bring (awaiting 7 [read1, echo4] [0x01, 0x03]) closedTcp)) =
    some (false, [], [.done .rtu 1 .error .replyAbortedError 0 [], .done .rtu 2 .error .replyAbortedError 0 []]) := by decide

/-- P2 row 5: queued with its ADU, `RTU_DLY` armed(5). -/
theorem test_rtuSubmit : see (fun t => (t.block.rtu.q.map Elem.adu, t.block.rtu.dly, said t))
    (exec (.rtuSubmit 7 1 3 [0x00, 0x00, 0x00, 0x0A]) (bring idleRtu closedTcp)) =
    some ([[0x01, 0x03, 0x00, 0x00, 0x00, 0x0A, 0xC5, 0xCD]], armedAt 5, [[0x00]]) := by decide +kernel

theorem test_rtuSubmit_notOpen : see said (exec (.rtuSubmit 1 1 3 []) fresh) = some [[0x01]] := by decide

/-- V14, V15 (both Diagnostics frames and a bad CRC), the last byte of each. -/
theorem test_rtuRxb : see (fun t => (t.block.out, t.block.rtu.rxbuf, t.block.rtu.st))
    (exec (.rtuRxb 0x85) (bring (awaiting 100 [read1] [0x01, 0x03, 0x02, 0x00, 0x01, 0x79]) closedTcp)) =
    some ([.ierr .rtu 1 .responseCrcError], [], .waitingForReply) := by decide +kernel

theorem test_rtuRxb_echo : see (fun t => (t.block.out, t.block.rtu.rspt.armed, t.block.rtu.st))
    (exec (.rtuRxb 0x8D) (bring (awaiting 100 [echo4] [0x01, 0x08, 0x00, 0x00, 0xA5, 0x37, 0xDA]) closedTcp)) =
    some ([.done .rtu 2 .finished .noError 0x08 [0x00, 0x00, 0xA5, 0x37]], false, .idle) := by decide +kernel

/-- P4 row 7: `RTU_DLY` armed with the turnaround delay. -/
theorem test_rtuWrDone : see (fun t => (t.block.out, t.block.rtu.dly))
    (exec .rtuWrDone (bring (broadcasting [shout, read1]) closedTcp)) =
    some ([.done .rtu 9 .finished .noError 0 []], armedAt 100) := by decide

theorem test_tcpOpen : see (fun t => (t.block.tcp.isOpen, said t)) (exec .tcpOpen fresh) = some (true, [[0x00]]) := by decide

/-- R262, P6 rows 16 and 17: ascending ids, and the id counter survives. -/
theorem test_tcpClose : see (fun t => (t.block.tcp, t.block.out))
    (exec .tcpClose (bring closedRtu (openTcp 3 three [0x00]))) =
    some ({ closedTcp with nextTid := 3 },
      [.done .tcp 1 .error .replyAbortedError 0 [], .done .tcp 2 .error .replyAbortedError 0 [],
       .done .tcp 3 .error .replyAbortedError 0 []]) := by decide

/-- V18 row 3: ids 4 and 5 outstanding. -/
theorem test_tcpSubmit : see (fun t => (said t, t.block.tcp.nextTid, ttKeys t.block.tcp.tt))
    (exec (.tcpSubmit 9 1 3 [0x00, 0x00, 0x00, 0x01])
      (bring closedRtu (openTcp 4 [outstanding 4 1 1 notArmed, outstanding 5 2 1 notArmed] []))) =
    some ([[0x00, 0x00, 0x06]], 7, [4, 5, 6]) := by decide

/-- V18 row 2: the counter wraps; V10: the frame written. -/
theorem test_tcpSubmit_wraps : see (fun t => (said t, t.block.tcp.nextTid, t.block.out))
    (exec (.tcpSubmit 9 0xFF 0x7F []) (bring closedRtu (openTcp 0xFFFF [] []))) =
    some ([[0x00, 0xFF, 0xFF]], 0, [.tcpTx [0xFF, 0xFF, 0x00, 0x00, 0x00, 0x02, 0xFF, 0x7F]]) := by decide

/-- V17 row 2, the last byte. -/
theorem test_tcpRxb : see (fun t => (t.block.out, ttKeys t.block.tcp.tt, t.block.tcp.rxbuf))
    (exec (.tcpRxb 0x02) (bring closedRtu (openTcp 3 three
      [0x00, 0x01, 0x00, 0x00, 0x00, 0x07, 0x01, 0x03, 0x04, 0x00, 0x01, 0x00]))) =
    some ([.done .tcp 2 .finished .noError 0x03 [0x04, 0x00, 0x01, 0x00, 0x02]], [0, 2], []) := by decide

/-- V17: length 255 is a fault; `STATUS` reads 0x82. -/
theorem test_tcpRxb_fault : see (fun t => (t.block.tcp.rxbuf, statusView t.block))
    (exec (.tcpRxb 0x01) (bring closedRtu (openTcp 3 three [0x00, 0x01, 0x00, 0x00, 0x00, 0xFF]))) =
    some ([], 0x82) := by decide

/-- V19. -/
theorem test_tcpWrDone : see (fun t => t.block.tcp.tt.map fun p => p.2.tmr)
    (exec (.tcpWrDone 1) (bring closedRtu (openTcp 2 [outstanding 0 1 1 (armedAt 90), outstanding 1 2 1 notArmed] []))) =
    some [armedAt 90, armedAt 100] := by decide

/-- V20. -/
theorem test_cfgWr : see (fun t => (t.block.cfg.rtuTimeout, said t))
    (step (present [0x40, 0x03, 0x00, 0x00, 0x03, 0xE8] fresh)) = some (1000, [[0x00]]) := by decide

theorem test_cfgWr_badReg : see said (step (present [0x40, 0x07, 0x00, 0x00, 0x00, 0x00] fresh)) = some [[0x06]] := by decide

theorem test_cfgRd : see said (step (present [0x41, 0x02] fresh)) = some [[0x00, 0x00, 0x00, 0x00, 0x64]] := by decide

/-- P6 row 14: `STATUS` 0x27, both transports open and RTU waiting for a reply. -/
theorem test_cfgRd_status : see said (exec (.cfgRd 7) (bring (awaiting 997 [read1] []) (openTcp 3 three []))) =
    some [[0x00, 0x00, 0x00, 0x00, 0x27]] := by decide

/-- R218, P3 row 6: the send of a scheduled request. -/
theorem test_tick_send : see (fun t => (t.block.out, t.block.rtu.rspt))
    (exec .tick (bring (scheduled 1 [read1]) closedTcp)) =
    some ([.serTx [0x01, 0x03, 0x00, 0x00, 0x00, 0x01, 0x84, 0x0A]], armedAt 100) := by decide +kernel

/-- V22: the RTU handlers, then the TCP entries by id. -/
theorem test_tick_order : see (fun t => t.block.out)
    (exec .tick (bring (awaiting 1 [read1] [])
      (openTcp 2 [outstanding 0 2 0 (armedAt 1), outstanding 1 3 0 (armedAt 0)] []))) =
    some [.done .rtu 1 .error .timeoutError 0 [], .done .tcp 2 .error .timeoutError 0 [],
      .done .tcp 3 .error .timeoutError 0 []] := by decide

/-- V13. -/
theorem test_ifd : ([110, 150, 300, 600, 1200, 2400, 4800, 9600, 14400, 19199, 19200, 115200, 1].map ifdFloor) =
    [350, 257, 129, 65, 33, 17, 9, 5, 3, 3, 2, 2, 38500] := by decide

/-- V4. -/
theorem test_crc16_check : crc16 [0x31, 0x32, 0x33, 0x34, 0x35, 0x36, 0x37, 0x38, 0x39] = 0x4B37 := by decide +kernel

/-- R113, V12: a reserved opcode is one byte, refused with 7; what follows it is the next word. -/
theorem test_reserved : see (fun t => (said t, t.input)) (step (present [0xFF, 0x00] fresh)) =
    some ([[0x07]], [.word [0x00]]) := by decide

/-! ### Witnesses: the hypotheses of each obligation that has some are met, clause by clause -/

/-- A payload of `n` bytes. -/
def zeros (n : Nat) : Bytes := List.replicate n 0

@[simp] theorem length_zeros (n : Nat) : (zeros n).length = n := List.length_replicate ..

/-- RTU scheduled, TCP with three requests outstanding. -/
def busy : State := bring (scheduled 5 [read1, shout]) (openTcp 3 three [])

/-- RTU waiting for a reply, with retries left. -/
def waiting : State := bring (awaiting 100 [request 1 1 3 [0x00, 0x00, 0x00, 0x01] 2, shout] []) (openTcp 3 three [])

/-- RTU waiting for a reply, with no retries left. -/
def lastTry : State := bring (awaiting 100 [read1] []) (openTcp 3 three [])

/-- RTU idle, TCP open. -/
def quiet : State := bring idleRtu (openTcp 3 three [])

/-- A broadcast in flight, TCP closed. -/
def shouting : State := bring (broadcasting [shout, read1]) closedTcp

theorem three_inv : TcpInv bench (openTcp 3 three []) :=
  ⟨by unfold ttSorted; decide, by decide, by decide, by unfold entryFramed; decide, by decide, by decide, by decide⟩

theorem closedTcp_inv : TcpInv bench closedTcp :=
  ⟨by unfold ttSorted; decide, by decide, by decide, by unfold entryFramed; decide, by decide, by decide, by decide⟩

theorem busy_inv : busy.Inv :=
  ⟨⟨by decide, by decide, by decide, by decide, by decide, by decide, by decide, by decide +kernel, by decide, by decide⟩,
    three_inv, fun _ h => nomatch h⟩

theorem waiting_inv : waiting.Inv :=
  ⟨⟨by decide, by decide, fun _ => ⟨rfl, _, rfl, by decide⟩, by decide, by decide, fun _ => ⟨_, rfl, fun _ => rfl⟩,
    by decide, by decide +kernel, by decide, by decide⟩, three_inv, fun _ h => nomatch h⟩

theorem lastTry_inv : lastTry.Inv :=
  ⟨⟨by decide, by decide, fun _ => ⟨rfl, _, rfl, by decide⟩, by decide, by decide, fun _ => ⟨_, rfl, fun _ => rfl⟩,
    by decide, by decide +kernel, by decide, by decide⟩, three_inv, fun _ h => nomatch h⟩

theorem shouting_inv : shouting.Inv :=
  ⟨⟨by decide, by decide, by decide, by decide, by decide, fun _ => ⟨_, rfl, by decide⟩,
    by decide, by decide +kernel, by decide, by decide⟩, closedTcp_inv, fun _ h => nomatch h⟩

theorem fresh_inv : fresh.Inv :=
  ⟨⟨by decide, by decide, by decide, by decide, by decide, by decide, by decide, by decide, by decide, by decide⟩,
    closedTcp_inv, fun _ h => nomatch h⟩

/-! #### Command words and the step -/

theorem witness_StepRunsThePresentedOperation :
    (present [0x02, 0x0A, 0x7F] fresh).input = .word [0x02, 0x0A, 0x7F] :: [] ∧
    decode [0x02, 0x0A, 0x7F] = .op (.crcUpd 0x0A) [0x7F] := by decide +kernel

/-- Nothing presented; no byte; a word that ends inside its operands. -/
theorem witness_StepWithoutAnOperation :
    fresh.input = [] ∧
    (∀ i rest, ([] : Bytes) ≠ encode i ++ rest ∨ i.wf = false) ∧
    (∀ i rest, ([0x34, 0x00] : Bytes) ≠ encode i ++ rest ∨ i.wf = false) ∧
    (∀ op, ([0x34, 0x00] : Bytes).head? = some op → ¬ reservedOpcode op) := by
  refine ⟨rfl, fun i rest => .inl nofun, fun i rest => .inl ?_, by rintro op ⟨⟩; decide⟩
  cases i <;> simp [encode, Instr.opcode, Instr.operands, be16]

/-- Both ends of each range. -/
theorem witness_ReservedOpcodeIsRefusedAfterOneByte :
    (∀ op ∈ ([0x04, 0x0F, 0x14, 0x1F, 0x25, 0x2F, 0x35, 0x3F, 0x42, 0x7E, 0x80, 0xFF] : Bytes), reservedOpcode op) ∧
    (present [0xFF] fresh).input = .word (0xFF :: []) :: [] := by decide +kernel

theorem witness_DecodeAndEncodeAgree :
    (Instr.rtuFrame 1 3 []).wf = true ∧ (Instr.tcpSubmit 0xFFFF 0xFF 0xFF (zeros 255)).wf = true ∧
    (Instr.rtuParse (zeros 65535)).wf = true ∧ (Instr.tcpParseHdr (zeros 7)).wf = true ∧
    (Instr.cfgWr 0xFF 0xFFFFFFFF).wf = true := by
  simp only [Instr.wf, payloadFits, length_zeros]; decide

theorem witness_DecodedWordsAreEncodings : decode [0x23, 0x55, 0x24] = .op (.rtuRxb 0x55) [0x24] := by decide +kernel

theorem witness_CommandWordsAreConsumedWhole :
    (252 < (zeros 253).length ∧ (zeros 253).length ≤ 255 ∧ 252 < (zeros 255).length ∧ (zeros 255).length ≤ 255) ∧
    busy.block.rtu.isOpen = true ∧ busy.block.tcp.isOpen = true ∧
    ((zeros 3).length < 4 ∧ 256 < (zeros 257).length ∧ (zeros 257).length ≤ 65535 ∧ (zeros 65535).length ≤ 65535) ∧
    (present (encode (.rtuParse (zeros 257)) ++ [0x7F]) busy).input =
      .word (encode (.rtuParse (zeros 257)) ++ [0x7F]) :: [] := by
  simp only [length_zeros]
  exact ⟨by decide +kernel, rfl, rfl, by decide +kernel, rfl⟩

/-! #### Reset and the invariant -/

theorem witness_ResetEventSetsEveryElement :
    ({ busy with input := [.reset, .word [0x00]] } : State).input = .reset :: [.word [0x00]] := rfl

theorem witness_StepKeepsTheInvariant :
    busy.Inv ∧ (present [0x7F] busy).Inv ∧ see (fun _ => ()) (step (present [0x7F] busy)) = some () := by
  exact ⟨busy_inv, ⟨busy_inv.rtu, busy_inv.tcp, busy_inv.out⟩, by decide +kernel⟩

/-! #### CRC and framers -/

theorem witness_CrcIsIncrementalWithZeroResidue : 4 ≤ ([0x01, 0x03, 0x40, 0x21] : Bytes).length := by decide +kernel

/-- The first and the last bit of the shortest and the longest frame. -/
theorem witness_EverySingleBitErrorIsDetected :
    0 < 8 * (([] : Bytes).length + 4) ∧ 31 < 8 * (([] : Bytes).length + 4) ∧ 2047 < 8 * ((zeros 252).length + 4) := by
  simp

/-- One code and one prefix for each class; the largest size of each variable class. -/
theorem witness_ResponseSizeByClassIsStable :
    0x80 ≤ (0x80 : Byte).toNat ∧ (0x7F : Byte).toNat < 0x80 ∧
    sizeClassOf defaultSizer 0x16 = .fixed 6 ∧ sizeClassOf defaultSizer 0x2B = .unknown ∧
    sizeClassOf defaultSizer 0x03 = .byteCount1 ∧ sizeClassOf defaultSizer 0x18 = .fifo16 ∧
    rspDataSize defaultSizer 0x03 [0xFF] = some 256 ∧ rspDataSize defaultSizer 0x18 [0xFF, 0xFF] = some 65537 := by decide +kernel

theorem witness_RtuFrameBuildsTheAdu :
    ((zeros 252).length ≤ 252 ∧ (0x7F : Byte) ≠ 0x00 ∧ (0x81 : Byte) ≠ 0x80) ∧ 252 < (zeros 253).length := by simp

theorem witness_RtuParseTakesTheAduApart :
    ((zeros 3).length < 4 ∧ 256 < (zeros 257).length) ∧
    (([0x01, 0x03, 0x40, 0x21] : Bytes) = [0x01, 0x03] ++ [] ++ [0x40, 0x21] ∧
      ([0x01, 0x03, 0x40, 0x21] : Bytes).length ≤ 256) ∧
    ([0x01, 0x03] ++ zeros 252 ++ [0x40, 0x21]).length ≤ 256 := by simp

theorem witness_RtuFrameAndParseAreInverse :
    4 ≤ ([0x01, 0x03, 0x40, 0x21] : Bytes).length ∧ (rtuParse [0x01, 0x03, 0x40, 0x21]).crcValid = true := by decide +kernel

theorem witness_TcpFrameBuildsTheAdu :
    ((zeros 252).length ≤ 252 ∧ (0x7F : Byte) ≠ 0x00 ∧ (0x81 : Byte) ≠ 0x80) ∧ 252 < (zeros 253).length := by simp

/-- Length fields 0, 1 and 65535. -/
theorem witness_TcpParseHdrReadsTheHeader :
    (0x00 : Byte).toNat * 256 + (0x00 : Byte).toNat = 0 ∧ (0x00 : Byte).toNat * 256 + (0x01 : Byte).toNat ≠ 0 ∧
    (0xFF : Byte).toNat * 256 + (0xFF : Byte).toNat ≠ 0 := by decide +kernel

theorem witness_TcpFrameReadsBack : (zeros 0).length ≤ 252 ∧ (zeros 252).length ≤ 252 := by simp

/-! #### RTU transport -/

theorem witness_InterFrameDelay :
    cfg.baud ≠ 0 ∧ (1 : U32) ≠ 0 ∧ (1 : U32).toNat < 19200 ∧ (19199 : U32).toNat < 19200 ∧ 19200 ≤ (19200 : U32).toNat := by
  decide +kernel

theorem witness_RtuOpen :
    quiet.block.rtu.isOpen = true ∧ (fresh.block.rtu.isOpen = false ∧ fresh.block.cfg.baud = 0) ∧
    ((bring closedRtu closedTcp).block.rtu.isOpen = false ∧ (bring closedRtu closedTcp).block.cfg.baud ≠ 0) := by decide +kernel

theorem witness_RtuCloseAbortsAll : fresh.block.rtu.isOpen = false ∧ busy.block.rtu.isOpen = true := by decide +kernel

/-- Closed; open with a PDU of 253 bytes; full; room for one more. -/
theorem witness_RtuSubmitQueuesAndSchedules :
    fresh.block.rtu.isOpen = false ∧
    (quiet.block.rtu.isOpen = true ∧ 252 < (zeros 253).length) ∧
    ((zeros 252).length ≤ 252 ∧ (0x7F : Byte) ≠ 0x00 ∧ (0x81 : Byte) ≠ 0x80) ∧
    ((bring (scheduled 5 (List.replicate 8 read1)) closedTcp).block.rtu.isOpen = true ∧
      (bring (scheduled 5 (List.replicate 8 read1)) closedTcp).block.rtu.q.length = bench.rtuQDepth) ∧
    (bring (scheduled 5 (List.replicate 7 read1)) closedTcp).block.rtu.q.length ≠ bench.rtuQDepth := by
  simp only [length_zeros]; decide +kernel

/-- A broadcast in flight; closed; not waiting; a head that is no broadcast. -/
theorem witness_RtuWrDoneCompletesABroadcast :
    (shouting.block.rtu.isOpen = true ∧ shouting.block.rtu.st = .waitingForReply ∧
      shouting.block.rtu.q = shout :: [read1] ∧ shout.unit = 0) ∧
    fresh.block.rtu.isOpen = false ∧ busy.block.rtu.st ≠ .waitingForReply ∧
    (∀ e, waiting.block.rtu.q.head? = some e → e.unit ≠ 0) := by
  refine ⟨by decide +kernel, rfl, by decide +kernel, ?_⟩
  rintro e ⟨⟩; decide

theorem witness_RtuByteOutsideAWaitIsOnlyStored :
    fresh.block.rtu.isOpen = false ∧ (busy.block.rtu.isOpen = true ∧ busy.block.rtu.st ≠ .waitingForReply) ∧
    (shouting.block.rtu.isOpen = true ∧ ∀ e, shouting.block.rtu.q.head? = some e → e.unit = 0) := by
  refine ⟨rfl, by decide +kernel, rfl, ?_⟩
  rintro e ⟨⟩; rfl

/-- V14 and V15: one byte; an echo not whole; an echo that differs; a frame not sized; a frame not whole. -/
theorem witness_RtuIncompleteFrameWaits :
    (waiting.block.rtu.isOpen = true ∧ waiting.block.rtu.st = .waitingForReply ∧
      waiting.block.rtu.q = request 1 1 3 [0x00, 0x00, 0x00, 0x01] 2 :: [shout] ∧
      (request 1 1 3 [0x00, 0x00, 0x00, 0x01] 2).unit ≠ 0 ∧ (withByte 0x01 waiting.block.rtu).rxbuf.length < 2) ∧
    (echo4.fc = 0x08 ∧ (∃ r, echo4.payload = 0x00 :: 0x00 :: r) ∧ echo4.unit = 1 ∧
      (withByte 0xDA (awaiting 9 [echo4] [0x01, 0x08, 0x00, 0x00, 0xA5, 0x37])).rxbuf.length < 4 + echo4.payload.length ∧
      ((withByte 0x89 (awaiting 9 [echo4] [0x01, 0x08, 0x00, 0x00, 0xA5, 0x38, 0x9A])).rxbuf.drop 2).take
        echo4.payload.length ≠ echo4.payload) ∧
    (read1.fc ≠ 0x08 ∧ (withByte 0x2B (awaiting 9 [read1] [0x01])).rxbuf[1]? = some 0x2B ∧
      rspDataSize defaultSizer 0x2B ((withByte 0x2B (awaiting 9 [read1] [0x01])).rxbuf.drop 2) = none) ∧
    ((withByte 0x02 (awaiting 9 [read1] [0x01, 0x03])).rxbuf[1]? = some 0x03 ∧
      rspDataSize defaultSizer 0x03 ((withByte 0x02 (awaiting 9 [read1] [0x01, 0x03])).rxbuf.drop 2) = some 3 ∧
      (withByte 0x02 (awaiting 9 [read1] [0x01, 0x03])).rxbuf.length < 2 + 3 + 2) := by
  exact ⟨by decide +kernel, ⟨rfl, ⟨_, rfl⟩, rfl, by decide +kernel, by decide +kernel⟩, by decide +kernel, by decide +kernel⟩

/-- V14 and V15: a bad CRC, another unit, a match, and the echo case, the byte that completes each frame. -/
theorem witness_RtuWholeFrameIsAccepted :
    (lastTry.block.rtu.isOpen = true ∧ lastTry.block.rtu.st = .waitingForReply ∧ lastTry.block.rtu.q = [read1] ∧
      read1.unit ≠ 0 ∧ read1.fc ≠ 0x08 ∧ rspDataSize defaultSizer 0x03 [0x02, 0x00, 0x01, 0x79, 0x84] = some 3) ∧
    ((withByte 0x85 (awaiting 9 [read1] [0x01, 0x03, 0x02, 0x00, 0x01, 0x79])).rxbuf =
        [0x01, 0x03] ++ [0x02, 0x00, 0x01] ++ [0x79, 0x85] ++ [] ∧
      crc16 ([0x01, 0x03] ++ [0x02, 0x00, 0x01]) ≠ (0x85 : Byte) ++ (0x79 : Byte)) ∧
    ((withByte 0x84 (awaiting 9 [read1] [0x02, 0x03, 0x02, 0x00, 0x01, 0x3D])).rxbuf =
        [0x02, 0x03] ++ [0x02, 0x00, 0x01] ++ [0x3D, 0x84] ++ [] ∧
      crc16 ([0x02, 0x03] ++ [0x02, 0x00, 0x01]) = (0x84 : Byte) ++ (0x3D : Byte) ∧ (0x02 : Byte) ≠ read1.unit) ∧
    (crc16 ([0x01, 0x03] ++ [0x02, 0x00, 0x01]) = (0x84 : Byte) ++ (0x79 : Byte) ∧
      (0x01 : Byte) = read1.unit ∧ (0x03 : Byte) &&& 0x7F = read1.fc &&& 0x7F) ∧
    ((withByte 0x8D (awaiting 9 [echo4] [0x01, 0x08, 0x00, 0x00, 0xA5, 0x37, 0xDA])).rxbuf =
        [0x01, 0x08] ++ echo4.payload ++ [0xDA, 0x8D] ++ [] ∧
      crc16 ([0x01, 0x08] ++ echo4.payload) = (0x8D : Byte) ++ (0xDA : Byte) ∧ (0x01 : Byte) = echo4.unit) := by
  decide +kernel

/-- The delay timer at 1 and at 0, with and without a request. -/
theorem witness_TickSendsTheHead :
    ((scheduled 1 [read1]).dly.armed = true ∧ (scheduled 1 [read1]).dly.cnt.toNat ≤ 1 ∧
      (scheduled 1 [read1]).rspt.armed = false ∧ (scheduled 1 [read1]).q = read1 :: []) ∧
    ((scheduled 0 []).dly.armed = true ∧ (scheduled 0 []).dly.cnt.toNat ≤ 1 ∧ (scheduled 0 []).rspt.armed = false ∧
      (scheduled 0 []).q = []) := by decide +kernel

/-- The head with retries left, with none left, and an empty queue. -/
theorem witness_TickResendsOrFailsTheHead :
    ((awaiting 1 [request 1 1 3 [0x00, 0x00, 0x00, 0x01] 1] []).rspt.armed = true ∧
      (awaiting 1 [request 1 1 3 [0x00, 0x00, 0x00, 0x01] 1] []).rspt.cnt.toNat ≤ 1 ∧
      (awaiting 1 [request 1 1 3 [0x00, 0x00, 0x00, 0x01] 1] []).dly.armed = false ∧
      (awaiting 1 [request 1 1 3 [0x00, 0x00, 0x00, 0x01] 1] []).st = .waitingForReply ∧
      (awaiting 1 [request 1 1 3 [0x00, 0x00, 0x00, 0x01] 1] []).q = request 1 1 3 [0x00, 0x00, 0x00, 0x01] 1 :: [] ∧
      0 < (request 1 1 3 [0x00, 0x00, 0x00, 0x01] 1).retries) ∧
    ((awaiting 1 [echo4] []).rspt.armed = true ∧ (awaiting 1 [echo4] []).rspt.cnt.toNat ≤ 1 ∧
      (awaiting 1 [echo4] []).dly.armed = false ∧ (awaiting 1 [echo4] []).st = .waitingForReply ∧
      (awaiting 1 [echo4] []).q = echo4 :: [] ∧ echo4.retries = 0) ∧
    ((awaiting 0 [] []).rspt.armed = true ∧ (awaiting 0 [] []).rspt.cnt.toNat ≤ 1 ∧ (awaiting 0 [] []).q = []) := by decide +kernel

/-- `d` = 5: before and at the fifth TICK. -/
theorem witness_ScheduledRequestIsSentOnItsTick :
    busy.Inv ∧ busy.block.rtu.dly.armed = true ∧ busy.block.rtu.q = read1 :: [shout] ∧
    0 < max busy.block.rtu.dly.cnt.toNat 1 ∧ 4 < max busy.block.rtu.dly.cnt.toNat 1 ∧
    5 = max busy.block.rtu.dly.cnt.toNat 1 := ⟨busy_inv, by decide +kernel⟩

/-- Two retries left, and none. -/
theorem witness_UnansweredRequestIsResentThenFails :
    (waiting.Inv ∧ waiting.block.rtu.st = .waitingForReply ∧
      waiting.block.rtu.q = request 1 1 3 [0x00, 0x00, 0x00, 0x01] 2 :: [shout] ∧
      (request 1 1 3 [0x00, 0x00, 0x00, 0x01] 2).unit ≠ 0 ∧
      waiting.block.rtu.rspt.cnt = waiting.block.cfg.rtuTimeout) ∧
    (lastTry.Inv ∧ lastTry.block.rtu.st = .waitingForReply ∧ lastTry.block.rtu.q = read1 :: [] ∧ read1.unit ≠ 0 ∧
      lastTry.block.rtu.rspt.cnt = lastTry.block.cfg.rtuTimeout) := ⟨⟨waiting_inv, by decide +kernel⟩, lastTry_inv, by decide +kernel⟩

theorem witness_RtuRequestsCompleteOnceInOrder :
    ∃ t, exec .rtuWrDone shouting = .next t ∧ doneTags .rtu t.block.out = [9] := ⟨_, rfl, by decide +kernel⟩

theorem witness_ClosedRtuTransportIsSilent :
    fresh.Inv ∧ fresh.block.rtu.isOpen = false ∧ Instr.tick ≠ .rtuOpen ∧ ∃ t, exec .tick fresh = .next t :=
  ⟨fresh_inv, rfl, by decide +kernel, _, rfl⟩

/-! #### TCP transport -/

theorem witness_TcpOpen : quiet.block.tcp.isOpen = true ∧ fresh.block.tcp.isOpen = false := by decide +kernel

theorem witness_TcpCloseAbortsAll :
    ttSorted fresh.block.tcp.tt ∧ fresh.block.tcp.isOpen = false ∧ ttSorted busy.block.tcp.tt ∧
    busy.block.tcp.isOpen = true := ⟨fresh_inv.tcp.sorted, rfl, busy_inv.tcp.sorted, rfl⟩

/-- Closed; open with a PDU of 253 bytes; full (of depth 3); room. -/
theorem witness_TcpSubmitChoosesAFreeIdAndWrites :
    (fresh.Inv ∧ fresh.block.tcp.isOpen = false) ∧ (busy.Inv ∧ busy.block.tcp.isOpen = true) ∧
    (252 < (zeros 253).length ∧ (zeros 252).length ≤ 252 ∧ (0x7F : Byte) ≠ 0x00 ∧ (0x81 : Byte) ≠ 0x80) ∧
    busy.block.tcp.tt.length ≠ busy.build.ttDepth ∧
    busy.block.tcp.tt.length = ({ bench with ttDepthLess1 := 2 } : Build).ttDepth ∧
    State.Inv { busy with build := { bench with ttDepthLess1 := 2 } } := by
  refine ⟨⟨fresh_inv, rfl⟩, ⟨busy_inv, rfl⟩, by simp, by decide +kernel, by decide +kernel, ⟨?_, ?_, busy_inv.out⟩⟩
  · exact { busy_inv.rtu with qBound := busy_inv.rtu.qBound }
  · exact { busy_inv.tcp with countBound := by decide +kernel }

/-- An entry not armed; a closed transport; no entry; an armed entry. -/
theorem witness_TcpWrDoneArmsTheTimer :
    (ttSorted quiet.block.tcp.tt ∧ quiet.block.tcp.isOpen = true ∧
      ttGet 1 quiet.block.tcp.tt = some (outstanding 1 2 1 notArmed).2 ∧ (outstanding 1 2 1 notArmed).2.tmr.armed = false) ∧
    fresh.block.tcp.isOpen = false ∧ ttGet 9 quiet.block.tcp.tt = none ∧
    (ttGet 0 [outstanding 0 1 1 (armedAt 90)] = some (outstanding 0 1 1 (armedAt 90)).2 ∧
      (outstanding 0 1 1 (armedAt 90)).2.tmr.armed = true) :=
  ⟨⟨three_inv.sorted, by decide +kernel⟩, by decide +kernel⟩

/-- V17 rows 1 and 10, the length fields 2 and 254: a header with no whole ADU behind it; and the two drops. -/
theorem witness_TcpByteIsDroppedOrOnlyStored :
    fresh.block.tcp.isOpen = false ∧ ({ openTcp 3 three [] with rxfault := true } : Tcp).rxfault = true ∧
    (quiet.block.tcp.isOpen = true ∧ quiet.block.tcp.rxfault = false ∧ quiet.block.tcp.rxbuf.length < 260 ∧
      (quiet.block.tcp.rxbuf ++ [0x00]).length < 7) ∧
    (2 ≤ (0x00 : Byte).toNat * 256 + (0xFE : Byte).toNat ∧ (0x00 : Byte).toNat * 256 + (0xFE : Byte).toNat ≤ 254 ∧
      ([0x00, 0x01, 0x00, 0x00, 0x00, 0xFE] ++ [0x01] : Bytes).length < 6 + ((0x00 : Byte).toNat * 256 + (0xFE : Byte).toNat)) ∧
    (2 ≤ (0x00 : Byte).toNat * 256 + (0x02 : Byte).toNat ∧
      ([0x00, 0x01, 0x00, 0x00, 0x00, 0x02] ++ [0x01] : Bytes).length < 6 + ((0x00 : Byte).toNat * 256 + (0x02 : Byte).toNat)) := by
  decide +kernel

/-- V17 rows 8 and 9: length fields 1 and 255. -/
theorem witness_TcpBadLengthFaultsTheReceiver :
    (quiet.block.tcp.isOpen = true ∧ quiet.block.tcp.rxfault = false ∧
      ([0x00, 0x01, 0x00, 0x00, 0x00, 0x01] : Bytes).length < 260 ∧
      ([0x00, 0x01, 0x00, 0x00, 0x00, 0x01] ++ [0x01] : Bytes) = [0x00, 0x01, 0x00, 0x00, 0x00, 0x01, 0x01] ++ [] ∧
      (0x00 : Byte).toNat * 256 + (0x01 : Byte).toNat < 2 ∧ 254 < (0x00 : Byte).toNat * 256 + (0xFF : Byte).toNat) ∧
    ({ openTcp 3 three [] with rxfault := true } : Tcp).rxfault = true := by decide +kernel

/-- V17: a matched response, one badly formed, an unmatched id, and the shortest ADU (length 2). -/
theorem witness_TcpWholeAduIsCorrelated :
    (ttSorted quiet.block.tcp.tt ∧ quiet.block.tcp.isOpen = true ∧ quiet.block.tcp.rxfault = false ∧
      ([0x00, 0x01, 0x00, 0x00, 0x00, 0x03, 0x01, 0x83] ++ [0x02] : Bytes) =
        [0x00, 0x01, 0x00, 0x00, 0x00, 0x03, 0x01, 0x83] ++ [0x02] ++ [] ∧
      (0x00 : Byte).toNat * 256 + (0x03 : Byte).toNat = ([0x02] : Bytes).length + 2 ∧ ([0x02] : Bytes).length ≤ 252 ∧
      ttGet ((0x00 : Byte) ++ (0x01 : Byte)) quiet.block.tcp.tt = some (outstanding 1 2 1 notArmed).2) ∧
    (0x00 : Byte).toNat * 256 + (0x02 : Byte).toNat = ([] : Bytes).length + 2 ∧
    ttGet ((0x12 : Byte) ++ (0x34 : Byte)) quiet.block.tcp.tt = none :=
  ⟨⟨three_inv.sorted, by decide +kernel⟩, by decide +kernel, by decide +kernel⟩

theorem witness_TickActsOnEachEntryForItself :
    ttSorted [outstanding 0 2 0 (armedAt 1), outstanding 1 3 0 (armedAt 0)] ∧ ttSorted busy.block.tcp.tt := by
  unfold ttSorted; decide

theorem witness_TcpRequestsCompleteOnce : busy.Inv ∧ ∃ t, exec .tcpClose busy = .next t ∧ doneTags .tcp t.block.out = [1, 2, 3] :=
  ⟨busy_inv, _, rfl, by decide +kernel⟩

/-! #### Configuration and TICK -/

/-- Index 7; `CFG.WR 0 0` on an open transport; the same on a closed one, and index 6. -/
theorem witness_CfgWrWritesOneRegister :
    6 < (7 : Byte).toNat ∧ ((0 : Byte) = 0 ∧ (0 : U32) = 0 ∧ quiet.block.rtu.isOpen = true) ∧
    ((0 : Byte).toNat ≤ 6 ∧ ¬ ((0 : Byte) = 0 ∧ (0 : U32) = 0 ∧ fresh.block.rtu.isOpen = true)) ∧
    ((6 : Byte).toNat ≤ 6 ∧ (6 : Byte) ≠ 0) := by decide +kernel

theorem witness_CfgRdReadsRegistersAndViews :
    [fresh.block.cfg.baud, fresh.block.cfg.ifdOvr, fresh.block.cfg.turnaround, fresh.block.cfg.rtuTimeout,
      fresh.block.cfg.rtuRetries, fresh.block.cfg.tcpTimeout, fresh.block.cfg.tcpRetries][(6 : Byte).toNat]? = some 0 ∧
    busy.block.rtu.q.length < 2 ^ 32 ∧ busy.block.tcp.tt.length < 2 ^ 32 ∧ 10 < (11 : Byte).toNat := by decide +kernel

theorem witness_TickWithNoTimerArmedChangesNothing :
    quiet.block.rtu.dly.armed = false ∧ quiet.block.rtu.rspt.armed = false ∧
    ∀ p ∈ quiet.block.tcp.tt, p.2.tmr.armed = false := by decide +kernel

theorem witness_TickCountsArmedTimersDown :
    (busy.block.rtu.dly.armed = true ∧ 1 < busy.block.rtu.dly.cnt.toNat ∧ busy.block.rtu.rspt.armed = false) ∧
    (waiting.block.rtu.rspt.armed = true ∧ 1 < waiting.block.rtu.rspt.cnt.toNat ∧ waiting.block.rtu.dly.armed = false) := by
  decide +kernel

/-! #### Whole-machine rules -/

theorem witness_RefusedOperationChangesNothing :
    ∃ t, exec .rtuOpen fresh = .next t ∧ t.rsp = fresh.rsp ++ [.refused .badCfg] := ⟨_, rfl, rfl⟩

theorem witness_OneResponsePerCommand :
    (portOf .nop = .cmd ∧ ∃ t, exec .nop fresh = .next t) ∧ portOf .tick ≠ .cmd ∧ ∃ t, exec .tick fresh = .next t :=
  ⟨⟨rfl, _, rfl⟩, by decide +kernel, _, rfl⟩

theorem witness_OutputIsOnlyAppendedTo : ∃ t, exec .rtuWrDone shouting = .next t := ⟨_, rfl⟩

theorem witness_EveryOperationCompletes : fresh.Inv ∧ busy.Inv ∧ waiting.Inv ∧ shouting.Inv :=
  ⟨fresh_inv, busy_inv, waiting_inv, shouting_inv⟩

theorem witness_OnlyTheRaisedErrorCodesAreEmitted :
    ∃ t, exec .rtuWrDone shouting = .next t ∧
      t.block.out = shouting.block.out ++ [.done .rtu 9 .finished .noError 0 []] := ⟨_, rfl, by decide +kernel⟩

theorem witness_EachElementHasItsWriters : ∃ t, exec .nop busy = .next t := ⟨_, rfl⟩

/-- `waiting` at another baud rate. -/
def fasterBaud : State := { waiting with block := { waiting.block with cfg := { cfg with baud := 19200 } } }

/-- Two machines with the same RTU side and different TCP sides; two with the same TCP side, different RTU sides and
another baud rate. -/
theorem witness_TransportsDoNotInterfere :
    (shouting.build = (bring shouting.block.rtu (openTcp 3 three [])).build ∧
      shouting.block.cfg = (bring shouting.block.rtu (openTcp 3 three [])).block.cfg ∧
      shouting.block.rtu = (bring shouting.block.rtu (openTcp 3 three [])).block.rtu ∧
      ∃ t t', exec .rtuWrDone shouting = .next t ∧
        exec .rtuWrDone (bring shouting.block.rtu (openTcp 3 three [])) = .next t' ∧
        t.block.out = shouting.block.out ++ [.done .rtu 9 .finished .noError 0 []] ∧
        t'.block.out = [] ++ [.done .rtu 9 .finished .noError 0 []]) ∧
    (busy.build = fasterBaud.build ∧ busy.block.tcp = fasterBaud.block.tcp ∧
      busy.block.cfg.tcpTimeout = fasterBaud.block.cfg.tcpTimeout ∧
      busy.block.cfg.tcpRetries = fasterBaud.block.cfg.tcpRetries ∧
      ∃ t t', exec (.tcpWrDone 1) busy = .next t ∧ exec (.tcpWrDone 1) fasterBaud = .next t' ∧
        t.block.out = busy.block.out ++ [] ∧ t'.block.out = fasterBaud.block.out ++ []) ∧
    (Instr.tcpWrDone 1) ≠ .tick :=
  ⟨⟨rfl, rfl, rfl, _, _, rfl, rfl, by decide +kernel, by decide +kernel⟩, ⟨rfl, rfl, rfl, rfl, _, _, rfl, rfl, rfl, rfl⟩, nofun⟩

theorem witness_ClosedTcpTransportIsSilent :
    fresh.Inv ∧ fresh.block.tcp.isOpen = false ∧ (Instr.tcpRxb 0x55) ≠ .tcpOpen ∧
    ∃ t, exec (.tcpRxb 0x55) fresh = .next t := ⟨fresh_inv, rfl, nofun, _, rfl⟩

end Sys2Proof.Tests
end

section
/-! PROOFS. The statements of 10_state.md: the reset event (O8), the output trace (O55), and which operations write which
state element (O58). -/

namespace Sys2Proof.Machine

/-! ### Reset -/

theorem step_reset {s : State} {later : List Presented} (h : s.input = .reset :: later) :
    step s = .next (s.applyReset later) := by simp only [step, h]

/-! ### OUT only grows -/

theorem RtuLocal.out_grows {f : Block → Block} (h : RtuLocal f) (b : Block) : b.out <+: (f b).out := by
  obtain ⟨new, ho, _⟩ := h.out b
  exact ⟨new, ho.symm⟩

theorem TcpLocal.out_grows {f : Block → Block} (h : TcpLocal f) (b : Block) : b.out <+: (f b).out := by
  obtain ⟨new, ho, _⟩ := h.out b
  exact ⟨new, ho.symm⟩

theorem tickBlock_out_grows (b : Block) : b.out <+: (tickBlock b).out := by
  rw [tickBlock_eq]
  exact ((rtuLocal_expiringRtu b.rtu).out_grows (countDownAll b)).trans ((tcpLocal_expiringTcp b.tcp.tt).out_grows _)

theorem Effect.out_grows {p : Build} {i : Instr} {b b' : Block} (h : Effect p i b b') : b.out <+: b'.out := by
  rcases h.kind with ⟨f, hf, rfl⟩ | ⟨f, hf, rfl⟩ | ⟨_, _, ho⟩ | ⟨_, rfl⟩
  · exact hf.out_grows b
  · exact hf.out_grows b
  · exact ⟨[], by rw [ho, List.append_nil]⟩
  · exact tickBlock_out_grows b

/-- Nothing but the block and the responses is written by an operation (R55, log 1). -/
theorem exec_build_input {i : Instr} {s t : State} (h : exec i s = .next t) : t.build = s.build ∧ t.input = s.input := by
  rcases exec_cases h with ⟨c, rfl, _⟩ | ⟨b, v, rfl, _, _⟩ | ⟨b, rfl, _, _⟩ <;> exact ⟨rfl, rfl⟩

/-! ### The part of the block an operation writes -/

/-- The operations of the RTU transport. -/
def rtuOp : Instr → Bool
  | .rtuOpen | .rtuClose | .rtuSubmit _ _ _ _ | .rtuRxb _ | .rtuWrDone => true
  | _ => false

/-- The operations of the TCP transport. -/
def tcpOp : Instr → Bool
  | .tcpOpen | .tcpClose | .tcpSubmit _ _ _ _ | .tcpRxb _ | .tcpWrDone _ => true
  | _ => false

theorem rtuOp_eq_false {i : Instr} (hi : i ∉ [.rtuOpen, .rtuClose, .rtuWrDone, .tick]) (hx : ∀ b, i ≠ .rtuRxb b)
    (hs : ∀ g u c p, i ≠ .rtuSubmit g u c p) : rtuOp i = false ∧ i ≠ .tick := by
  cases i
  case rtuRxb => exact absurd rfl (hx _)
  case rtuSubmit => exact absurd rfl (hs _ _ _ _)
  all_goals simp_all [rtuOp]

theorem tcpOp_eq_false {i : Instr} (hi : i ∉ [.tcpOpen, .tcpClose, .tick]) (hx : ∀ b, i ≠ .tcpRxb b)
    (hw : ∀ k, i ≠ .tcpWrDone k) (hs : ∀ g u c p, i ≠ .tcpSubmit g u c p) : tcpOp i = false ∧ i ≠ .tick := by
  cases i
  case tcpRxb => exact absurd rfl (hx _)
  case tcpWrDone => exact absurd rfl (hw _)
  case tcpSubmit => exact absurd rfl (hs _ _ _ _)
  all_goals simp_all [tcpOp]

/-- One part of the block is written, by an operation of that part; or it is a TICK. -/
inductive WritesOwnPart : Instr → Block → Block → Prop
  | crc {i} (c b) (hi : i = .crcInit ∨ ∃ x, i = .crcUpd x) : WritesOwnPart i b (b.setCrc c)
  | cfg (idx v c b) : WritesOwnPart (.cfgWr idx v) b (b.setCfg c)
  | rtu {i f} (b) (hi : rtuOp i = true) (hf : RtuLocal f) : WritesOwnPart i b (f b)
  | tcp {i f} (b) (hi : tcpOp i = true) (hf : TcpLocal f) : WritesOwnPart i b (f b)
  | tick (b) : WritesOwnPart .tick b (tickBlock b)

section
variable {p : Build} {i : Instr} {b b' : Block}

theorem Effect.writesOwnPart (h : Effect p i b b') : WritesOwnPart i b b' := by
  cases h
  case crcInit => exact .crc _ _ (.inl rfl)
  case crcUpd x => exact .crc _ _ (.inr ⟨x, rfl⟩)
  case rtuOpen => exact .rtu _ rfl rtuLocal_open
  case rtuClose => exact .rtu _ rfl rtuLocal_close
  case rtuSubmit => exact .rtu _ rfl (rtuLocal_enqueue _)
  case rtuRxb => exact .rtu _ rfl (rtuLocal_rxb _ _)
  case rtuWrDone => exact .rtu _ rfl rtuLocal_wrDone
  case tcpOpen => exact .tcp _ rfl tcpLocal_open
  case tcpClose => exact .tcp _ rfl tcpLocal_close
  case tcpSubmit => exact .tcp _ rfl (tcpLocal_enter _ _)
  case tcpRxb => exact .tcp _ rfl (tcpLocal_rxb _)
  case tcpWrDone => exact .tcp _ rfl (tcpLocal_wrDone _)
  case cfgWr => exact .cfg _ _ _ _
  case tick => exact .tick _

theorem WritesOwnPart.crc_eq (h : WritesOwnPart i b b') (hi : i ≠ .crcInit) (hu : ∀ x, i ≠ .crcUpd x) :
    b'.crc = b.crc := by
  cases h with
  | crc c b hc =>
    rcases hc with rfl | ⟨x, rfl⟩
    · exact absurd rfl hi
    · exact absurd rfl (hu x)
  | cfg => rfl
  | rtu b _ hf => exact hf.crc b
  | tcp b _ hf => exact hf.crc b
  | tick b => exact tickBlock_crc b

theorem WritesOwnPart.cfg_eq (h : WritesOwnPart i b b') (hi : ∀ idx v, i ≠ .cfgWr idx v) : b'.cfg = b.cfg := by
  cases h with
  | crc => rfl
  | cfg idx v => exact absurd rfl (hi idx v)
  | rtu b _ hf => exact hf.cfg b
  | tcp b _ hf => exact hf.cfg b
  | tick b => exact tickBlock_cfg b

theorem WritesOwnPart.rtu_eq (h : WritesOwnPart i b b') (hi : rtuOp i = false) (ht : i ≠ .tick) :
    b'.rtu = b.rtu ∧ rtuTrace b'.out = rtuTrace b.out := by
  cases h with
  | crc | cfg => exact ⟨rfl, rfl⟩
  | rtu b hr => exact absurd hr (by simp [hi])
  | tcp b _ hf => exact ⟨hf.rtu b, hf.rtuTrace b⟩
  | tick => exact absurd rfl ht

theorem WritesOwnPart.tcp_eq (h : WritesOwnPart i b b') (hi : tcpOp i = false) (ht : i ≠ .tick) :
    b'.tcp = b.tcp ∧ tcpTrace b'.out = tcpTrace b.out := by
  cases h with
  | crc | cfg => exact ⟨rfl, rfl⟩
  | rtu b _ hf => exact ⟨hf.tcp b, hf.tcpTrace b⟩
  | tcp b hc => exact absurd hc (by simp [hi])
  | tick => exact absurd rfl ht
end

/-! ### The RTU open flag and the overflow flag (R22, R30) -/

/-- `RTU_OPEN` and `RTU_RXOVF` are the same in both blocks. -/
structure SameRtuFlags (b b' : Block) : Prop where
  isOpen : b'.rtu.isOpen = b.rtu.isOpen
  rxovf  : b'.rtu.rxovf = b.rtu.rxovf

theorem SameRtuFlags.of_rtu_eq {b b' : Block} (h : b'.rtu = b.rtu) : SameRtuFlags b b' := ⟨by rw [h], by rw [h]⟩

theorem SameRtuFlags.refl (b : Block) : SameRtuFlags b b := ⟨rfl, rfl⟩

theorem SameRtuFlags.trans {a b c : Block} (h : SameRtuFlags a b) (h' : SameRtuFlags b c) : SameRtuFlags a c :=
  ⟨h'.isOpen.trans h.isOpen, h'.rxovf.trans h.rxovf⟩

theorem SameRtuFlags.enqueue (e : Elem) (b : Block) : SameRtuFlags b (rtuEnqueue e b) := by
  rw [rtuEnqueue_eq]; exact ⟨rfl, rfl⟩

theorem SameRtuFlags.wrDone (b : Block) : SameRtuFlags b (rtuWrDone b) := by
  rcases rtuWrDone_cases b with h | ⟨e, rest, _, _, hq, _, h⟩ <;> rw [h]
  · exact .refl b
  · rw [rtuBroadcastDone_eq hq]; exact ⟨rtuKick_isOpen _ _, rtuKick_rxovf _ _⟩

theorem SameRtuFlags.send (b : Block) : SameRtuFlags b (rtuSend b) := by
  cases hq : b.rtu.q with
  | nil => rw [rtuSend_nil hq]; exact .refl b
  | cons e rest => rw [rtuSend_cons hq]; exact ⟨rfl, rfl⟩

theorem SameRtuFlags.timeout (b : Block) : SameRtuFlags b (rtuTimeout b) := by
  rcases rtuTimeout_cases b with ⟨_, h⟩ | ⟨e, rest, _, hq, ⟨_, h⟩ | ⟨_, h⟩⟩ <;> rw [h]
  · exact .refl b
  · rw [rtuResend_eq hq]; exact ⟨rfl, rfl⟩
  · rw [rtuFail_eq hq]; exact ⟨rtuKick_isOpen _ _, rtuKick_rxovf _ _⟩

theorem SameRtuFlags.expire (i : TimerId) (b : Block) : SameRtuFlags b (expire b i) := by
  cases i with
  | rtuDly =>
    rw [expire_rtuDly]
    split
    · exact SameRtuFlags.trans (b := b.setRtuDly b.rtu.dly.stop) ⟨rfl, rfl⟩ (.send _)
    · exact .refl b
  | rtuRspt =>
    rw [expire_rtuRspt]
    split
    · exact SameRtuFlags.trans (b := b.setRtuRspt b.rtu.rspt.stop) ⟨rfl, rfl⟩ (.timeout _)
    · exact .refl b
  | tcpTmr t => exact .of_rtu_eq ((tcpLocal_expire t).rtu b)

/-- The timers of a TICK in their turn, whichever they are. -/
theorem SameRtuFlags.foldl_expire (ids : List TimerId) (b : Block) : SameRtuFlags b (ids.foldl Machine.expire b) := by
  induction ids generalizing b with
  | nil => exact .refl b
  | cons i ids ih => exact (SameRtuFlags.expire i b).trans (ih _)

theorem SameRtuFlags.tick (b : Block) : SameRtuFlags b (tickBlock b) :=
  SameRtuFlags.trans (b := countDownAll b) ⟨rfl, rfl⟩ (.foldl_expire (expiring b) _)

theorem rtuAccept_isOpen (e : Elem) (n : Nat) (b : Block) : (rtuAccept e n b).rtu.isOpen = b.rtu.isOpen := by
  rcases rtuAccept_cases e n b with ⟨_, h⟩ | ⟨_, _, h⟩ | ⟨_, _, _, h⟩ <;> rw [h]
  · rfl
  · rfl
  · simp [rtuReplyDone]

theorem rtuRxb_isOpen (z : Sizer) (x : Byte) (b : Block) : (rtuRxb z x b).rtu.isOpen = b.rtu.isOpen := by
  have happ : (rtuAppend x b).rtu.isOpen = b.rtu.isOpen := (rtuAppend_fields x b).2.1
  rcases rtuRxb_cases z x b with ⟨_, h⟩ | ⟨_, h⟩ | ⟨e, _, n, _, _, _, _, _, h⟩ <;> rw [h]
  · exact happ
  · rw [rtuAccept_isOpen, happ]

/-- `RTU_OPEN` changes at most by open and close, `RTU_RXOVF` by a received byte and close (R22, R30). -/
structure RtuFlagsByWriters (i : Instr) (b b' : Block) : Prop where
  isOpen : i ≠ .rtuOpen → i ≠ .rtuClose → b'.rtu.isOpen = b.rtu.isOpen
  rxovf  : i ≠ .rtuClose → (∀ x, i ≠ .rtuRxb x) → b'.rtu.rxovf = b.rtu.rxovf

theorem SameRtuFlags.byWriters {i : Instr} {b b' : Block} (h : SameRtuFlags b b') : RtuFlagsByWriters i b b' :=
  ⟨fun _ _ => h.isOpen, fun _ _ => h.rxovf⟩

theorem Effect.rtuFlagsByWriters {p : Build} {i : Instr} {b b' : Block} (h : Effect p i b b') :
    RtuFlagsByWriters i b b' := by
  have hw := h.writesOwnPart
  cases h
  case rtuOpen => exact ⟨fun ho => absurd rfl ho, fun _ _ => rfl⟩
  case rtuClose => exact ⟨fun _ hc => absurd rfl hc, fun hc => absurd rfl hc⟩
  case rtuRxb x => exact ⟨fun _ _ => rtuRxb_isOpen _ x b, fun _ hx => absurd rfl (hx x)⟩
  case rtuSubmit => exact SameRtuFlags.byWriters (.enqueue _ b)
  case rtuWrDone => exact SameRtuFlags.byWriters (.wrDone b)
  case tick => exact SameRtuFlags.byWriters (.tick b)
  case crcInit | crcUpd | tcpOpen | tcpClose | tcpSubmit | tcpRxb | tcpWrDone | cfgWr =>
    exact SameRtuFlags.byWriters (.of_rtu_eq (hw.rtu_eq rfl nofun).1)

/-! ### The TCP open flag, the id counter and the fault flag (R32, R34, R36) -/

/-- Of the TCP elements at most the transaction table differs. -/
def SameButTable (b b' : Block) : Prop := ∃ tt, b'.tcp = { b.tcp with tt := tt }

theorem SameButTable.of_tcp_eq {b b' : Block} (h : b'.tcp = b.tcp) : SameButTable b b' := ⟨b.tcp.tt, h⟩

theorem SameButTable.trans {a b c : Block} (h : SameButTable a b) (h' : SameButTable b c) : SameButTable a c := by
  obtain ⟨_, h⟩ := h
  obtain ⟨tt, h'⟩ := h'
  exact ⟨tt, by rw [h', h]⟩

theorem SameButTable.wrDone (tid : U16) (b : Block) : SameButTable b (tcpWrDone tid b) := by
  rcases tcpWrDone_cases tid b with ⟨_, h⟩ | ⟨e, _, _, _, h⟩ <;> rw [h]
  · exact .of_tcp_eq rfl
  · exact ⟨_, rfl⟩

theorem SameButTable.correlate (tid : U16) (fc : Byte) (payload : Bytes) (b : Block) :
    SameButTable b (tcpCorrelate tid fc payload b) := by
  rcases tcpCorrelate_cases tid fc payload b with ⟨_, h⟩ | ⟨e, _, ⟨_, h⟩ | ⟨_, h⟩⟩ <;> rw [h]
  · exact .of_tcp_eq rfl
  · exact ⟨_, rfl⟩
  · exact ⟨_, rfl⟩

theorem SameButTable.timeout (tid : U16) (b : Block) : SameButTable b (tcpTimeout tid b) := by
  rcases tcpTimeout_cases tid b with ⟨_, h⟩ | ⟨e, _, ⟨_, h⟩ | ⟨_, h⟩⟩ <;> rw [h]
  · exact .of_tcp_eq rfl
  · exact ⟨_, rfl⟩
  · exact ⟨_, rfl⟩

theorem SameButTable.expire (i : TimerId) (b : Block) : SameButTable b (expire b i) := by
  cases i with
  | rtuDly => exact .of_tcp_eq (rtuLocal_expire_dly.tcp b)
  | rtuRspt => exact .of_tcp_eq (rtuLocal_expire_rspt.tcp b)
  | tcpTmr t =>
    rcases expire_tcpTmr_cases t b with ⟨_, h⟩ | ⟨e, _, _, h⟩ <;> rw [h]
    · exact .of_tcp_eq rfl
    · exact SameButTable.trans ⟨_, rfl⟩ (.timeout t (b.setTcpTt (ttPut t { e with tmr := e.tmr.stop } b.tcp.tt)))

theorem SameButTable.foldl_expire (ids : List TimerId) (b : Block) : SameButTable b (ids.foldl Machine.expire b) := by
  induction ids generalizing b with
  | nil => exact .of_tcp_eq rfl
  | cons i ids ih => exact (SameButTable.expire i b).trans (ih _)

theorem SameButTable.tick (b : Block) : SameButTable b (tickBlock b) :=
  SameButTable.trans ⟨_, countDownAll_tcp b⟩ (.foldl_expire (expiring b) (countDownAll b))

/-- The receiver writes its buffer, the fault flag and the table. -/
theorem tcpEvaluate_isOpen_nextTid (b : Block) :
    (tcpEvaluate b).tcp.isOpen = b.tcp.isOpen ∧ (tcpEvaluate b).tcp.nextTid = b.tcp.nextTid := by
  rcases tcpEvaluate_cases b with ⟨_, h⟩ | ⟨_, _, h⟩ | ⟨_, _, _, ⟨_, h⟩ | ⟨_, h⟩⟩ <;> rw [h]
  · exact ⟨rfl, rfl⟩
  · exact ⟨rfl, rfl⟩
  · exact ⟨rfl, rfl⟩
  · obtain ⟨tt, htt⟩ := SameButTable.correlate _ _ _ _
    rw [htt]; exact ⟨rfl, rfl⟩

theorem tcpRxb_isOpen_nextTid (x : Byte) (b : Block) :
    (tcpRxb x b).tcp.isOpen = b.tcp.isOpen ∧ (tcpRxb x b).tcp.nextTid = b.tcp.nextTid := by
  unfold tcpRxb
  split
  · exact ⟨rfl, rfl⟩
  · split
    · exact ⟨rfl, rfl⟩
    · exact tcpEvaluate_isOpen_nextTid (b.setTcpRxbuf _)

/-- `TCP_NEXT_TID` changes at most by a submission, `TCP_OPEN` by open and close, `TCP_RXFAULT` by a received byte and
close (R32, R34, R36). -/
structure TcpRegistersByWriters (i : Instr) (b b' : Block) : Prop where
  nextTid : (∀ g u c q, i ≠ .tcpSubmit g u c q) → b'.tcp.nextTid = b.tcp.nextTid
  isOpen  : i ≠ .tcpOpen → i ≠ .tcpClose → b'.tcp.isOpen = b.tcp.isOpen
  rxfault : i ≠ .tcpClose → (∀ x, i ≠ .tcpRxb x) → b'.tcp.rxfault = b.tcp.rxfault

theorem SameButTable.byWriters {i : Instr} {b b' : Block} (h : SameButTable b b') : TcpRegistersByWriters i b b' := by
  obtain ⟨tt, h⟩ := h
  exact ⟨fun _ => by rw [h], fun _ _ => by rw [h], fun _ _ => by rw [h]⟩

theorem Effect.tcpRegistersByWriters {p : Build} {i : Instr} {b b' : Block} (h : Effect p i b b') :
    TcpRegistersByWriters i b b' := by
  have hw := h.writesOwnPart
  cases h
  case tcpOpen => exact ⟨fun _ => rfl, fun ho => absurd rfl ho, fun _ _ => rfl⟩
  case tcpClose =>
    exact ⟨fun _ => by rw [tcpClose_eq], fun _ hc => absurd rfl hc, fun hc => absurd rfl hc⟩
  case tcpSubmit tag unit fc payload _ _ _ _ _ =>
    exact ⟨fun hs => absurd rfl (hs tag unit fc payload), fun _ _ => rfl, fun _ _ => rfl⟩
  case tcpRxb x =>
    obtain ⟨ho, hn⟩ := tcpRxb_isOpen_nextTid x b
    exact ⟨fun _ => hn, fun _ _ => ho, fun _ hx => absurd rfl (hx x)⟩
  case tcpWrDone tid => exact SameButTable.byWriters (.wrDone tid b)
  case tick => exact SameButTable.byWriters (.tick b)
  case crcInit | crcUpd | rtuOpen | rtuClose | rtuSubmit | rtuRxb | rtuWrDone | cfgWr =>
    exact SameButTable.byWriters (.of_tcp_eq (hw.tcp_eq rfl nofun).1)

/-! ### The statements -/

/-- Settles O8: the step is the reset of every element. -/
theorem resetEventSetsEveryElement : Obligations.ResetEventSetsEveryElement :=
  fun s later h => ⟨s.applyReset later, step_reset h, rfl, rfl⟩

/-- Settles O55: each operation acts on one side, or is TICK, and each of these appends. -/
theorem outputIsOnlyAppendedTo : Obligations.OutputIsOnlyAppendedTo := by
  intro i s t h
  refine ⟨?_, exec_build_input h⟩
  rcases exec_effect h with hb | he
  · rw [hb]
  · exact he.out_grows

/-- Settles O58: an operation writes its own part of the block, and within a transport the flags and the id counter only
where the rules name it. -/
theorem eachElementHasItsWriters : Obligations.EachElementHasItsWriters := by
  intro i s t h
  rcases exec_effect h with hb | he
  · simp [hb]
  · have hw := he.writesOwnPart
    obtain ⟨hro, hrv⟩ := he.rtuFlagsByWriters
    obtain ⟨htn, hto, htf⟩ := he.tcpRegistersByWriters
    refine ⟨hw.crc_eq, hw.cfg_eq, fun hi hx hs => ?_, fun hi hx hd hs => ?_, htn, hro, hto, hrv, htf⟩
    · obtain ⟨hop, ht⟩ := rtuOp_eq_false hi hx hs
      exact hw.rtu_eq hop ht
    · obtain ⟨hop, ht⟩ := tcpOp_eq_false hi hx hd hs
      exact hw.tcp_eq hop ht

end Sys2Proof.Machine
end

section
/-! PROOFS. The statements of 20_memory.md: a step runs what is presented (O2), no request is lost or completed twice
(O37, O47), and a closed transport is silent (O38, O60). -/

namespace Sys2Proof.Machine

/-! ### The step (R70) -/

theorem step_word_op {s : State} {w tail : Bytes} {later : List Presented} {i : Instr} (h : s.input = .word w :: later)
    (hd : decode w = .op i tail) : step s = exec i (s.setInput (remaining tail later)) := by simp only [step, h, hd]

/-! ### The tags of completions -/

@[simp] theorem doneTags_append (port : Transport) (a b : List Event) :
    doneTags port (a ++ b) = doneTags port a ++ doneTags port b := List.filterMap_append

theorem doneTags_done (port : Transport) (tag : U16) (st : ReplyState) (err : ErrCode) (fc : Byte) (pl : Bytes) :
    doneTags port [.done port tag st err fc pl] = [tag] := by simp [doneTags, Event.doneTag]

/-- The aborts of a close complete the tags they are made from. -/
theorem doneTags_map_done {α : Type} (port : Transport) (tag : α → U16) (st : ReplyState) (err : ErrCode) (fc : Byte)
    (pl : Bytes) (l : List α) : doneTags port (l.map fun x => .done port (tag x) st err fc pl) = l.map tag := by
  simp [doneTags, Event.doneTag, List.filterMap_map, Function.comp_def]

/-- A completion on RTU is an event of the RTU side. -/
theorem doneTags_rtuTrace (out : List Event) : doneTags .rtu (rtuTrace out) = doneTags .rtu out := by
  rw [doneTags, rtuTrace, List.filterMap_filter]
  refine List.filterMap_congr fun e _ => ?_
  cases e <;> simp [Event.isRtu, Event.doneTag]

/-- A completion on TCP is an event of the TCP side. -/
theorem doneTags_tcpTrace (out : List Event) : doneTags .tcp (tcpTrace out) = doneTags .tcp out := by
  rw [doneTags, tcpTrace, List.filterMap_filter]
  refine List.filterMap_congr fun e _ => ?_
  cases e with
  | done port => cases port <;> simp [Event.isRtu, Event.doneTag]
  | _ => simp [Event.doneTag]

/-! ### Submissions -/

@[simp] theorem acceptedTag_refuse (tag : U16) (c : RefusalCode) (s : State) : acceptedTag tag (s.refuse c) = [] := by
  simp [acceptedTag]

@[simp] theorem acceptedTag_accept (tag : U16) (b : Block) (v : Returned) (s : State) :
    acceptedTag tag (s.accept b v) = [tag] := by simp [acceptedTag]

section
variable {tag : U16} {unit fc : Byte} {payload : Bytes} {s t : State}

/-- RTU.SUBMIT is refused, or accepted and queued (R215). -/
theorem exec_rtuSubmit_cases (h : exec (.rtuSubmit tag unit fc payload) s = .next t) :
    (∃ c, t = s.refuse c) ∨ t = s.accept (rtuEnqueue (rtuElem s.block.cfg tag unit fc payload) s.block) .nothing := by
  simp only [exec, execRtuSubmit] at h
  split at h
  · cases h; exact .inl ⟨_, rfl⟩
  · split at h
    · cases h; exact .inl ⟨_, rfl⟩
    · split at h <;> cases h
      · exact .inl ⟨_, rfl⟩
      · exact .inr rfl

/-- TCP.SUBMIT that goes on is refused, or accepted and entered under an id that is free (R263). -/
theorem exec_tcpSubmit_cases (h : exec (.tcpSubmit tag unit fc payload) s = .next t) :
    (∃ c, t = s.refuse c) ∨ ∃ tid, ttGet tid s.block.tcp.tt = none ∧
      t = s.accept (tcpEnter tid (tcpEntry s.block.cfg tid tag unit fc payload) s.block) (.tid tid) := by
  simp only [exec, execTcpSubmit] at h
  split at h
  · cases h; exact .inl ⟨_, rfl⟩
  · split at h
    · cases h; exact .inl ⟨_, rfl⟩
    · split at h
      · cases h; exact .inl ⟨_, rfl⟩
      · split at h <;> cases h
        next tid hc =>
        obtain ⟨_, _, _, hfree, _⟩ := searchTid_spec hc
        exact .inr ⟨tid, hfree, rfl⟩
end

/-! ### The history of the RTU requests (R75, R77)

No operation but RTU.SUBMIT changes it: a completion moves the tag of the head from the front of the queue to the end of
the completions, and nothing else touches either. -/

/-- The tags completed on RTU, then the tags still queued. -/
def rtuHistory (b : Block) : List U16 := doneTags .rtu b.out ++ queuedTags b

section
variable {b b' : Block}

/-- Nothing is completed and no tag of the queue changes. -/
theorem rtuHistory_of_undone {new : List Event} (hq : queuedTags b' = queuedTags b) (ho : b'.out = b.out ++ new)
    (hn : doneTags .rtu new = []) : rtuHistory b' = rtuHistory b := by simp [rtuHistory, hq, ho, hn]

/-- The head is completed and leaves the queue. -/
theorem rtuHistory_of_headDone {e : Elem} {rest : List Elem} {st : ReplyState} {err : ErrCode} {fc : Byte} {pl : Bytes}
    (hq : b.rtu.q = e :: rest) (hq' : b'.rtu.q = rest) (ho : b'.out = b.out ++ [.done .rtu e.tag st err fc pl]) :
    rtuHistory b' = rtuHistory b := by simp [rtuHistory, queuedTags, hq, hq', ho, doneTags_done]

theorem rtuHistory_of_rtu_eq (hr : b'.rtu = b.rtu) (ho : rtuTrace b'.out = rtuTrace b.out) :
    rtuHistory b' = rtuHistory b := by
  rw [rtuHistory, rtuHistory, queuedTags, queuedTags, ← doneTags_rtuTrace, ho, doneTags_rtuTrace, hr]
end

theorem rtuHistory_close (b : Block) : rtuHistory (rtuClose b) = rtuHistory b := by
  simp [rtuHistory, queuedTags, rtuClose_eq, doneTags_map_done]

theorem rtuHistory_enqueue (e : Elem) (b : Block) : rtuHistory (rtuEnqueue e b) = rtuHistory b ++ [e.tag] := by
  simp [rtuHistory, queuedTags, rtuEnqueue_eq]

theorem rtuHistory_wrDone (b : Block) : rtuHistory (rtuWrDone b) = rtuHistory b := by
  rcases rtuWrDone_cases b with h | ⟨e, rest, _, _, hq, _, h⟩ <;> rw [h]
  rw [rtuBroadcastDone_eq hq]
  exact rtuHistory_of_headDone hq (rtuKick_q _ _) (rtuKick_out _ _)

theorem rtuHistory_append (x : Byte) (b : Block) : rtuHistory (rtuAppend x b) = rtuHistory b :=
  rtuHistory_of_undone (new := []) (by rw [queuedTags, (rtuAppend_fields x b).1]; rfl) (by simp [rtuAppend_eq]) rfl

theorem rtuHistory_accept {b : Block} {e : Elem} {rest : List Elem} (hq : b.rtu.q = e :: rest) (n : Nat) :
    rtuHistory (rtuAccept e n b) = rtuHistory b := by
  rcases rtuAccept_cases e n b with ⟨_, h⟩ | ⟨_, _, h⟩ | ⟨_, _, _, h⟩ <;> rw [h]
  · exact rtuHistory_of_undone rfl rfl rfl
  · exact rtuHistory_of_undone rfl rfl rfl
  · rw [rtuReplyDone_eq (b := b.setRtuRxbuf (b.rtu.rxbuf.drop n)) _ hq]
    exact rtuHistory_of_headDone hq (rtuKick_q _ _) (rtuKick_out _ _)

theorem rtuHistory_rxb (z : Sizer) (x : Byte) (b : Block) : rtuHistory (rtuRxb z x b) = rtuHistory b := by
  rcases rtuRxb_cases z x b with ⟨_, h⟩ | ⟨_, h⟩ | ⟨e, rest, n, _, _, hq, _, _, h⟩ <;> rw [h]
  · exact rtuHistory_append x b
  · rw [rtuHistory_accept (rest := rest) (by rw [(rtuAppend_fields x b).1, hq]), rtuHistory_append]

theorem rtuHistory_send (b : Block) : rtuHistory (rtuSend b) = rtuHistory b := by
  cases hq : b.rtu.q with
  | nil => rw [rtuSend_nil hq]
  | cons e rest => rw [rtuSend_cons hq]; exact rtuHistory_of_undone rfl rfl rfl

theorem rtuHistory_timeout (b : Block) : rtuHistory (rtuTimeout b) = rtuHistory b := by
  rcases rtuTimeout_cases b with ⟨_, h⟩ | ⟨e, rest, _, hq, ⟨_, h⟩ | ⟨_, h⟩⟩ <;> rw [h]
  · rw [rtuResend_eq hq]
    exact rtuHistory_of_undone (by simp [queuedTags, hq]) rfl rfl
  · rw [rtuFail_eq hq]
    exact rtuHistory_of_headDone hq (rtuKick_q _ _) (rtuKick_out _ _)

theorem rtuHistory_expire (i : TimerId) (b : Block) : rtuHistory (expire b i) = rtuHistory b := by
  cases i with
  | rtuDly =>
    rw [expire_rtuDly]
    split
    · exact rtuHistory_send (b.setRtuDly b.rtu.dly.stop)
    · rfl
  | rtuRspt =>
    rw [expire_rtuRspt]
    split
    · exact rtuHistory_timeout (b.setRtuRspt b.rtu.rspt.stop)
    · rfl
  | tcpTmr tid => exact rtuHistory_of_rtu_eq ((tcpLocal_expire tid).rtu b) ((tcpLocal_expire tid).rtuTrace b)

theorem rtuHistory_foldl_expire (ids : List TimerId) (b : Block) : rtuHistory (ids.foldl expire b) = rtuHistory b := by
  induction ids generalizing b with
  | nil => rfl
  | cons i ids ih => exact (ih _).trans (rtuHistory_expire i b)

theorem rtuHistory_tick (b : Block) : rtuHistory (tickBlock b) = rtuHistory b :=
  rtuHistory_foldl_expire (expiring b) (countDownAll b)

theorem Effect.rtuHistory_eq {p : Build} {i : Instr} {b b' : Block} (h : Effect p i b b')
    (hi : ∀ g u c q, i ≠ .rtuSubmit g u c q) : rtuHistory b' = rtuHistory b := by
  have hw := h.writesOwnPart
  cases h
  case rtuOpen => rfl
  case rtuClose => exact rtuHistory_close b
  case rtuSubmit => exact absurd rfl (hi _ _ _ _)
  case rtuRxb x => exact rtuHistory_rxb _ x b
  case rtuWrDone => exact rtuHistory_wrDone b
  case tick => exact rtuHistory_tick b
  case crcInit | crcUpd | tcpOpen | tcpClose | tcpSubmit | tcpRxb | tcpWrDone | cfgWr =>
    obtain ⟨hr, ho⟩ := hw.rtu_eq rfl nofun
    exact rtuHistory_of_rtu_eq hr ho

theorem exec_rtuHistory {i : Instr} {s t : State} (h : exec i s = .next t)
    (hi : ∀ g u c q, i ≠ .rtuSubmit g u c q) : rtuHistory t.block = rtuHistory s.block := by
  rcases exec_effect h with hb | he
  · rw [hb]
  · exact he.rtuHistory_eq hi

theorem exec_rtuSubmit_rtuHistory {tag : U16} {unit fc : Byte} {payload : Bytes} {s t : State}
    (h : exec (.rtuSubmit tag unit fc payload) s = .next t) :
    rtuHistory t.block = rtuHistory s.block ++ acceptedTag tag t := by
  rcases exec_rtuSubmit_cases h with ⟨c, rfl⟩ | rfl
  · simp
  · simp [rtuHistory_enqueue, rtuElem]

theorem rtuAccepted_of_not_submit {i : Instr} (hi : ∀ g u c q, i ≠ .rtuSubmit g u c q) (t : State) :
    rtuAccepted i t = [] := by
  unfold rtuAccepted
  split
  · exact absurd rfl (hi _ _ _ _)
  · rfl

/-! ### The history of the TCP requests (R77, R275)

No operation but TCP.SUBMIT changes it, its order apart: a completion moves the tag of one entry from the table to the
completions, and nothing else touches either. -/

/-- The tags completed on TCP, then the tags outstanding. -/
def tcpHistory (b : Block) : List U16 := doneTags .tcp b.out ++ tableTags b

/-- The same requests, each as often, completed or outstanding. -/
def SameTcpRequests (b b' : Block) : Prop := (tcpHistory b').Perm (tcpHistory b)

theorem SameTcpRequests.refl (b : Block) : SameTcpRequests b b := List.Perm.refl _

theorem SameTcpRequests.trans {a b c : Block} (h : SameTcpRequests a b) (h' : SameTcpRequests b c) :
    SameTcpRequests a c :=
  List.Perm.trans h' h

section
variable {b b' : Block}

/-- Nothing is completed and no tag of the table changes. -/
theorem SameTcpRequests.of_undone {new : List Event} (ht : tableTags b' = tableTags b) (ho : b'.out = b.out ++ new)
    (hn : doneTags .tcp new = []) : SameTcpRequests b b' := by
  simp [SameTcpRequests, tcpHistory, ht, ho, hn]

/-- The receive buffer and the fault flag hold no request. -/
theorem SameTcpRequests.of_tt_out_eq (ht : b'.tcp.tt = b.tcp.tt) (ho : b'.out = b.out) :
    SameTcpRequests b b' := .of_undone (new := []) (by rw [tableTags, tableTags, ht]) (by simp [ho]) rfl

/-- An entry is completed and leaves the table. -/
theorem SameTcpRequests.of_entryDone {tid : U16} {e : Entry} {st : ReplyState} {err : ErrCode} {fc : Byte} {pl : Bytes}
    (he : ttGet tid b.tcp.tt = some e) (ht : b'.tcp.tt = ttRemove tid b.tcp.tt)
    (ho : b'.out = b.out ++ [.done .tcp e.elem.tag st err fc pl]) : SameTcpRequests b b' := by
  have hperm : (tableTags b).Perm (e.elem.tag :: tableTags b') := by
    rw [tableTags, tableTags, ht]
    exact (perm_ttRemove he).map fun p => p.2.elem.tag
  simp only [SameTcpRequests, tcpHistory, ho, doneTags_append, doneTags_done, List.append_assoc]
  exact (hperm.append_left _).symm

/-- An entry is replaced by one of the same request. -/
theorem SameTcpRequests.of_replace {tid : U16} {e e' : Entry} {new : List Event} (hs : ttSorted b.tcp.tt)
    (he : ttGet tid b.tcp.tt = some e) (ht : b'.tcp.tt = ttPut tid e' b.tcp.tt) (htag : e'.elem.tag = e.elem.tag)
    (ho : b'.out = b.out ++ new) (hn : doneTags .tcp new = []) : SameTcpRequests b b' := by
  refine .of_undone ?_ ho hn
  rw [tableTags, tableTags, ht, ttPut_of_ttGet hs he, List.map_map]
  refine List.map_congr_left fun p hp => ?_
  simp only [Function.comp]
  split
  · next hk =>
    -- the one entry with this id is `e`
    have hpe : ttGet tid b.tcp.tt = some p.2 := ttGet_of_mem hs (hk ▸ hp)
    rw [he] at hpe
    cases hpe
    exact htag
  · rfl

theorem SameTcpRequests.of_tcp_eq (ht : b'.tcp = b.tcp) (ho : tcpTrace b'.out = tcpTrace b.out) :
    SameTcpRequests b b' := by
  rw [SameTcpRequests, tcpHistory, tcpHistory, tableTags, tableTags, ← doneTags_tcpTrace, ho, doneTags_tcpTrace, ht]
end

theorem SameTcpRequests.close (b : Block) : SameTcpRequests b (tcpClose b) := by
  simp [SameTcpRequests, tcpHistory, tableTags, tcpClose_eq, doneTags_map_done]

/-- A new entry adds its tag. -/
theorem tcpHistory_enter {tid : U16} {b : Block} (e : Entry) (h : ttGet tid b.tcp.tt = none) :
    (tcpHistory (tcpEnter tid e b)).Perm (tcpHistory b ++ [e.elem.tag]) := by
  have hout : doneTags .tcp (tcpEnter tid e b).out = doneTags .tcp b.out := by
    rw [tcpEnter_eq, doneTags_append]; exact List.append_nil _
  have htt : (tableTags (tcpEnter tid e b)).Perm (e.elem.tag :: tableTags b) :=
    (perm_ttPut_new e h).map fun p : U16 × Entry => p.2.elem.tag
  rw [tcpHistory, tcpHistory, hout, List.append_assoc]
  exact (htt.trans (List.perm_append_singleton _ _).symm).append_left _

theorem SameTcpRequests.wrDone {b : Block} (hs : ttSorted b.tcp.tt) (tid : U16) :
    SameTcpRequests b (tcpWrDone tid b) := by
  rcases tcpWrDone_cases tid b with ⟨_, h⟩ | ⟨e, _, he, _, h⟩ <;> rw [h]
  · exact .refl b
  · exact .of_replace (new := []) hs he rfl rfl (by simp) rfl

theorem SameTcpRequests.correlate (tid : U16) (fc : Byte) (payload : Bytes) (b : Block) :
    SameTcpRequests b (tcpCorrelate tid fc payload b) := by
  rcases tcpCorrelate_cases tid fc payload b with ⟨_, h⟩ | ⟨e, he, ⟨_, h⟩ | ⟨_, h⟩⟩ <;> rw [h]
  · exact .of_undone rfl rfl rfl
  · exact .of_entryDone he rfl rfl
  · exact .of_entryDone he rfl rfl

theorem SameTcpRequests.evaluate (b : Block) : SameTcpRequests b (tcpEvaluate b) := by
  rcases tcpEvaluate_cases b with ⟨_, h⟩ | ⟨_, _, h⟩ | ⟨_, _, _, ⟨_, h⟩ | ⟨_, h⟩⟩ <;> rw [h]
  · exact .refl b
  · exact .of_tt_out_eq rfl rfl
  · exact .refl b
  · exact SameTcpRequests.trans (.of_tt_out_eq rfl rfl) (.correlate _ _ _ (b.setTcpRxbuf _))

theorem SameTcpRequests.rxb (x : Byte) (b : Block) : SameTcpRequests b (tcpRxb x b) := by
  unfold tcpRxb
  split
  · exact .refl b
  · split
    · exact .refl b
    · exact SameTcpRequests.trans (.of_tt_out_eq rfl rfl) (.evaluate (b.setTcpRxbuf _))

theorem SameTcpRequests.timeout {b : Block} (hs : ttSorted b.tcp.tt) (tid : U16) :
    SameTcpRequests b (tcpTimeout tid b) := by
  rcases tcpTimeout_cases tid b with ⟨_, h⟩ | ⟨e, he, ⟨_, h⟩ | ⟨_, h⟩⟩ <;> rw [h]
  · exact .refl b
  · exact .of_replace hs he rfl rfl rfl rfl
  · exact .of_entryDone he rfl rfl

theorem SameTcpRequests.expire {b : Block} (hs : ttSorted b.tcp.tt) (tid : U16) :
    SameTcpRequests b (expire b (.tcpTmr tid)) := by
  rcases expire_tcpTmr_cases tid b with ⟨_, h⟩ | ⟨e, he, _, h⟩ <;> rw [h]
  · exact .refl b
  · exact SameTcpRequests.trans
      (.of_replace (new := []) (e' := { e with tmr := e.tmr.stop }) hs he rfl rfl (by simp) rfl)
      (.timeout (b := b.setTcpTt _) (ttSorted_ttPut hs) tid)

/-- The expired entries in their turn, whichever they are. -/
theorem SameTcpRequests.foldl_expire {p : Build} {b : Block} (hi : TcpInv p b.tcp) (tids : List U16) :
    SameTcpRequests b (tids.foldl (fun b tid => Machine.expire b (.tcpTmr tid)) b) := by
  induction tids generalizing b with
  | nil => exact .refl b
  | cons tid tids ih => exact (SameTcpRequests.expire hi.sorted tid).trans (ih (hi.expire tid))

theorem SameTcpRequests.countDown (b : Block) : SameTcpRequests b (countDownAll b) :=
  .of_undone (new := []) (by simp [tableTags, countDownAll_tcp, Entry.countDown]) (by simp) rfl

theorem SameTcpRequests.tick {p : Build} {b : Block} (hi : TcpInv p b.tcp) : SameTcpRequests b (tickBlock b) := by
  have hrtu := rtuLocal_expiringRtu b.rtu
  rw [tickBlock_eq]
  refine ((SameTcpRequests.countDown b).trans (.of_tcp_eq (hrtu.tcp _) (hrtu.tcpTrace _))).trans ?_
  exact .foldl_expire (p := p) (by rw [tickRtu_tcp]; exact hi.countDown) _

theorem Effect.sameTcpRequests {p : Build} {i : Instr} {b b' : Block} (h : Effect p i b b') (hv : TcpInv p b.tcp)
    (hi : ∀ g u c q, i ≠ .tcpSubmit g u c q) : SameTcpRequests b b' := by
  have hw := h.writesOwnPart
  cases h
  case tcpOpen => exact .refl b
  case tcpClose => exact .close b
  case tcpSubmit => exact absurd rfl (hi _ _ _ _)
  case tcpRxb x => exact .rxb x b
  case tcpWrDone tid => exact .wrDone hv.sorted tid
  case tick => exact .tick hv
  case crcInit | crcUpd | rtuOpen | rtuClose | rtuSubmit | rtuRxb | rtuWrDone | cfgWr =>
    obtain ⟨ht, ho⟩ := hw.tcp_eq rfl nofun
    exact .of_tcp_eq ht ho

theorem exec_sameTcpRequests {i : Instr} {s t : State} (h : exec i s = .next t) (hv : TcpInv s.build s.block.tcp)
    (hi : ∀ g u c q, i ≠ .tcpSubmit g u c q) : SameTcpRequests s.block t.block := by
  rcases exec_effect h with hb | he
  · rw [hb]; exact .refl _
  · exact he.sameTcpRequests hv hi

theorem exec_tcpSubmit_tcpHistory {tag : U16} {unit fc : Byte} {payload : Bytes} {s t : State}
    (h : exec (.tcpSubmit tag unit fc payload) s = .next t) :
    (tcpHistory t.block).Perm (tcpHistory s.block ++ acceptedTag tag t) := by
  rcases exec_tcpSubmit_cases h with ⟨c, rfl⟩ | ⟨tid, hfree, rfl⟩
  · simp
  · rw [acceptedTag_accept]
    exact tcpHistory_enter _ hfree

theorem tcpAccepted_of_not_submit {i : Instr} (hi : ∀ g u c q, i ≠ .tcpSubmit g u c q) (t : State) :
    tcpAccepted i t = [] := by
  unfold tcpAccepted
  split
  · exact absurd rfl (hi _ _ _ _)
  · rfl

/-! ### A closed transport (R76) -/

/-- Closed, the RTU side is left alone by every effect but that of RTU.OPEN. -/
theorem Effect.rtu_eq_of_closed {p : Build} {i : Instr} {b b' : Block} (h : Effect p i b b') (hv : RtuInv p b.cfg b.rtu)
    (hc : b.rtu.isOpen = false) (hi : i ≠ .rtuOpen) : b'.rtu = b.rtu ∧ rtuTrace b'.out = rtuTrace b.out := by
  have hw := h.writesOwnPart
  cases h
  case rtuOpen => exact absurd rfl hi
  case rtuClose ho => simp [hc] at ho
  case rtuSubmit ho _ => simp [hc] at ho
  case rtuRxb => simp [Machine.rtuRxb, hc]
  case rtuWrDone =>
    rcases rtuWrDone_cases b with h | ⟨_, _, ho, _⟩
    · rw [h]; exact ⟨rfl, rfl⟩
    · simp [hc] at ho
  case tick =>
    obtain ⟨_, hd, hr, _⟩ := hv.closedClean hc
    have hquiet := tickBlock_rtu_quiet (b := b) (by simp [Timer.expires, hd]) (by simp [Timer.expires, hr])
    rwa [Timer.countDown_of_not_armed hd, Timer.countDown_of_not_armed hr] at hquiet
  case crcInit | crcUpd | tcpOpen | tcpClose | tcpSubmit | tcpRxb | tcpWrDone | cfgWr => exact hw.rtu_eq rfl nofun

/-- With no entry in the table a TICK does nothing on the TCP side. -/
theorem tickBlock_tcp_of_nil {b : Block} (h : b.tcp.tt = []) :
    (tickBlock b).tcp = b.tcp ∧ tcpTrace (tickBlock b).out = tcpTrace b.out := by
  have hrtu := rtuLocal_expiringRtu b.rtu
  have ht : tickBlock b = (expiringRtu b.rtu).foldl expire (countDownAll b) := by rw [tickBlock_eq, h]; rfl
  have hcd : (countDownAll b).tcp = b.tcp := by rw [countDownAll_tcp, h, List.map_nil, ← h]
  rw [ht, hrtu.tcp, hrtu.tcpTrace, hcd]
  exact ⟨rfl, rfl⟩

/-- Closed, the TCP side is left alone by every effect but that of TCP.OPEN. -/
theorem Effect.tcp_eq_of_closed {p : Build} {i : Instr} {b b' : Block} (h : Effect p i b b') (hv : TcpInv p b.tcp)
    (hc : b.tcp.isOpen = false) (hi : i ≠ .tcpOpen) : b'.tcp = b.tcp ∧ tcpTrace b'.out = tcpTrace b.out := by
  have hw := h.writesOwnPart
  cases h
  case tcpOpen => exact absurd rfl hi
  case tcpClose ho => simp [hc] at ho
  case tcpSubmit ho _ _ => simp [hc] at ho
  case tcpRxb => simp [Machine.tcpRxb, hc]
  case tcpWrDone tid =>
    rcases tcpWrDone_cases tid b with ⟨_, h⟩ | ⟨_, ho, _⟩
    · rw [h]; exact ⟨rfl, rfl⟩
    · simp [hc] at ho
  case tick => exact tickBlock_tcp_of_nil (hv.closedClean hc).1
  case crcInit | crcUpd | rtuOpen | rtuClose | rtuSubmit | rtuRxb | rtuWrDone | cfgWr => exact hw.tcp_eq rfl nofun

/-! ### The statements -/

/-- Settles O37: the history grows by an accepted submission and by nothing else. -/
theorem rtuRequestsCompleteOnceInOrder : Obligations.RtuRequestsCompleteOnceInOrder := by
  intro i s t h
  show rtuHistory t.block = rtuHistory s.block ++ rtuAccepted i t
  by_cases hi : ∀ g u c q, i ≠ .rtuSubmit g u c q
  · rw [exec_rtuHistory h hi, rtuAccepted_of_not_submit hi, List.append_nil]
  · push Not at hi
    obtain ⟨tag, unit, fc, payload, rfl⟩ := hi
    exact exec_rtuSubmit_rtuHistory h

/-- Settles O47: the collection of completed and outstanding tags grows by an accepted submission and no more. -/
theorem tcpRequestsCompleteOnce : Obligations.TcpRequestsCompleteOnce := by
  intro i s t hv h
  show (tcpHistory t.block).Perm (tcpHistory s.block ++ tcpAccepted i t)
  by_cases hi : ∀ g u c q, i ≠ .tcpSubmit g u c q
  · rw [tcpAccepted_of_not_submit hi, List.append_nil]
    exact exec_sameTcpRequests h hv.tcp hi
  · push Not at hi
    obtain ⟨tag, unit, fc, payload, rfl⟩ := hi
    exact exec_tcpSubmit_tcpHistory h

/-- Settles O38: closed, the RTU side is left alone, and the invariant says its queue is empty. -/
theorem closedRtuTransportIsSilent : Obligations.ClosedRtuTransportIsSilent := by
  intro i s t hv hc hi h
  have hkept : t.block.rtu = s.block.rtu ∧ rtuTrace t.block.out = rtuTrace s.block.out := by
    rcases exec_effect h with hb | he
    · rw [hb]; exact ⟨rfl, rfl⟩
    · exact he.rtu_eq_of_closed hv.rtu hc hi
  obtain ⟨hrtu, hout⟩ := hkept
  exact ⟨hrtu, by rw [hrtu]; exact (hv.rtu.closedClean hc).1, hout⟩

/-- Settles O60: closed, the TCP side is left alone, and the invariant says its table is empty. -/
theorem closedTcpTransportIsSilent : Obligations.ClosedTcpTransportIsSilent := by
  intro i s t hv hc hi h
  have hkept : t.block.tcp = s.block.tcp ∧ tcpTrace t.block.out = tcpTrace s.block.out := by
    rcases exec_effect h with hb | he
    · rw [hb]; exact ⟨rfl, rfl⟩
    · exact he.tcp_eq_of_closed hv.tcp hc hi
  obtain ⟨htcp, hout⟩ := hkept
  exact ⟨htcp, by rw [htcp]; exact (hv.tcp.closedClean hc).1, hout⟩

/-- Settles O2: the step on a word that decodes to an operation is `exec` of it; `leftOver` is `remaining`. -/
theorem stepRunsThePresentedOperation : Obligations.StepRunsThePresentedOperation :=
  fun _ _ _ _ _ h hd => step_word_op h hd

end Sys2Proof.Machine
end

section
/-! PROOFS. The statements of 30_encoding.md: decoding and encoding are inverse (O5, O6, O1), the length of a command word
and what is refused after the whole of it (O7), reserved opcodes (O4), and the responses with their bytes (O54). -/

namespace Sys2Proof

open Machine

/-! ### Decoding an encoded word (R110) -/

theorem opM16_be16 (f : Bytes → Instr) {adu : Bytes} (rest : Bytes) (h : adu.length ≤ 65535) :
    opM16 f (be16 (BitVec.ofNat 16 adu.length) ++ adu ++ rest) = .op (f adu) rest := by
  change opCounted f (word16 _ _).toNat (adu ++ rest) = _
  rw [word16_halves, toNat_ofNat16 h]
  exact opCounted_append f adu rest rfl

theorem opU16_be16 (f : U16 → Instr) (v : U16) (rest : Bytes) : opU16 f (be16 v ++ rest) = .op (f v) rest := by
  change Decoded.op (f (word16 _ _)) rest = _
  rw [word16_halves]

theorem opIdxU32_be32 (f : Byte → U32 → Instr) (x : Byte) (v : U32) (rest : Bytes) :
    opIdxU32 f (x :: be32 v ++ rest) = .op (f x v) rest := by
  change Decoded.op (f x (word32 _ _ _ _)) rest = _
  rw [word32_quarters]

theorem decode_encode {i : Instr} (rest : Bytes) (h : i.wf = true) : decode (encode i ++ rest) = .op i rest := by
  cases i with
  | nop | crcInit | crcGet | rtuOpen | rtuClose | rtuWrDone | tcpOpen | tcpClose | tick => rfl
  | crcUpd | rtuRxb | tcpRxb | cfgRd => rfl
  | tcpWrDone tid => exact opU16_be16 _ tid rest
  | cfgWr idx val => exact opIdxU32_be32 _ idx val rest
  | rtuFrame unit fc payload => exact opPdu_encodePayload _ unit fc rest h
  | tcpFrame tid unit fc payload => exact opU16Pdu_be16 _ tid unit fc rest h
  | rtuSubmit tag unit fc payload | tcpSubmit tag unit fc payload => exact opU16Pdu_be16 _ tag unit fc rest h
  | rtuParse adu => exact opM16_be16 _ rest (of_decide_eq_true h)
  | tcpParseHdr hdr => exact opCounted_append _ hdr rest (of_decide_eq_true h)

/-! ### What a decoded word is (R110) -/

/-- What is read as the operands of an operation are that operation's operand bytes, after its opcode. -/
theorem decodeOperands_inv {op : Byte} {r rest : Bytes} {i : Instr} (h : decodeOperands op r = .op i rest) :
    i.wf = true ∧ i.opcode = op ∧ i.operands ++ rest = r := by
  unfold decodeOperands at h
  split at h
  -- no operand: NOP, CRC.INIT, CRC.GET, the opens and closes, RTU.WRDONE, TICK
  case h_1 ho | h_2 ho | h_4 ho | h_9 ho | h_10 ho | h_13 ho | h_14 ho | h_15 ho | h_21 ho =>
    cases h
    exact ⟨rfl, BitVec.eq_of_toNat_eq ho.symm, rfl⟩
  -- one byte: CRC.UPD, RTU.RXB, TCP.RXB, CFG.RD
  case h_3 ho | h_12 ho | h_17 ho | h_20 ho =>
    obtain ⟨b, rfl, rfl⟩ := opU8_inv h
    exact ⟨rfl, BitVec.eq_of_toNat_eq ho.symm, rfl⟩
  -- a `u16`: TCP.WRDONE
  case h_18 ho =>
    obtain ⟨tid, rfl, rfl⟩ := opU16_inv h
    exact ⟨rfl, BitVec.eq_of_toNat_eq ho.symm, rfl⟩
  -- a byte and a `u32`: CFG.WR
  case h_19 ho =>
    obtain ⟨idx, val, rfl, rfl⟩ := opIdxU32_inv h
    exact ⟨rfl, BitVec.eq_of_toNat_eq ho.symm, rfl⟩
  -- a PDU: RTU.FRAME
  case h_5 ho =>
    obtain ⟨unit, fc, payload, rfl, hp, rfl⟩ := opPdu_inv h
    exact ⟨hp, BitVec.eq_of_toNat_eq ho.symm, rfl⟩
  -- a `u16` and a PDU: TCP.FRAME and the submissions
  case h_7 ho | h_11 ho | h_16 ho =>
    obtain ⟨tag, unit, fc, payload, rfl, hp, rfl⟩ := opU16Pdu_inv h
    exact ⟨hp, BitVec.eq_of_toNat_eq ho.symm, rfl⟩
  -- counted bytes: RTU.PARSE
  case h_6 ho =>
    obtain ⟨adu, rfl, hl, rfl⟩ := opM16_inv h
    exact ⟨decide_eq_true hl, BitVec.eq_of_toNat_eq ho.symm, rfl⟩
  -- seven bytes: TCP.PARSEHDR
  case h_8 ho =>
    obtain ⟨hdr, rfl, hl, rfl⟩ := opCounted_inv h
    exact ⟨decide_eq_true hl, BitVec.eq_of_toNat_eq ho.symm, rfl⟩
  -- a reserved opcode
  case h_22 => cases h

theorem encode_of_decode {w rest : Bytes} {i : Instr} (h : decode w = .op i rest) :
    i.wf = true ∧ encode i ++ rest = w := by
  cases w with
  | nil => cases h
  | cons op r =>
    obtain ⟨hwf, rfl, rfl⟩ := decodeOperands_inv h
    exact ⟨hwf, rfl⟩

/-! ### The length of a word (R111) -/

theorem length_encodePayload (p : Bytes) : (encodePayload p).length = 1 + p.length := by
  rw [encodePayload, List.length_cons, Nat.add_comm]

theorem length_encode {i : Instr} (h : i.wf = true) : (encode i).length = wordLengthOf i := by
  cases i with
  | nop | crcInit | crcGet | rtuOpen | rtuClose | rtuWrDone | tcpOpen | tcpClose | tick => rfl
  | crcUpd | rtuRxb | tcpRxb | cfgRd | tcpWrDone | cfgWr => rfl
  | rtuFrame | tcpFrame | rtuSubmit | tcpSubmit =>
    simp only [encode, Instr.operands, List.length_cons, List.length_append, length_be16, length_encodePayload,
      wordLengthOf]
    omega
  | rtuParse adu =>
    simp only [encode, Instr.operands, List.length_cons, List.length_append, length_be16, wordLengthOf]
    omega
  | tcpParseHdr hdr =>
    have h : hdr.length = 7 := of_decide_eq_true h
    simp only [encode, Instr.operands, List.length_cons, h, wordLengthOf]

/-! ### Reserved opcodes (R112) -/

/-- The ranges of R112 are what the table of R110 leaves. -/
theorem reservedOpcode_iff {op : Byte} : reservedOpcode op ↔ op.toNat ∉ tableOpcodes := by
  have hlt := op.isLt
  simp only [tableOpcodes, List.mem_cons, List.not_mem_nil, or_false]
  omega

theorem opcode_mem_tableOpcodes (i : Instr) : i.opcode.toNat ∈ tableOpcodes := by
  cases i <;> simp [Instr.opcode, tableOpcodes]

end Sys2Proof

namespace Sys2Proof.Machine

section
variable {s : State} {tail : Bytes} {later : List Presented}

theorem step_word_reserved {op : Byte} (ho : reservedOpcode op) (h : s.input = .word (op :: tail) :: later) :
    step s = .next ((s.setInput (remaining tail later)).refuse .badOpcode) := by
  simp only [step, h, decode_of_reserved (reservedOpcode_iff.mp ho)]

/-- The word of a well-formed instruction is consumed whole. -/
theorem step_word_encode {i : Instr} (hi : i.wf = true) (h : s.input = .word (encode i ++ tail) :: later) :
    step s = exec i (s.setInput (remaining tail later)) :=
  step_word_op h (decode_encode tail hi)
end

/-! ### Counts out of range (R111, R326) -/

theorem pduValid_of_long {n : Nat} (fc : Byte) (h : 252 < n) : pduValid fc n = false := by
  rw [pduValid, decide_eq_false (show ¬ n < 253 by omega), Bool.and_false]

/-- The operations that carry a request PDU, a submission on an open transport. -/
inductive TakesPdu (s : State) (payload : Bytes) : Instr → Prop
  | rtuFrame (unit fc) : TakesPdu s payload (.rtuFrame unit fc payload)
  | tcpFrame (tid unit fc) : TakesPdu s payload (.tcpFrame tid unit fc payload)
  | rtuSubmit (tag unit fc) (opened : s.block.rtu.isOpen = true) : TakesPdu s payload (.rtuSubmit tag unit fc payload)
  | tcpSubmit (tag unit fc) (opened : s.block.tcp.isOpen = true) : TakesPdu s payload (.tcpSubmit tag unit fc payload)

theorem TakesPdu.wf {s : State} {payload : Bytes} {i : Instr} (h : TakesPdu s payload i) (hp : payload.length ≤ 255) :
    i.wf = true := by
  cases h <;> exact payloadFits_iff.mpr hp

theorem TakesPdu.exec_of_long {s : State} {payload : Bytes} {i : Instr} (h : TakesPdu s payload i)
    (hp : 252 < payload.length) : exec i s = .next (s.refuse .badPdu) := by
  cases h with
  | rtuFrame => simp [exec, execRtuFrame, pduValid_of_long _ hp]
  | tcpFrame => simp [exec, execTcpFrame, pduValid_of_long _ hp]
  | rtuSubmit _ _ _ opened => simp [exec, execRtuSubmit, opened, pduValid_of_long _ hp]
  | tcpSubmit _ _ _ opened => simp [exec, execTcpSubmit, opened, pduValid_of_long _ hp]

theorem exec_rtuParse_of_badLen {adu : Bytes} (s : State) (h : adu.length < 4 ∨ 256 < adu.length) :
    exec (.rtuParse adu) s = .next (s.refuse .badLen) := if_pos h

/-! ### Responses (R113) -/

/-- What R113 lets an operation answer: a `CMD` operation a refusal or the kind of value it returns, an input event
nothing. -/
inductive Answer (i : Instr) (s : State) : Host.Outcome State Fault Refusal → Prop
  | refuse (c) (cmd : portOf i = .cmd) : Answer i s (.next (s.refuse c))
  | accept (b v) (cmd : portOf i = .cmd) (kind : returns i v = true) : Answer i s (.next (s.accept b v))
  | event (b) (other : portOf i ≠ .cmd) : Answer i s (.next (s.setBlock b))
  | fault (r) : Answer i s (.fault r)

theorem Answer.ite {i : Instr} {s : State} {c : Prop} [Decidable c] {x y : Host.Outcome State Fault Refusal}
    (hx : Answer i s x) (hy : Answer i s y) : Answer i s (if c then x else y) := by
  split
  · exact hx
  · exact hy

theorem exec_answer (i : Instr) (s : State) : Answer i s (exec i s) := by
  cases i with
  | nop | crcInit | crcUpd | crcGet => exact .accept _ _ rfl rfl
  | rtuRxb | rtuWrDone | tcpRxb | tcpWrDone | tick => exact .event _ nofun
  | rtuFrame | tcpFrame | rtuClose | tcpClose => exact .ite (.accept _ _ rfl rfl) (.refuse _ rfl)
  | rtuParse | tcpParseHdr | tcpOpen => exact .ite (.refuse _ rfl) (.accept _ _ rfl rfl)
  | rtuOpen | cfgWr => exact .ite (.refuse _ rfl) (.ite (.refuse _ rfl) (.accept _ _ rfl rfl))
  | rtuSubmit =>
    exact .ite (.refuse _ rfl) (.ite (.refuse _ rfl) (.ite (.refuse _ rfl) (.accept _ _ rfl rfl)))
  | tcpSubmit =>
    refine .ite (.refuse _ rfl) (.ite (.refuse _ rfl) (.ite (.refuse _ rfl) ?_))
    split
    · exact .fault _
    · exact .accept _ _ rfl rfl
  | cfgRd idx =>
    simp only [exec, execCfgRd]
    split
    · exact .accept _ _ rfl rfl
    · exact .refuse _ rfl

/-- One response for each `CMD` operation, of the kind R113 names; none for an operation of another port. -/
theorem exec_responses {i : Instr} {s t : State} (h : exec i s = .next t) :
    (portOf i = .cmd → ∃ r, t.rsp = s.rsp ++ [r] ∧ ∀ v, r = .ok v → returns i v = true) ∧
    (portOf i ≠ .cmd → t.rsp = s.rsp) := by
  have ha := exec_answer i s
  rw [h] at ha
  cases ha with
  | refuse c cmd => exact ⟨fun _ => ⟨.refused c, rfl, nofun⟩, fun hn => absurd cmd hn⟩
  | accept b v cmd kind => exact ⟨fun _ => ⟨.ok v, rfl, by rintro _ ⟨⟩; exact kind⟩, fun hn => absurd cmd hn⟩
  | event b other => exact ⟨fun hc => absurd hc other, fun _ => rfl⟩

theorem be16_eq (v : U16) : be16 v = [highByte v, lowByte v] := by
  rw [be16, highByte_eq, lowByte_eq]; rfl

/-- A length is returned modulo 65536, high byte first. -/
theorem be16_ofNat (n : Nat) : be16 (BitVec.ofNat 16 n) = [BitVec.ofNat 8 (n / 256), BitVec.ofNat 8 n] := by
  rw [be16_eq, highByte, lowByte, BitVec.toNat_ofNat, List.cons_eq_cons, List.cons_eq_cons]
  refine ⟨?_, ?_, rfl⟩ <;> apply BitVec.eq_of_toNat_eq <;> simp only [BitVec.toNat_ofNat] <;> omega

theorem be32_eq (v : U32) : be32 v = [BitVec.ofNat 8 (v.toNat / 2 ^ 24), BitVec.ofNat 8 (v.toNat / 2 ^ 16),
    BitVec.ofNat 8 (v.toNat / 2 ^ 8), BitVec.ofNat 8 v.toNat] := by
  simp only [be32, BitVec.extractLsb', Nat.shiftRight_eq_div_pow, Nat.pow_zero, Nat.div_one]

/-! ### The statements -/

/-- Settles O5: each operand shape is read back from the bytes that hold it. -/
theorem decodeAndEncodeAgree : Obligations.DecodeAndEncodeAgree := fun _ rest h => decode_encode rest h

/-- Settles O6: each row of the table reads the opcode and the operand bytes of its operation. -/
theorem decodedWordsAreEncodings : Obligations.DecodedWordsAreEncodings := fun _ _ _ h => encode_of_decode h

/-- Settles O7: the whole word is decoded, and then its operation is refused. -/
theorem commandWordsAreConsumedWhole : Obligations.CommandWordsAreConsumedWhole := by
  refine ⟨fun i h => length_encode h, ?_, ?_⟩
  · intro s tag tid unit fc p tail later i hlong hfits hi hs
    have htakes : TakesPdu (s.setInput (remaining tail later)) p i := by
      rcases hi with rfl | rfl | ⟨rfl, hopen⟩ | ⟨rfl, hopen⟩
      · exact .rtuFrame _ _
      · exact .tcpFrame _ _ _
      · exact .rtuSubmit _ _ _ hopen
      · exact .tcpSubmit _ _ _ hopen
    rw [step_word_encode (htakes.wf hfits) hs, htakes.exec_of_long hlong]
    rfl
  · intro s adu tail later hfits hbad hs
    rw [step_word_encode (i := .rtuParse adu) (decide_eq_true hfits) hs, exec_rtuParse_of_badLen _ hbad]
    rfl

/-- Settles O54: the answers of R113, and the bytes of each with the numbers of R326. -/
theorem oneResponsePerCommand : Obligations.OneResponsePerCommand := by
  refine ⟨fun i s t h => exec_responses h, rfl, fun _ _ => rfl, fun a => ?_, fun _ _ _ _ => rfl,
    fun tid proto length pdu unit => ?_, fun tid => ?_, fun v => ?_, rfl, rfl, rfl, rfl, rfl, rfl, rfl, rfl⟩
  · rw [Response.bytes, Returned.bytes, be16_ofNat]; rfl
  · rw [Response.bytes, Returned.bytes, be16_eq, be16_eq, be16_eq, be16_eq]; rfl
  · rw [Response.bytes, Returned.bytes, be16_eq]
  · rw [Response.bytes, Returned.bytes, be32_eq]

/-- Settles O1: each word is evaluated. -/
theorem writtenOutWordsReadAsTheirOperations : Obligations.WrittenOutWordsReadAsTheirOperations :=
  ⟨rfl, rfl, rfl, rfl, rfl, rfl, rfl, rfl, rfl⟩

/-- Settles O4: the opcodes of the ranges are in no row of the table, and the decoder reads such a byte alone. -/
theorem reservedOpcodeIsRefusedAfterOneByte : Obligations.ReservedOpcodeIsRefusedAfterOneByte :=
  ⟨fun i h => reservedOpcode_iff.mp h (opcode_mem_tableOpcodes i), rfl, fun _ _ _ _ ho h => step_word_reserved ho h⟩

end Sys2Proof.Machine
end

section
/-! PROOFS. The statements of 40_pdu.md: which PDUs are valid and which responses are well formed (O16), the size of a
response (O17), and the default table of sizes (O18). -/

namespace Sys2Proof.Machine

/-! ### The function code and the validity of a PDU (R94, R131, R132) -/

theorem isException_iff {fc : Byte} : isException fc = true ↔ 0x80 ≤ fc.toNat := by
  rw [isException, ← BitVec.msb_eq_getLsbD_last, BitVec.msb_eq_decide, decide_eq_true_eq]

theorem isException_of_lt {fc : Byte} (h : fc.toNat < 0x80) : isException fc = false :=
  Bool.eq_false_iff.mpr fun he => absurd (isException_iff.mp he) (by omega)

theorem baseFc_toNat (fc : Byte) : (baseFc fc).toNat = fc.toNat % 0x80 :=
  (BitVec.toNat_and fc 0x7F).trans (Nat.and_two_pow_sub_one_eq_mod fc.toNat 7)

theorem baseFc_of_lt {fc : Byte} (h : fc.toNat < 0x80) : baseFc fc = fc :=
  BitVec.eq_of_toNat_eq (by rw [baseFc_toNat, Nat.mod_eq_of_lt h])

/-- The two codes with base code 0. -/
theorem one_le_baseFc_iff {fc : Byte} : 1 ≤ (baseFc fc).toNat ↔ fc ≠ 0x00 ∧ fc ≠ 0x80 := by
  rw [baseFc_toNat]
  bv_omega

theorem pduValid_iff {fc : Byte} {n : Nat} : pduValid fc n = true ↔ fc ≠ 0x00 ∧ fc ≠ 0x80 ∧ n ≤ 252 := by
  rw [pduValid, Bool.and_eq_true, decide_eq_true_eq, decide_eq_true_eq, one_le_baseFc_iff, and_assoc, Nat.lt_succ_iff]

theorem rspWellFormed_iff {fc : Byte} {n : Nat} :
    rspWellFormed fc n = true ↔ pduValid fc n = true ∧ (0x80 ≤ fc.toNat → n = 1) := by
  rw [rspWellFormed, Bool.and_eq_true, Bool.or_eq_true, Bool.not_eq_true', decide_eq_true_eq, ← isException_iff,
    ← Bool.not_eq_true, imp_iff_not_or]

/-! ### The size of a response (R134) -/

theorem rdBe16_cons_cons_toNat (a b : Byte) (r : Bytes) : (rdBe16 (a :: b :: r) 0).toNat = a.toNat * 256 + b.toNat :=
  word16_toNat a b

@[simp] theorem sizeByClass_fixed (k : Nat) (avail : Bytes) : sizeByClass (.fixed k) avail = some k := rfl

@[simp] theorem sizeByClass_unknown (avail : Bytes) : sizeByClass .unknown avail = none := rfl

@[simp] theorem sizeByClass_byteCount1_nil : sizeByClass .byteCount1 [] = none := rfl

@[simp] theorem sizeByClass_byteCount1_cons (a : Byte) (r : Bytes) :
    sizeByClass .byteCount1 (a :: r) = some (1 + a.toNat) := by simp [sizeByClass]

@[simp] theorem sizeByClass_fifo16_nil : sizeByClass .fifo16 [] = none := rfl

@[simp] theorem sizeByClass_fifo16_singleton (a : Byte) : sizeByClass .fifo16 [a] = none := rfl

@[simp] theorem sizeByClass_fifo16_cons_cons (a b : Byte) (r : Bytes) :
    sizeByClass .fifo16 (a :: b :: r) = some (a.toNat * 256 + b.toNat + 2) := by
  simp [sizeByClass, rdBe16_cons_cons_toNat]

/-- A class reads at most the first two bytes, and answers only when the bytes it reads are there. -/
theorem sizeByClass_append {c : SizeClass} {avail : Bytes} {d : Nat} (more : Bytes)
    (h : sizeByClass c avail = some d) : sizeByClass c (avail ++ more) = some d := by
  cases c with
  | fixed k => exact h
  | unknown => exact h
  | byteCount1 =>
    cases avail with
    | nil => cases h
    | cons a r => simpa using h
  | fifo16 =>
    match avail, h with
    | a :: b :: r, h => simpa using h

theorem rspDataSize_of_exception (z : Sizer) {fc : Byte} (avail : Bytes) (h : isException fc = true) :
    rspDataSize z fc avail = some 1 := if_pos h

theorem rspDataSize_of_not_exception (z : Sizer) {fc : Byte} (avail : Bytes) (h : isException fc = false) :
    rspDataSize z fc avail = sizeByClass (sizeClassOf z (baseFc fc)) avail := if_neg (Bool.eq_false_iff.mp h)

theorem rspDataSize_of_lt (z : Sizer) {fc : Byte} (avail : Bytes) (h : fc.toNat < 0x80) :
    rspDataSize z fc avail = sizeByClass (sizeClassOf z fc) avail := by
  rw [rspDataSize_of_not_exception z avail (isException_of_lt h), baseFc_of_lt h]

theorem rspDataSize_append {z : Sizer} {fc : Byte} {avail : Bytes} {d : Nat} (more : Bytes)
    (h : rspDataSize z fc avail = some d) : rspDataSize z fc (avail ++ more) = some d := by
  cases he : isException fc with
  | true => rwa [rspDataSize_of_exception z _ he] at h ⊢
  | false =>
    rw [rspDataSize_of_not_exception z _ he] at h ⊢
    exact sizeByClass_append more h

/-! ### The table of sizes (R133, R136) -/

theorem sizeClassOf_of_not_mem {z : Sizer} {fc : Byte} (h : fc ∉ z.map Prod.fst) : sizeClassOf z fc = .unknown := by
  induction z with
  | nil => rfl
  | cons row rows ih =>
    rw [List.map_cons, List.mem_cons, not_or] at h
    obtain ⟨hrow, hrows⟩ := h
    exact (if_neg (Ne.symm hrow)).trans (ih hrows)

/-! ### The statements -/

/-- Settles O17: below 0x80 the code is its own base code, and each class reads bytes that later bytes do not move. -/
theorem responseSizeByClassIsStable : Obligations.ResponseSizeByClassIsStable := by
  intro z fc avail more d k
  refine ⟨fun he => rspDataSize_of_exception z avail (isException_iff.mpr he), fun hlt => ?_, rspDataSize_append more⟩
  simp only [rspDataSize_of_lt z _ hlt]
  refine ⟨fun hc => ?_, fun hc => ?_, fun hc => ?_, fun hc => ?_⟩ <;> simp [hc]

/-- Settles O16: bit 7 is set from 0x80 on, and only 0x00 and 0x80 have base code 0. -/
theorem validAndWellFormedPdus : Obligations.ValidAndWellFormedPdus :=
  fun _ _ => ⟨pduValid_iff, by rw [rspWellFormed_iff, pduValid_iff, and_assoc, and_assoc]⟩

/-- Settles O18: a listed code is looked up, and a code in no row is `Unknown`. -/
theorem defaultTableOfResponseSizes : Obligations.DefaultTableOfResponseSizes := by
  refine ⟨rfl, fun c => ?_⟩
  by_cases hc : c ∈ defaultSizer.map Prod.fst
  · revert c
    decide
  · rw [sizeClassOf_of_not_mem hc]
    simp_all [defaultSizer]

end Sys2Proof.Machine
end

section
/-! PROOFS. The statements of 41_crc.md: `CrcStep` as the bit loop (O11), the three CRC operations (O12), the residue of a
frame with its trailer (O13), and the CRC computed through the port (O14). -/

namespace Sys2Proof.Machine

/-! ### The bit loop (R152) -/

/-- The bit the step tests, as the remainder by 2. -/
theorem getLsbD_zero_iff_mod_two {c : U16} : c.getLsbD 0 = true ↔ c % 2#16 = 1#16 := by
  rw [BitVec.getLsbD, Nat.testBit_zero, decide_eq_true_eq, BitVec.toNat_eq, BitVec.toNat_umod]
  rfl

theorem crcBit_eq_ite_mod_two (c : U16) :
    crcBit c = if c % 2#16 = 1#16 then (c >>> 1) ^^^ 0xA001#16 else c >>> 1 :=
  if_congr getLsbD_zero_iff_mod_two rfl rfl

theorem zeroExtend_byte_eq_ofNat (b : Byte) : b.zeroExtend 16 = BitVec.ofNat 16 b.toNat := (BitVec.ofNat_toNat 16 b).symm

/-! ### The residue (R156) -/

/-- The residue of bytes with two more is 0 exactly when the two are their CRC, low byte first. -/
theorem crc16_append_pair_eq_zero {s : Bytes} {lo hi : Byte} : crc16 (s ++ [lo, hi]) = 0 ↔ crc16 s = word16 hi lo := by
  rw [crc16_append]
  exact crcStep_crcStep_eq_zero

theorem word16_highByte_lowByte (v : U16) : word16 (highByte v) (lowByte v) = v := by
  rw [highByte, lowByte, ← highByte_eq, ← lowByte_eq, word16_halves]

theorem crc16_append_trailer (s : Bytes) : crc16 (s ++ [lowByte (crc16 s), highByte (crc16 s)]) = 0 :=
  crc16_append_pair_eq_zero.mpr (word16_highByte_lowByte _).symm

/-- Comparing the trailer and testing the residue of the whole frame accept the same frames. -/
theorem rtuParse_crcValid_iff {adu : Bytes} (h : 4 ≤ adu.length) : (rtuParse adu).crcValid = true ↔ crc16 adu = 0 := by
  obtain ⟨unit, fc, lo, hi, p, rfl⟩ := exists_fields h
  rw [rtuParse_fields, crc16_append_pair_eq_zero]
  exact decide_eq_true_iff

/-! ### The operations (R153, R154, R155) -/

theorem exec_crcInit (s : State) : exec .crcInit s = .next (s.accept (s.block.setCrc 0xFFFF) .nothing) := rfl

theorem exec_crcUpd (b : Byte) (s : State) :
    exec (.crcUpd b) s = .next (s.accept (s.block.setCrc (crcStep s.block.crc b)) .nothing) := rfl

theorem exec_crcGet (s : State) :
    exec .crcGet s = .next (answered s (.ok (.crc (lowByte s.block.crc) (highByte s.block.crc)))) := by
  rw [lowByte, highByte, ← lowByte_eq, ← highByte_eq]
  rfl

/-! ### A run of the operations (R157) -/

theorem runOps_cons_of_next {i : Instr} {s t : State} (is : List Instr) (h : exec i s = .next t) :
    runOps (i :: is) s = runOps is t := by simp only [runOps, h]

/-- One CRC.UPD a byte folds the bytes into the remainder and answers each. -/
theorem runOps_crcUpds (bytes : Bytes) (is : List Instr) (s : State) :
    runOps (bytes.map Instr.crcUpd ++ is) s =
      runOps is { s with block := s.block.setCrc (bytes.foldl crcStep s.block.crc),
                         rsp := s.rsp ++ List.replicate bytes.length (.ok .nothing) } := by
  induction bytes generalizing s with
  | nil => simp [Block.setCrc]
  | cons b bytes ih =>
    rw [List.map_cons, List.cons_append, runOps_cons_of_next _ (exec_crcUpd b s), ih]
    simp [State.accept, State.setBlock, State.respond, Block.setCrc, List.replicate_succ]

/-! ### The statements -/

/-- Settles O13: two steps reach 0 exactly from the remainder made of the two bytes. -/
theorem crcIsIncrementalWithZeroResidue : Obligations.CrcIsIncrementalWithZeroResidue :=
  ⟨crc16_append, crc16_append_trailer, fun _ h => rtuParse_crcValid_iff h⟩

/-- Settles O14: after CRC.INIT the updates fold the bytes from 0xFFFF, which is `Crc16`, and CRC.GET answers it. -/
theorem hostCrcSequenceComputesTheCrc : Obligations.HostCrcSequenceComputesTheCrc := by
  intro s bytes
  rw [runOps_cons_of_next _ (exec_crcInit s), runOps_crcUpds, runOps_cons_of_next _ (exec_crcGet _)]
  simp [runOps, answered, crc16, State.accept, State.setBlock, State.respond, Block.setCrc, List.replicate_succ]

/-- Settles O11: the loop body is `crcBit` with its tested bit read as a remainder; the corner cases are evaluated. -/
theorem crcStepIsTheBitLoop : Obligations.CrcStepIsTheBitLoop := by
  refine ⟨fun c b => ?_, by decide, by decide, by decide, by decide⟩
  simp only [← crcBit_eq_ite_mod_two, ← zeroExtend_byte_eq_ofNat]
  rfl

/-- Settles O12: each operation's next state is written out. -/
theorem crcOperationsTouchOnlyTheirRegister : Obligations.CrcOperationsTouchOnlyTheirRegister :=
  fun s b => ⟨exec_crcInit s, exec_crcUpd b s, exec_crcGet s, rfl, rfl, rfl⟩

end Sys2Proof.Machine
end

section
/-! PROOFS. The statements of 42_rtu_framer.md: a single bit error is detected (O15), framing and parsing are inverse
(O21), RTU.FRAME (O19) and RTU.PARSE (O20). -/

namespace Sys2Proof.Machine

/-! ### The trailer (R170, R173) -/

theorem rtuFrame_eq_append_trailer (unit fc : Byte) (p : Bytes) :
    rtuFrame unit fc p =
      [unit, fc] ++ p ++ [lowByte (crc16 ([unit, fc] ++ p)), highByte (crc16 ([unit, fc] ++ p))] := by
  rw [rtuFrame_eq_fields, lowByte_eq, highByte_eq]
  rfl

theorem crc16_rtuFrame (unit fc : Byte) (p : Bytes) : crc16 (rtuFrame unit fc p) = 0 := by
  rw [rtuFrame_eq_append_trailer, crc16_append_trailer]

/-- The trailer, low byte first, as a number. -/
theorem eq_word16_iff {v : U16} {hi lo : Byte} : v = word16 hi lo ↔ v.toNat = lo.toNat + 256 * hi.toNat := by
  rw [BitVec.toNat_eq, word16_toNat, Nat.mul_comm, Nat.add_comm]

/-! ### Round trips (R175) -/

theorem rtuParse_rtuFrame (unit fc : Byte) (p : Bytes) :
    rtuParse (rtuFrame unit fc p) = { unit := unit, fc := fc, payload := p, crcValid := true } := by
  rw [rtuFrame_eq_fields, rtuParse_fields, word16_halves, decide_eq_true rfl]

/-- A good trailer is the one that framing writes. -/
theorem rtuFrame_of_trailer {unit fc lo hi : Byte} {p : Bytes} (h : crc16 ([unit, fc] ++ p) = word16 hi lo) :
    rtuFrame unit fc p = [unit, fc] ++ p ++ [lo, hi] := by
  rw [rtuFrame_eq_fields, h, word16_high, word16_low]

theorem rtuFrame_rtuParse {adu : Bytes} (hlen : 4 ≤ adu.length) (hcrc : (rtuParse adu).crcValid = true) :
    rtuFrame (rtuParse adu).unit (rtuParse adu).fc (rtuParse adu).payload = adu := by
  obtain ⟨unit, fc, lo, hi, p, rfl⟩ := exists_fields hlen
  rw [rtuParse_fields] at hcrc ⊢
  exact rtuFrame_of_trailer (of_decide_eq_true hcrc)

/-! ### Bit errors (R175, G9) -/

/-- Changing one byte changes the remainder: that byte's step separates the two, and no later byte joins them. -/
theorem foldl_crcStep_modify_ne {f : Byte → Byte} (hf : ∀ b, f b ≠ b) {s : Bytes} {k : Nat} (hk : k < s.length)
    (c : U16) : (s.modify k f).foldl crcStep c ≠ s.foldl crcStep c := by
  induction s generalizing k c with
  | nil => exact absurd hk (Nat.not_lt_zero k)
  | cons b s ih =>
    cases k with
    | zero => exact foldl_crcStep_ne s (crcStep_ne (hf b))
    | succ k => exact ih (Nat.lt_of_succ_lt_succ hk) (crcStep c b)

/-- Inverting a bit of a byte changes the byte. -/
theorem xor_bit_ne {j : Nat} (hj : j < 8) (b : Byte) : b ^^^ (1#8 <<< j) ≠ b := by
  intro h
  have hbit := congrArg (BitVec.getLsbD · j) h
  simp [hj] at hbit

theorem crc16_flipBit_ne {i : Nat} {s : Bytes} (hi : i < 8 * s.length) : crc16 (flipBit i s) ≠ crc16 s :=
  foldl_crcStep_modify_ne (xor_bit_ne (Nat.mod_lt i (by decide))) (Nat.div_lt_of_lt_mul hi) 0xFFFF

@[simp] theorem length_flipBit (i : Nat) (s : Bytes) : (flipBit i s).length = s.length := List.length_modify ..

/-! ### The operations (R172, R174) -/

theorem exec_rtuFrame_of_valid {fc : Byte} {p : Bytes} (unit : Byte) (s : State) (h : pduValid fc p.length = true) :
    exec (.rtuFrame unit fc p) s = .next (answered s (.ok (.adu (rtuFrame unit fc p)))) := if_pos h

theorem exec_rtuFrame_of_invalid {fc : Byte} {p : Bytes} (unit : Byte) (s : State)
    (h : ¬ pduValid fc p.length = true) :
    exec (.rtuFrame unit fc p) s = .next (answered s (.refused .badPdu)) := if_neg h

theorem exec_rtuParse_of_goodLen {adu : Bytes} (s : State) (h : 4 ≤ adu.length) (h' : adu.length ≤ 256) :
    exec (.rtuParse adu) s = .next (answered s (.ok (.parsed (rtuParse adu).unit (rtuParse adu).fc
      (rtuParse adu).payload (rtuParse adu).crcValid))) := if_neg (by omega)

/-! ### The statements -/

/-- Settles O15: the frame has residue 0, so the changed one has another, and its trailer does not match. -/
theorem everySingleBitErrorIsDetected : Obligations.EverySingleBitErrorIsDetected := by
  intro unit fc p i hi
  rw [← length_rtuFrame unit fc p] at hi
  have hlen : 4 ≤ (flipBit i (rtuFrame unit fc p)).length := by
    rw [length_flipBit, length_rtuFrame]
    exact Nat.le_add_left 4 _
  rw [← Bool.not_eq_true, rtuParse_crcValid_iff hlen, ← crc16_rtuFrame unit fc p]
  exact crc16_flipBit_ne hi

/-- Settles O21: one direction reads back the fields, the other writes back the trailer that matched. -/
theorem rtuFrameAndParseAreInverse : Obligations.RtuFrameAndParseAreInverse :=
  ⟨rtuParse_rtuFrame, fun _ hlen hcrc => rtuFrame_rtuParse hlen hcrc⟩

/-- Settles O19: the check of R131 decides between the ADU and the refusal. -/
theorem rtuFrameBuildsTheAdu : Obligations.RtuFrameBuildsTheAdu := by
  intro s unit fc p
  refine ⟨rfl, length_rtuFrame unit fc p, rtuFrame_eq_append_trailer unit fc p, fun hlen h0 h80 => ?_, fun hbad => ?_⟩
  · exact exec_rtuFrame_of_valid unit s (pduValid_iff.mpr ⟨h0, h80, hlen⟩)
  · refine exec_rtuFrame_of_invalid unit s fun hvalid => ?_
    obtain ⟨h0, h80, hlen⟩ := pduValid_iff.mp hvalid
    exact hbad.elim (Nat.not_lt.mpr hlen) fun h => h.elim h0 h80

/-- Settles O20: the length decides, and an ADU of good length is parsed into the fields it is written as. -/
theorem rtuParseTakesTheAduApart : Obligations.RtuParseTakesTheAduApart := by
  intro s adu
  refine ⟨?_, exec_rtuParse_of_badLen s, ?_⟩
  · rw [encode, Instr.operands, be16_ofNat]
    rfl
  · rintro unit fc lo hi p rfl hmax
    rw [exec_rtuParse_of_goodLen s (by simp) hmax, rtuParse_fields, decide_eq_decide.mpr eq_word16_iff]

end Sys2Proof.Machine
end

section
/-! PROOFS. The statements of 43_tcp_framer.md: a framed ADU is read back (O24), TCP.FRAME (O22) and TCP.PARSEHDR (O23). -/

namespace Sys2Proof.Machine

/-! ### The framed ADU (R190, R195) -/

theorem tcpFrame_eq_fields (tid : U16) (unit fc : Byte) (p : Bytes) :
    tcpFrame tid unit fc p =
      [highByte tid, lowByte tid, 0x00, 0x00, BitVec.ofNat 8 ((p.length + 2) / 256), BitVec.ofNat 8 (p.length + 2),
        unit, fc] ++ p := by
  rw [tcpFrame, be16_eq, be16_ofNat]
  rfl

theorem tcpParseHdr_take (a : Bytes) : tcpParseHdr (a.take 7) = tcpParseHdr a := by
  rw [← slice_zero, tcpParseHdr_slice]

/-- The length field, which holds 16 bits, announces the framed ADU's length as long as it does not wrap. -/
theorem length_tcpFrame_eq_tcpAduLen (tid : U16) (unit fc : Byte) {p : Bytes} (h : p.length + 2 ≤ 65535) :
    (tcpFrame tid unit fc p).length = tcpAduLen (BitVec.ofNat 16 (p.length + 2)) := by
  rw [length_tcpFrame, tcpAduLen, toNat_ofNat16 h]
  omega

/-! ### The lengths derived from the header (R193) -/

theorem tcpPduBytes_toNat {length : U16} (h : length ≠ 0) : (tcpPduBytes length).toNat = length.toNat - 1 :=
  BitVec.toNat_sub_of_le (Nat.one_le_iff_ne_zero.mpr (BitVec.toNat_ne.mp h))

theorem tcpAduLen_eq_add_tcpPduBytes {length : U16} (h : length ≠ 0) :
    tcpAduLen length = 7 + (tcpPduBytes length).toNat := by
  have hpos : length.toNat ≠ 0 := BitVec.toNat_ne.mp h
  rw [tcpAduLen, tcpPduBytes_toNat h]
  omega

/-! ### The operations (R192, R194) -/

theorem not_pduValid_iff {fc : Byte} {n : Nat} : ¬ pduValid fc n = true ↔ 252 < n ∨ fc = 0x00 ∨ fc = 0x80 := by
  rw [pduValid_iff, not_and_or, not_and_or, not_not, not_not, Nat.not_le, ← or_rotate]

theorem exec_tcpFrame_of_valid {fc : Byte} {p : Bytes} (tid : U16) (unit : Byte) (s : State)
    (h : pduValid fc p.length = true) :
    exec (.tcpFrame tid unit fc p) s = .next (answered s (.ok (.adu (tcpFrame tid unit fc p)))) := if_pos h

theorem exec_tcpFrame_of_invalid {fc : Byte} {p : Bytes} (tid : U16) (unit : Byte) (s : State)
    (h : ¬ pduValid fc p.length = true) :
    exec (.tcpFrame tid unit fc p) s = .next (answered s (.refused .badPdu)) := if_neg h

theorem exec_tcpParseHdr_of_length_eq_zero {hdr : Bytes} (s : State) (h : (tcpParseHdr hdr).length = 0) :
    exec (.tcpParseHdr hdr) s = .next (answered s (.refused .badLen)) := if_pos h

theorem exec_tcpParseHdr_of_length_ne_zero {hdr : Bytes} (s : State) (h : (tcpParseHdr hdr).length ≠ 0) :
    exec (.tcpParseHdr hdr) s = .next (answered s (.ok (.header (tcpParseHdr hdr).tid (tcpParseHdr hdr).proto
      (tcpParseHdr hdr).length (tcpParseHdr hdr).unit (tcpPduBytes (tcpParseHdr hdr).length)))) := if_neg h

/-! ### The statements -/

/-- Settles O24: the header is read from the first seven bytes, and with 252 payload bytes the length does not wrap. -/
theorem tcpFrameReadsBack : Obligations.TcpFrameReadsBack := by
  intro tid unit fc p hp
  refine ⟨?_, rfl, rfl, length_tcpFrame_eq_tcpAduLen tid unit fc (by omega)⟩
  rw [tcpParseHdr_take, tcpParseHdr_tcpFrame]

/-- Settles O22: the check of R131 decides between the ADU and the refusal. -/
theorem tcpFrameBuildsTheAdu : Obligations.TcpFrameBuildsTheAdu := by
  intro s tid unit fc p
  refine ⟨?_, tcpFrame_eq_fields tid unit fc p, fun hlen h0 h80 => ?_, fun hbad => ?_⟩
  · rw [encode, Instr.operands, be16_eq]
    rfl
  · exact exec_tcpFrame_of_valid tid unit s (pduValid_iff.mpr ⟨h0, h80, hlen⟩)
  · exact exec_tcpFrame_of_invalid tid unit s (not_pduValid_iff.mpr hbad)

/-- Settles O23: the fields are 16-bit words of the bytes, and only the length field 0 is refused. -/
theorem tcpParseHdrReadsTheHeader : Obligations.TcpParseHdrReadsTheHeader := by
  intro s t1 t0 p1 p0 l1 l0 unit hdr len h
  have htid : h.tid.toNat = t1.toNat * 256 + t0.toNat := word16_toNat t1 t0
  have hproto : h.proto.toNat = p1.toNat * 256 + p0.toNat := word16_toNat p1 p0
  have hlength : h.length.toNat = len := word16_toNat l1 l0
  refine ⟨rfl, ⟨htid, hproto, hlength, rfl, congrArg (6 + ·) hlength⟩, fun hzero => ?_, fun hne => ?_⟩
  · exact exec_tcpParseHdr_of_length_eq_zero s (BitVec.eq_of_toNat_eq (hlength.trans hzero))
  · have hnz : h.length ≠ 0 := BitVec.toNat_ne.mpr (hlength.trans_ne hne)
    have hpdu : (tcpPduBytes h.length).toNat = len - 1 := by rw [tcpPduBytes_toNat hnz, hlength]
    exact ⟨h.tid, h.proto, h.length, tcpPduBytes h.length, htid, hproto, hlength, hpdu,
      tcpAduLen_eq_add_tcpPduBytes hnz, exec_tcpParseHdr_of_length_ne_zero s hnz⟩

end Sys2Proof.Machine
end

section
/-! PROOFS. The statements of 44_rtu_transport.md: the invariants of both transports (O9, O10), the inter-frame delay (O25),
open, close, submission and write completion (O26 to O29), received bytes (O30 to O32), and the RTU side of TICK, one at a
time (O33, O34) and in a run (O35, O36). -/

namespace Sys2Proof.Machine

/-! ### Reset (R56)

A reset leaves each transport as a close leaves it. -/

theorem RtuInv.atReset (p : Build) : RtuInv p (Block.atReset p).cfg (Block.atReset p).rtu :=
  RtuInv.close (Block.atReset p)

theorem TcpInv.atReset (p : Build) : TcpInv p (Block.atReset p).tcp := TcpInv.close (Block.atReset p)

/-- The invariant speaks of the build and the block alone, and a block after reset meets it. -/
theorem State.Inv.of_atReset {s : State} (h : s.block = Block.atReset s.build) : s.Inv where
  rtu := h ▸ RtuInv.atReset s.build
  tcp := h ▸ TcpInv.atReset s.build
  out := by rw [h]; exact nofun

theorem State.Inv.of_block_eq {s t : State} (h : s.Inv) (hp : t.build = s.build) (hb : t.block = s.block) : t.Inv where
  rtu := by rw [hp, hb]; exact h.rtu
  tcp := by rw [hp, hb]; exact h.tcp
  out := by rw [hb]; exact h.out

/-! ### What an operation keeps (R234, R275) -/

theorem cfgSet_baud_of_ne_zero {idx : Byte} (h : idx ≠ 0) (val : U32) (c : Cfg) : (cfgSet idx val c).baud = c.baud := by
  unfold cfgSet
  split
  · next h0 => exact absurd (BitVec.eq_of_toNat_eq h0) h
  all_goals rfl

/-- A configuration write that is not refused leaves a baud rate while RTU is open (R301). -/
theorem RtuInv.cfgWr {p : Build} {b : Block} {idx : Byte} {val : U32} (h : RtuInv p b.cfg b.rtu)
    (kept : ¬ (idx = 0 ∧ val = 0 ∧ b.rtu.isOpen = true)) : RtuInv p (cfgSet idx val b.cfg) b.rtu := by
  refine h.set_cfg fun ho => ?_
  by_cases hi : idx = 0
  · subst hi
    exact fun hv => kept ⟨rfl, hv, ho⟩
  · rw [cfgSet_baud_of_ne_zero hi]
    exact h.openBaud ho

section
variable {p : Build} {i : Instr} {b b' : Block}

theorem Effect.rtuInv (h : Effect p i b b') (hv : RtuInv p b.cfg b.rtu) : RtuInv p b'.cfg b'.rtu := by
  have hw := h.writesOwnPart
  cases h
  case cfgWr kept => exact hv.cfgWr kept
  all_goals rw [hw.cfg_eq nofun]
  case rtuOpen closed baud => exact hv.open closed baud
  case rtuClose => exact RtuInv.close b
  case rtuSubmit valid opened room => exact hv.enqueue opened ⟨valid, rfl⟩ room
  case rtuRxb x => exact hv.rxb _ x
  case rtuWrDone => exact hv.wrDone
  case tick => exact hv.tick
  case crcInit | crcUpd | tcpOpen | tcpClose | tcpSubmit | tcpRxb | tcpWrDone =>
    rw [(hw.rtu_eq rfl nofun).1]
    exact hv

theorem Effect.tcpInv (h : Effect p i b b') (hv : TcpInv p b.tcp) : TcpInv p b'.tcp := by
  have hw := h.writesOwnPart
  cases h
  case tcpOpen => exact hv.open
  case tcpClose => exact TcpInv.close b
  case tcpSubmit valid opened room chosen =>
    obtain ⟨_, _, _, hfree, _⟩ := searchTid_spec chosen
    exact hv.enter opened valid room hfree
  case tcpRxb x => exact hv.rxb x
  case tcpWrDone tid => exact hv.wrDone tid
  case tick => exact hv.tick
  case crcInit | crcUpd | rtuOpen | rtuClose | rtuSubmit | rtuRxb | rtuWrDone | cfgWr =>
    rw [(hw.tcp_eq rfl nofun).1]
    exact hv

theorem Effect.emitsLegal (h : Effect p i b b') (hr : RtuInv p b.cfg b.rtu) (ht : TcpInv p b.tcp) : EmitsLegal b b' := by
  cases h
  case rtuClose => exact .rtuClose b
  case rtuSubmit => exact .of_out_eq (by rw [rtuEnqueue_eq])
  case rtuRxb x => exact .rtuRxb hr _ x
  case rtuWrDone => exact .rtuWrDone b
  case tcpClose => exact .tcpClose b
  case tcpSubmit valid _ _ _ => exact .one rfl (legal_tcpTx valid rfl)
  case tcpRxb x => exact .tcpRxb x b
  case tcpWrDone tid => exact .tcpWrDone tid b
  case tick => exact .tick hr ht
  case crcInit | crcUpd | rtuOpen | tcpOpen | cfgWr => exact .of_out_eq rfl
end

theorem exec_keeps_inv {i : Instr} {s t : State} (h : exec i s = .next t) (hv : s.Inv) : t.Inv := by
  obtain ⟨hbuild, _⟩ := exec_build_input h
  rcases exec_effect h with hb | he
  · exact hv.of_block_eq hbuild hb
  · obtain ⟨new, hout, hlegal⟩ := he.emitsLegal hv.rtu hv.tcp
    refine ⟨hbuild ▸ he.rtuInv hv.rtu, hbuild ▸ he.tcpInv hv.tcp, fun e hmem => ?_⟩
    rw [hout, List.mem_append] at hmem
    exact hmem.elim (hv.out e) (hlegal e)

/-- What a step that goes on can be (R70, R112, R345, R360). -/
theorem step_cases {s t : State} (h : step s = .next t) :
    t = s ∨ (∃ later, t = s.applyReset later) ∨ (∃ i input, exec i (s.setInput input) = .next t) ∨
      ∃ input, t = (s.setInput input).refuse .badOpcode := by
  unfold step at h
  split at h
  · cases h; exact .inl rfl
  · cases h; exact .inr (.inl ⟨_, rfl⟩)
  · split at h
    · exact .inr (.inr (.inl ⟨_, _, h⟩))
    · cases h; exact .inr (.inr (.inr ⟨_, rfl⟩))
    · cases h

/-- Settles O10: an operation keeps each transport's invariant and emits legal events; a reset starts the invariant anew. -/
theorem stepKeepsTheInvariant : Obligations.StepKeepsTheInvariant := by
  intro s t hv h
  rcases step_cases h with rfl | ⟨_, rfl⟩ | ⟨i, input, hexec⟩ | ⟨_, rfl⟩
  · exact hv
  · exact .of_atReset rfl
  · exact exec_keeps_inv hexec (hv.of_block_eq rfl rfl)
  · exact hv.of_block_eq rfl rfl

/-- Settles O9: the reset state of each build has the block of a reset. -/
theorem resetMeetsTheInvariant : Obligations.ResetMeetsTheInvariant :=
  ⟨.of_atReset rfl, fun _ _ _ => .of_atReset rfl⟩

/-! ### The inter-frame delay (R212) -/

theorem ifdFloor_of_fast {baud : U32} (h : 19200 ≤ baud.toNat) : ifdFloor baud = 2 := by
  have h0 : baud ≠ 0 := BitVec.toNat_ne.mpr (by simp; omega)
  rw [ifdFloor, if_neg h0, if_neg (by omega)]

/-- Below 19200 baud the floor is the rounded-up quotient. -/
theorem ifdFloor_le_iff {baud : U32} (h0 : baud ≠ 0) (h : baud.toNat < 19200) {k : Nat} :
    ifdFloor baud ≤ k ↔ 38500 ≤ k * baud.toNat := by
  have hpos : 0 < baud.toNat := Nat.pos_of_ne_zero (BitVec.toNat_ne.mp h0)
  rw [ifdFloor, if_neg h0, if_pos h, Nat.div_le_iff_le_mul_add_pred hpos, Nat.mul_comm]
  omega

theorem ifdFloor_le {baud : U32} (h0 : baud ≠ 0) : ifdFloor baud ≤ 38500 := by
  by_cases h : baud.toNat < 19200
  · have hpos : 0 < baud.toNat := Nat.pos_of_ne_zero (BitVec.toNat_ne.mp h0)
    exact (ifdFloor_le_iff h0 h).mpr (Nat.le_mul_of_pos_right _ hpos)
  · rw [ifdFloor_of_fast (by omega)]
    omega

/-- The delay fits its 32 bits. -/
theorem ifd_toNat {c : Cfg} (h0 : c.baud ≠ 0) : (ifd c).toNat = max c.ifdOvr.toNat (ifdFloor c.baud) := by
  have hfloor := ifdFloor_le h0
  have hovr := c.ifdOvr.isLt
  rw [ifd, BitVec.toNat_ofNat, Nat.mod_eq_of_lt (by omega)]

/-- Settles O25: the delay is the override or the floor, whichever is larger. -/
theorem interFrameDelay : Obligations.InterFrameDelay :=
  fun c h0 => ⟨ifdFloor c.baud, ifd_toNat h0, fun h _ => ifdFloor_le_iff h0 h, ifdFloor_of_fast⟩

/-! ### Open and close (R213, R214) -/

section
variable {s : State}

theorem exec_rtuOpen_of_open (h : s.block.rtu.isOpen = true) :
    exec .rtuOpen s = .next (answered s (.refused .alreadyOpen)) := if_pos h

theorem exec_rtuOpen_of_closed (h : s.block.rtu.isOpen = false) :
    exec .rtuOpen s = if s.block.cfg.baud = 0 then .next (s.refuse .badCfg)
      else .next (s.accept (s.block.setRtuOpen true) .nothing) := if_neg (by simp [h])

theorem exec_rtuClose_of_closed (h : s.block.rtu.isOpen = false) :
    exec .rtuClose s = .next (answered s (.refused .notOpen)) := if_neg (by simp [h])

theorem exec_rtuClose_of_open (h : s.block.rtu.isOpen = true) :
    exec .rtuClose s = .next (s.accept (rtuClose s.block) .nothing) := if_pos h
end

/-- Settles O26: the two tests in their order. -/
theorem rtuOpen : Obligations.RtuOpen := by
  refine fun s => ⟨rfl, exec_rtuOpen_of_open, fun hc hb => ?_, fun hc hb => ?_⟩
  · rw [exec_rtuOpen_of_closed hc, if_pos hb]
    rfl
  · rw [exec_rtuOpen_of_closed hc, if_neg hb]
    rfl

/-- Settles O27: the aborts append one event an element, head first. -/
theorem rtuCloseAbortsAll : Obligations.RtuCloseAbortsAll := by
  refine fun s => ⟨rfl, exec_rtuClose_of_closed, fun ho => ?_⟩
  rw [exec_rtuClose_of_open ho, rtuClose_eq]
  rfl

/-! ### Submission (R215, R216) -/

section
variable {s : State} {fc : Byte} {p : Bytes} (tag : U16) (unit : Byte)

theorem exec_rtuSubmit_of_closed (fc : Byte) (p : Bytes) (h : s.block.rtu.isOpen = false) :
    exec (.rtuSubmit tag unit fc p) s = .next (answered s (.refused .notOpen)) := if_pos h

theorem exec_rtuSubmit_of_open (fc : Byte) (p : Bytes) (h : s.block.rtu.isOpen = true) :
    exec (.rtuSubmit tag unit fc p) s =
      if pduValid fc p.length = false then .next (s.refuse .badPdu)
      else if s.block.rtu.q.length = s.build.rtuQDepth then .next (s.refuse .full)
      else .next (s.accept (rtuEnqueue (rtuElem s.block.cfg tag unit fc p) s.block) .nothing) := if_neg (by simp [h])

theorem exec_rtuSubmit_of_invalid (ho : s.block.rtu.isOpen = true) (hv : ¬ pduValid fc p.length = true) :
    exec (.rtuSubmit tag unit fc p) s = .next (answered s (.refused .badPdu)) := by
  rw [exec_rtuSubmit_of_open tag unit fc p ho, if_pos (Bool.eq_false_iff.mpr hv)]
  rfl

theorem exec_rtuSubmit_of_valid (ho : s.block.rtu.isOpen = true) (hv : pduValid fc p.length = true) :
    exec (.rtuSubmit tag unit fc p) s =
      if s.block.rtu.q.length = s.build.rtuQDepth then .next (s.refuse .full)
      else .next (s.accept (rtuEnqueue (rtuElem s.block.cfg tag unit fc p) s.block) .nothing) := by
  rw [exec_rtuSubmit_of_open tag unit fc p ho, if_neg (by simp [hv])]
end

/-- Settles O28: the three tests in their order, and the queue and the delay timer are all an accepted submission writes. -/
theorem rtuSubmitQueuesAndSchedules : Obligations.RtuSubmitQueuesAndSchedules := by
  intro s tag unit fc p
  refine ⟨?_, exec_rtuSubmit_of_closed tag unit fc p, fun ho hbad => ?_, fun ho hlen h0 h80 hfull => ?_,
    fun ho hlen h0 h80 hroom => ?_⟩
  · rw [encode, Instr.operands, be16_eq]
    rfl
  · exact exec_rtuSubmit_of_invalid tag unit ho (not_pduValid_iff.mpr hbad)
  · rw [exec_rtuSubmit_of_valid tag unit ho (pduValid_iff.mpr ⟨h0, h80, hlen⟩), if_pos hfull]
    rfl
  · rw [exec_rtuSubmit_of_valid tag unit ho (pduValid_iff.mpr ⟨h0, h80, hlen⟩), if_neg hroom, rtuEnqueue_eq]
    rfl

/-! ### Write completion (R219, R233) -/

/-- Scheduling in the Idle state. -/
theorem rtuKick_of_idle (d : U32) {b : Block} (h : b.rtu.st = .idle) :
    rtuKick d b = b.setRtu { b.rtu with dly := kicked d b.rtu.q b.rtu.dly } := by
  rw [rtuKick_eq]
  simp only [h, true_and]
  rfl

theorem rtuWrDone_of_broadcast {b : Block} {e : Elem} {rest : List Elem} (ho : b.rtu.isOpen = true)
    (hst : b.rtu.st = .waitingForReply) (hq : b.rtu.q = e :: rest) (hu : e.unit = 0) :
    rtuWrDone b = rtuBroadcastDone e b := by
  simp [rtuWrDone, hq, ho, hst, isBroadcast, hu]

theorem rtuWrDone_of_other {b : Block}
    (h : b.rtu.isOpen = false ∨ b.rtu.st ≠ .waitingForReply ∨ ∀ e, b.rtu.q.head? = some e → e.unit ≠ 0) :
    rtuWrDone b = b := by
  rcases rtuWrDone_cases b with hsame | ⟨e, rest, ho, hst, hq, hu, _⟩
  · exact hsame
  · rcases h with h | h | h
    · simp [ho] at h
    · exact absurd hst h
    · exact absurd hu (h e (by rw [hq]; rfl))

/-- Settles O29: the head, a broadcast, is completed and the next element scheduled. -/
theorem rtuWrDoneCompletesABroadcast : Obligations.RtuWrDoneCompletesABroadcast := by
  refine ⟨rfl, fun s e rest ho hst hq hu => ?_, fun s h => ?_⟩
  · rw [exec, execRtuWrDone, rtuWrDone_of_broadcast ho hst hq hu, rtuBroadcastDone_eq hq, rtuKick_of_idle _ rfl]
    rfl
  · rw [exec, execRtuWrDone, rtuWrDone_of_other h]
    rfl

/-! ### A received byte (R221, R222, R223) -/

theorem rtuAppend_eq_withByte (x : Byte) (b : Block) : rtuAppend x b = b.setRtu (withByte x b.rtu) := rtuAppend_eq x b

section
variable {z : Sizer} {b : Block} {e : Elem} {rest : List Elem} (x : Byte)

theorem rtuRxb_of_closed (ho : b.rtu.isOpen = false) : rtuRxb z x b = b := if_pos ho

theorem rtuRxb_of_not_awaiting (ho : b.rtu.isOpen = true)
    (h : b.rtu.st ≠ .waitingForReply ∨ ∀ e, b.rtu.q.head? = some e → e.unit = 0) :
    rtuRxb z x b = b.setRtu (withByte x b.rtu) := by
  rcases rtuRxb_cases z x b with ⟨hc, _⟩ | ⟨_, hstored⟩ | ⟨e, rest, _, _, hst, hq, hu, _⟩
  · simp [ho] at hc
  · rw [hstored, rtuAppend_eq_withByte]
  · rcases h with h | h
    · exact absurd hst h
    · exact absurd (h e (by rw [hq]; rfl)) hu

theorem rtuRxb_of_awaiting (ho : b.rtu.isOpen = true) (hst : b.rtu.st = .waitingForReply) (hq : b.rtu.q = e :: rest)
    (hu : e.unit ≠ 0) : rtuRxb z x b = rtuEvaluate z e (b.setRtu (withByte x b.rtu)) := by
  obtain ⟨hq', _, hst', _, _⟩ := rtuAppend_fields x b
  rw [hq] at hq'
  rw [hst] at hst'
  have hb : isBroadcast e = false := decide_eq_false hu
  rw [← rtuAppend_eq_withByte]
  simp [rtuRxb, ho, hq', hst', hb]
end

/-- Settles O30: the byte is dropped, or appended and not evaluated. -/
theorem rtuByteOutsideAWaitIsOnlyStored : Obligations.RtuByteOutsideAWaitIsOnlyStored := by
  refine fun s x => ⟨rfl, fun hc => ?_, fun ho h => ?_⟩
  · rw [exec, execRtuRxb, rtuRxb_of_closed x hc]
    rfl
  · rw [exec, execRtuRxb, rtuRxb_of_not_awaiting x ho h]
    rfl

/-! ### The size of the frame in the buffer (R223 to R226) -/

/-- A received frame with this unit and function code answers the Diagnostics request `e` by its echo (R226). -/
def EchoReply (e : Elem) (unit rfc : Byte) : Prop :=
  e.fc = 0x08 ∧ (∃ r, e.payload = 0x00 :: 0x00 :: r) ∧ unit = e.unit ∧ rfc = 0x08

theorem rdBe16_eq_zero_iff {a b : Byte} {r : Bytes} : rdBe16 (a :: b :: r) 0 = 0x0000 ↔ a = 0x00 ∧ b = 0x00 := by
  rw [BitVec.toNat_eq, rdBe16_cons_cons_toNat]
  bv_omega

theorem echoCase_iff {e : Elem} : echoCase e = true ↔ e.fc = 0x08 ∧ ∃ r, e.payload = 0x00 :: 0x00 :: r := by
  simp only [echoCase, Bool.and_eq_true, decide_eq_true_eq, and_assoc]
  refine and_congr_right fun _ => ?_
  match e.payload with
  | [] => simp
  | [a] => simp
  | a :: b :: r =>
    rw [rdBe16_eq_zero_iff]
    simp

section
variable (z : Sizer) {e : Elem} {unit rfc : Byte} {buf : Bytes}

theorem rtuFrameSize_of_short (h : buf.length < 2) : rtuFrameSize z e buf = none := if_pos h

theorem echoReply_iff : EchoReply e unit rfc ↔
    echoCase e = true ∧ byteAt (unit :: rfc :: buf) 0 = e.unit ∧ byteAt (unit :: rfc :: buf) 1 = 0x08 := by
  rw [echoCase_iff, and_assoc]
  rfl

theorem rtuFrameSize_of_echo (h : EchoReply e unit rfc) :
    rtuFrameSize z e (unit :: rfc :: buf) = rtuEchoSize e (unit :: rfc :: buf) := by
  rw [rtuFrameSize, if_neg (by simp), if_pos (echoReply_iff.mp h)]

theorem rtuFrameSize_of_not_echo (h : ¬ EchoReply e unit rfc) :
    rtuFrameSize z e (unit :: rfc :: buf) = rtuSizedLen z rfc (unit :: rfc :: buf) := by
  rw [rtuFrameSize, if_neg (by simp), if_neg (mt echoReply_iff.mpr h)]
  rfl

theorem rtuEchoSize_eq_none (h : buf.length < 4 + e.payload.length ∨ (buf.drop 2).take e.payload.length ≠ e.payload) :
    rtuEchoSize e buf = none := by
  unfold rtuEchoSize
  split
  · rfl
  · next hlen => exact if_neg (h.resolve_left hlen)

theorem rtuSizedLen_eq_none (h : ∀ d, rspDataSize z rfc (buf.drop 2) = some d → buf.length < 2 + d + 2) :
    rtuSizedLen z rfc buf = none := by
  unfold rtuSizedLen
  split
  · rfl
  · next d hd => exact if_pos (h d hd)

/-- A whole frame `unit rfc p lo hi` at the front of the buffer, sized as an echo or by the table. -/
theorem rtuFrameSize_of_frame {lo hi : Byte} {p extra : Bytes}
    (h : (EchoReply e unit rfc ∧ p = e.payload) ∨
      (¬ EchoReply e unit rfc ∧ rspDataSize z rfc (p ++ [lo, hi] ++ extra) = some p.length)) :
    rtuFrameSize z e ([unit, rfc] ++ p ++ [lo, hi] ++ extra) = some (rtuAduLen p.length) := by
  have hlen : ¬ (unit :: rfc :: (p ++ [lo, hi] ++ extra)).length < 2 + p.length + 2 := by
    simp only [List.length_cons, List.length_append]
    omega
  rw [show [unit, rfc] ++ p ++ [lo, hi] ++ extra = unit :: rfc :: (p ++ [lo, hi] ++ extra) by simp]
  rcases h with ⟨hecho, rfl⟩ | ⟨hno, hsize⟩
  · rw [rtuFrameSize_of_echo z hecho, rtuEchoSize, if_neg (by omega), if_pos (by simp [slice]), rtuAduLen]
    congr 1
    omega
  · rw [rtuFrameSize_of_not_echo z hno, rtuSizedLen]
    simp only [List.drop_succ_cons, List.drop_zero, hsize]
    exact if_neg hlen
end

section
variable {z : Sizer} {b : Block} {e : Elem} {n : Nat}

theorem rtuEvaluate_of_wait (h : rtuFrameSize z e b.rtu.rxbuf = none) : rtuEvaluate z e b = b := by
  simp only [rtuEvaluate, h]

theorem rtuEvaluate_of_frame (h : rtuFrameSize z e b.rtu.rxbuf = some n) : rtuEvaluate z e b = rtuAccept e n b := by
  simp only [rtuEvaluate, h]
end

/-- Settles O31: in each of the three cases the frame has no size yet. -/
theorem rtuIncompleteFrameWaits : Obligations.RtuIncompleteFrameWaits := by
  intro s x e rest ho hst hq hu buf isEcho h
  have hsize : rtuFrameSize s.build.rspSizer e buf = none := by
    match hbuf : buf with
    | [] => exact rtuFrameSize_of_short _ (by simp)
    | [_] => exact rtuFrameSize_of_short _ (by simp)
    | unit :: rfc :: r =>
      have hecho : isEcho ↔ EchoReply e unit rfc := by
        simp only [isEcho, hbuf, EchoReply, List.getElem?_cons_zero, List.getElem?_cons_succ, Option.some.injEq]
      rcases h with h | ⟨he, h⟩ | ⟨hn, rfc', hrfc, h⟩
      · simp at h
      · rw [rtuFrameSize_of_echo _ (hecho.mp he)]
        exact rtuEchoSize_eq_none h
      · obtain rfl : rfc = rfc' := by simpa using hrfc
        rw [rtuFrameSize_of_not_echo _ (mt hecho.mpr hn)]
        exact rtuSizedLen_eq_none _ h
  rw [exec, execRtuRxb, rtuRxb_of_awaiting x ho hst hq hu, rtuEvaluate_of_wait hsize]
  rfl

/-! ### A whole frame (R227, R229, R228) -/

section
variable {b : Block} {e : Elem} {unit rfc lo hi : Byte} {p extra : Bytes}

theorem slice_frame : slice ([unit, rfc] ++ p ++ [lo, hi] ++ extra) 0 (rtuAduLen p.length) = [unit, rfc] ++ p ++ [lo, hi] := by
  rw [slice_zero]
  exact List.take_left' (by simp [rtuAduLen]; omega)

theorem bufDropFront_frame : bufDropFront ([unit, rfc] ++ p ++ [lo, hi] ++ extra) (rtuAduLen p.length) = extra :=
  List.drop_left' (by simp [rtuAduLen]; omega)

theorem rtuAccept_of_badCrc (hbuf : b.rtu.rxbuf = [unit, rfc] ++ p ++ [lo, hi] ++ extra)
    (hbad : crc16 ([unit, rfc] ++ p) ≠ word16 hi lo) :
    rtuAccept e (rtuAduLen p.length) b = (b.setRtuRxbuf extra).emit (.ierr .rtu e.tag .responseCrcError) := by
  simp only [rtuAccept, hbuf, slice_frame, bufDropFront_frame, rtuParse_fields, decide_eq_false hbad, if_true]

theorem rtuAccept_of_mismatch (hbuf : b.rtu.rxbuf = [unit, rfc] ++ p ++ [lo, hi] ++ extra)
    (hgood : crc16 ([unit, rfc] ++ p) = word16 hi lo) (hother : ¬ (unit = e.unit ∧ baseFc rfc = baseFc e.fc)) :
    rtuAccept e (rtuAduLen p.length) b = (b.setRtuRxbuf extra).emit (.ierr .rtu e.tag .responseRequestMismatch) := by
  simp only [rtuAccept, hbuf, slice_frame, bufDropFront_frame, rtuParse_fields, decide_eq_true hgood, rtuMatches,
    ← Bool.decide_and, decide_eq_false hother, Bool.true_eq_false, if_false, if_true]

theorem rtuAccept_of_match (hbuf : b.rtu.rxbuf = [unit, rfc] ++ p ++ [lo, hi] ++ extra)
    (hgood : crc16 ([unit, rfc] ++ p) = word16 hi lo) (hsame : unit = e.unit ∧ baseFc rfc = baseFc e.fc) :
    rtuAccept e (rtuAduLen p.length) b =
      rtuReplyDone e { unit := unit, fc := rfc, payload := p, crcValid := true } (b.setRtuRxbuf extra) := by
  simp only [rtuAccept, hbuf, slice_frame, bufDropFront_frame, rtuParse_fields, decide_eq_true hgood, rtuMatches,
    ← Bool.decide_and, decide_eq_true hsame, Bool.true_eq_false, if_false]
end

/-- Settles O32: the frame has its size, and the tests of its CRC and of its match decide. -/
theorem rtuWholeFrameIsAccepted : Obligations.RtuWholeFrameIsAccepted := by
  intro s x e rest unit rfc lo hi p extra ho hst hq hu r isEcho hbuf hwhole good same
  have hexec : exec (.rtuRxb x) s = .next (s.setBlock (rtuAccept e (rtuAduLen p.length) (s.block.setRtu r))) := by
    have hsize := rtuFrameSize_of_frame s.build.rspSizer hwhole
    rw [exec, execRtuRxb, rtuRxb_of_awaiting x ho hst hq hu, rtuEvaluate_of_frame (hbuf ▸ hsize)]
  have hrq : (s.block.setRtu r).rtu.q = e :: rest := by
    rw [← hq, ← (rtuAppend_fields x s.block).1, rtuAppend_eq_withByte]
  rw [hexec]
  refine ⟨fun hbad => ?_, fun hgood hother => ?_, fun hgood hsame => ?_⟩
  · rw [rtuAccept_of_badCrc hbuf hbad]
    rfl
  · rw [rtuAccept_of_mismatch hbuf hgood hother]
    rfl
  · rw [rtuAccept_of_match hbuf hgood hsame, rtuReplyDone_eq (b := (s.block.setRtu r).setRtuRxbuf extra) _ hrq,
      rtuKick_of_idle _ rfl]
    rfl

/-! ### One TICK on the RTU side (R218, R230, R231) -/

theorem exec_tick (s : State) : exec .tick s = .next (s.setBlock (tickBlock s.block)) := rfl

theorem Timer.expires_iff {t : Timer} : t.expires = true ↔ t.armed = true ∧ t.cnt.toNat ≤ 1 := by
  rw [Timer.expires, Bool.and_eq_true, decide_eq_true_eq]

theorem Timer.not_expires_of_not_armed {t : Timer} (h : t.armed = false) : t.expires = false := by
  rw [Timer.expires, h, Bool.false_and]

section
variable {b : Block} {e : Elem} {rest : List Elem}

theorem rtuTimeout_of_retries (hst : b.rtu.st = .waitingForReply) (hq : b.rtu.q = e :: rest) (hr : 0 < e.retries) :
    rtuTimeout b = rtuResend e b := by simp [rtuTimeout, hq, hst, hr]

theorem rtuTimeout_of_no_retries (hst : b.rtu.st = .waitingForReply) (hq : b.rtu.q = e :: rest) (hr : e.retries = 0) :
    rtuTimeout b = rtuFail e b := by simp [rtuTimeout, hq, hst, hr]

theorem rtuTimeout_outside_wait (h : b.rtu.st ≠ .waitingForReply ∨ b.rtu.q = []) : rtuTimeout b = b := by
  rcases rtuTimeout_cases b with ⟨_, hsame⟩ | ⟨e, rest, hst, hq, _⟩
  · exact hsame
  · rcases h with h | h
    · exact absurd hst h
    · simp [hq] at h

/-- The RTU side on which `RtuSend` runs, the response timer not armed. -/
theorem countDownAll_stop_dly (hr : b.rtu.rspt.armed = false) :
    ((countDownAll b).setRtuDly b.rtu.dly.stop).rtu = { b.rtu with dly := b.rtu.dly.stop } := by
  show { b.rtu with dly := b.rtu.dly.stop, rspt := b.rtu.rspt.countDown } = _
  rw [Timer.countDown_of_not_armed hr]

/-- The RTU side on which `RtuTimeout` runs, the delay timer not armed. -/
theorem countDownAll_stop_rspt (hd : b.rtu.dly.armed = false) :
    ((countDownAll b).setRtuRspt b.rtu.rspt.stop).rtu = { b.rtu with rspt := b.rtu.rspt.stop } := by
  show { b.rtu with dly := b.rtu.dly.countDown, rspt := b.rtu.rspt.stop } = _
  rw [Timer.countDown_of_not_armed hd]

theorem tickBlock_send (hd : b.rtu.dly.expires = true) (hr : b.rtu.rspt.armed = false) (hq : b.rtu.q = e :: rest) :
    (tickBlock b).rtu = { b.rtu with
        dly := b.rtu.dly.stop, rxbuf := [], st := .waitingForReply,
        rspt := if e.unit = 0 then b.rtu.rspt else Timer.arm b.cfg.rtuTimeout } ∧
      rtuTrace (tickBlock b).out = rtuTrace b.out ++ [.serTx e.adu] := by
  obtain ⟨hrtu, hout⟩ := tickBlock_rtu_send hd (Timer.not_expires_of_not_armed hr)
  rw [hrtu, hout, rtuSend_cons (b := (countDownAll b).setRtuDly b.rtu.dly.stop) hq, countDownAll_stop_dly hr,
    rtuTrace_append]
  exact ⟨rfl, rfl⟩

theorem tickBlock_send_nil (hd : b.rtu.dly.expires = true) (hr : b.rtu.rspt.armed = false) (hq : b.rtu.q = []) :
    (tickBlock b).rtu = { b.rtu with dly := b.rtu.dly.stop } ∧ rtuTrace (tickBlock b).out = rtuTrace b.out := by
  obtain ⟨hrtu, hout⟩ := tickBlock_rtu_send hd (Timer.not_expires_of_not_armed hr)
  rw [hrtu, hout, rtuSend_nil (b := (countDownAll b).setRtuDly b.rtu.dly.stop) hq, countDownAll_stop_dly hr]
  exact ⟨rfl, rfl⟩

theorem tickBlock_resend (hr : b.rtu.rspt.expires = true) (hd : b.rtu.dly.armed = false)
    (hst : b.rtu.st = .waitingForReply) (hq : b.rtu.q = e :: rest) (hleft : 0 < e.retries) :
    (tickBlock b).rtu = { b.rtu with
        q := { e with retries := e.retries - 1 } :: rest, rxbuf := [], rspt := Timer.arm b.cfg.rtuTimeout } ∧
      rtuTrace (tickBlock b).out = rtuTrace b.out ++ [.serTx e.adu] := by
  obtain ⟨hrtu, hout⟩ := tickBlock_rtu_timeout (Timer.not_expires_of_not_armed hd) hr
  rw [hrtu, hout, rtuTimeout_of_retries (b := (countDownAll b).setRtuRspt b.rtu.rspt.stop) hst hq hleft,
    rtuResend_eq (b := (countDownAll b).setRtuRspt b.rtu.rspt.stop) hq, countDownAll_stop_rspt hd, rtuTrace_append]
  exact ⟨rfl, rfl⟩

theorem tickBlock_fail (hr : b.rtu.rspt.expires = true) (hd : b.rtu.dly.armed = false)
    (hst : b.rtu.st = .waitingForReply) (hq : b.rtu.q = e :: rest) (hleft : e.retries = 0) :
    (tickBlock b).rtu = { b.rtu with
        q := rest, st := .idle, rspt := b.rtu.rspt.stop, dly := kicked (ifd b.cfg) rest b.rtu.dly } ∧
      rtuTrace (tickBlock b).out = rtuTrace b.out ++ [.done .rtu e.tag .error .timeoutError 0x00 []] := by
  obtain ⟨hrtu, hout⟩ := tickBlock_rtu_timeout (Timer.not_expires_of_not_armed hd) hr
  rw [hrtu, hout, rtuTimeout_of_no_retries (b := (countDownAll b).setRtuRspt b.rtu.rspt.stop) hst hq hleft,
    rtuFail_eq (b := (countDownAll b).setRtuRspt b.rtu.rspt.stop) hq, countDownAll_stop_rspt hd, rtuKick_of_idle _ rfl]
  exact ⟨rfl, rtuTrace_append _ _⟩

theorem tickBlock_timeout_outside_wait (hr : b.rtu.rspt.expires = true) (hd : b.rtu.dly.armed = false)
    (h : b.rtu.st ≠ .waitingForReply ∨ b.rtu.q = []) :
    (tickBlock b).rtu = { b.rtu with rspt := b.rtu.rspt.stop } ∧ rtuTrace (tickBlock b).out = rtuTrace b.out := by
  obtain ⟨hrtu, hout⟩ := tickBlock_rtu_timeout (Timer.not_expires_of_not_armed hd) hr
  rw [hrtu, hout, rtuTimeout_outside_wait (b := (countDownAll b).setRtuRspt b.rtu.rspt.stop) h,
    countDownAll_stop_rspt hd]
  exact ⟨rfl, rfl⟩
end

/-- Settles O33: only the delay timer expires, and its handler is `RtuSend`. -/
theorem tickSendsTheHead : Obligations.TickSendsTheHead := by
  intro s e rest hd hcnt hr
  have hexp : s.block.rtu.dly.expires = true := Timer.expires_iff.mpr ⟨hd, hcnt⟩
  exact ⟨fun hq => ⟨_, exec_tick s, tickBlock_send hexp hr hq⟩, fun hq => ⟨_, exec_tick s, tickBlock_send_nil hexp hr hq⟩⟩

/-- Settles O34: only the response timer expires, and its handler is `RtuTimeout`. -/
theorem tickResendsOrFailsTheHead : Obligations.TickResendsOrFailsTheHead := by
  intro s e rest hr hcnt hd
  have hexp : s.block.rtu.rspt.expires = true := Timer.expires_iff.mpr ⟨hr, hcnt⟩
  exact ⟨fun hst hq hleft => ⟨_, exec_tick s, tickBlock_resend hexp hd hst hq hleft⟩,
    fun hst hq hleft => ⟨_, exec_tick s, tickBlock_fail hexp hd hst hq hleft⟩,
    fun h => ⟨_, exec_tick s, tickBlock_timeout_outside_wait hexp hd h⟩⟩

/-! ### Runs of TICKs (R115, R307) -/

theorem runOps_ticks (k : Nat) (s : State) : runOps (ticks k) s = .next (s.setBlock (tickBlock^[k] s.block)) := by
  induction k generalizing s with
  | zero => rfl
  | succ k ih =>
    rw [ticks, List.replicate_succ, runOps_cons_of_next _ (exec_tick s), ← ticks, ih, Function.iterate_succ_apply]
    rfl

theorem tickBlock_iterate_cfg (k : Nat) (b : Block) : (tickBlock^[k] b).cfg = b.cfg := by
  induction k with
  | zero => rfl
  | succ k ih => rw [Function.iterate_succ_apply', tickBlock_cfg, ih]

/-- As long as no RTU timer expires, TICKs on the RTU side only count. -/
theorem tickBlock_iterate_quiet {b : Block} {k : Nat} (hd : ∀ j < k, (Timer.countDown^[j] b.rtu.dly).expires = false)
    (hr : ∀ j < k, (Timer.countDown^[j] b.rtu.rspt).expires = false) :
    (tickBlock^[k] b).rtu = { b.rtu with
        dly := Timer.countDown^[k] b.rtu.dly, rspt := Timer.countDown^[k] b.rtu.rspt } ∧
      rtuTrace (tickBlock^[k] b).out = rtuTrace b.out := by
  induction k with
  | zero => exact ⟨rfl, rfl⟩
  | succ k ih =>
    obtain ⟨hrtu, hout⟩ := ih (fun j hj => hd j (by omega)) (fun j hj => hr j (by omega))
    obtain ⟨hrtu', hout'⟩ := tickBlock_rtu_quiet (b := tickBlock^[k] b) (by rw [hrtu]; exact hd k (by omega))
      (by rw [hrtu]; exact hr k (by omega))
    simp only [Function.iterate_succ_apply']
    rw [hrtu', hout', hrtu, hout]
    exact ⟨rfl, rfl⟩

section
variable {t : Timer} {k : Nat}

theorem Timer.countDown_iterate_of_not_armed (h : t.armed = false) (k : Nat) : Timer.countDown^[k] t = t :=
  Function.iterate_fixed (Timer.countDown_of_not_armed h) k

theorem toNat_sub_ofNat {c : U32} {k : Nat} (h : k ≤ c.toNat) : (c - BitVec.ofNat 32 k).toNat = c.toNat - k := by
  bv_omega

/-- An armed timer counts down by one a TICK until it expires, which takes at least one TICK. -/
theorem Timer.countDown_iterate_of_armed (ha : t.armed = true) (hk : k < max t.cnt.toNat 1) :
    Timer.countDown^[k] t = { armed := true, cnt := t.cnt - BitVec.ofNat 32 k } := by
  induction k with
  | zero => rw [Function.iterate_zero_apply, BitVec.sub_zero, ← ha]
  | succ k ih =>
    have hcnt : 1 < (t.cnt - BitVec.ofNat 32 k).toNat := by
      rw [toNat_sub_ofNat (by omega)]
      omega
    rw [Function.iterate_succ_apply', ih (by omega), Timer.countDown_of_lt rfl hcnt]
    congr 1
    bv_omega

/-- It expires in the TICK numbered by its count, or in the first. -/
theorem Timer.expires_countDown_iterate (ha : t.armed = true) (hk : k < max t.cnt.toNat 1) :
    (Timer.countDown^[k] t).expires = true ↔ k + 1 = max t.cnt.toNat 1 := by
  simp only [Timer.countDown_iterate_of_armed ha hk, Timer.expires_iff, toNat_sub_ofNat (by omega : k ≤ t.cnt.toNat),
    true_and]
  omega

theorem Timer.not_expires_before (ha : t.armed = true) (hk : k < max t.cnt.toNat 1) :
    ∀ j < k, (Timer.countDown^[j] t).expires = false := by
  intro j hj
  rw [Bool.eq_false_iff, Ne, Timer.expires_countDown_iterate ha (by omega)]
  omega

theorem Timer.not_expires_ever (h : t.armed = false) (k : Nat) : ∀ j < k, (Timer.countDown^[j] t).expires = false :=
  fun j _ => by rw [Timer.countDown_iterate_of_not_armed h, Timer.not_expires_of_not_armed h]
end

/-! ### A scheduled request (R216, R218) -/

section
variable {b : Block} {e : Elem} {rest : List Elem} {k : Nat}

theorem RtuInv.rspt_of_dly_armed {p : Build} {c : Cfg} {r : Rtu} (h : RtuInv p c r) (hd : r.dly.armed = true) :
    r.rspt.armed = false := by
  rcases h.cases with ⟨_, _, hd', _⟩ | ⟨_, _, hr, _⟩ | ⟨_, _, _, _, hd', _⟩
  · simp [hd] at hd'
  · exact hr
  · simp [hd] at hd'

/-- Before the delay timer expires. -/
theorem tickBlock_iterate_delaying (hd : b.rtu.dly.armed = true) (hr : b.rtu.rspt.armed = false)
    (hk : k < max b.rtu.dly.cnt.toNat 1) :
    (tickBlock^[k] b).rtu = { b.rtu with dly := Timer.countDown^[k] b.rtu.dly } ∧
      rtuTrace (tickBlock^[k] b).out = rtuTrace b.out := by
  obtain ⟨hrtu, hout⟩ := tickBlock_iterate_quiet (Timer.not_expires_before hd hk) (Timer.not_expires_ever hr k)
  rw [Timer.countDown_iterate_of_not_armed hr] at hrtu
  exact ⟨hrtu, hout⟩

/-- After the TICK in which the delay timer expires, the `k + 1`-th. -/
theorem tickBlock_iterate_send (hd : b.rtu.dly.armed = true) (hr : b.rtu.rspt.armed = false) (hq : b.rtu.q = e :: rest)
    (hk : k + 1 = max b.rtu.dly.cnt.toNat 1) :
    (tickBlock^[k + 1] b).rtu = { b.rtu with
        dly := (Timer.countDown^[k] b.rtu.dly).stop, rxbuf := [], st := .waitingForReply,
        rspt := if e.unit = 0 then b.rtu.rspt else Timer.arm b.cfg.rtuTimeout } ∧
      rtuTrace (tickBlock^[k + 1] b).out = rtuTrace b.out ++ [.serTx e.adu] := by
  have hlt : k < max b.rtu.dly.cnt.toNat 1 := by omega
  obtain ⟨hrtu, hout⟩ := tickBlock_iterate_delaying hd hr hlt
  have hexp : (Timer.countDown^[k] b.rtu.dly).expires = true := (Timer.expires_countDown_iterate hd hlt).mpr hk
  obtain ⟨hrtu', hout'⟩ := tickBlock_send (b := tickBlock^[k] b) (e := e) (rest := rest) (by rw [hrtu]; exact hexp)
    (by rw [hrtu]; exact hr) (by rw [hrtu]; exact hq)
  rw [Function.iterate_succ_apply', hrtu', hout', hrtu, hout, tickBlock_iterate_cfg]
  exact ⟨rfl, rfl⟩
end

/-- Settles O35: the delay timer counts down by one a TICK, and the TICK in which it expires sends the head. -/
theorem scheduledRequestIsSentOnItsTick : Obligations.ScheduledRequestIsSentOnItsTick := by
  intro s e rest k hv hd hq
  have hr : s.block.rtu.rspt.armed = false := hv.rtu.rspt_of_dly_armed hd
  refine ⟨fun hk => ⟨_, runOps_ticks k s, ?_⟩, fun hk => ⟨_, runOps_ticks k s, ?_⟩⟩
  · rw [← Timer.countDown_iterate_of_armed hd hk]
    exact tickBlock_iterate_delaying hd hr hk
  · obtain ⟨n, rfl⟩ : ∃ n, k = n + 1 := ⟨k - 1, by omega⟩
    obtain ⟨hrtu, hout⟩ := tickBlock_iterate_send hd hr hq hk
    rw [State.setBlock_block, hrtu, hout]
    exact ⟨rfl, hq, fun hu => if_neg hu, rfl⟩

/-! ### A request that is never answered (R230, R231) -/

/-- The head `e` has just been sent and its response timer armed (R218, R230). -/
structure JustSent (e : Elem) (rest : List Elem) (b : Block) : Prop where
  waiting  : b.rtu.st = .waitingForReply
  queued   : b.rtu.q = e :: rest
  dlyStill : b.rtu.dly.armed = false
  rsptNew  : b.rtu.rspt = Timer.arm b.cfg.rtuTimeout

/-- The TICKs from a send to the expiry of its response timer. -/
def replyTicks (c : Cfg) : Nat := max c.rtuTimeout.toNat 1

section
variable {b : Block} {e : Elem} {rest : List Elem}

theorem RtuInv.justSent {p : Build} (h : RtuInv p b.cfg b.rtu) (hst : b.rtu.st = .waitingForReply)
    (hq : b.rtu.q = e :: rest) (hu : e.unit ≠ 0) (hcnt : b.rtu.rspt.cnt = b.cfg.rtuTimeout) : JustSent e rest b := by
  rcases h.cases with ⟨_, hi, _⟩ | ⟨_, hi, _⟩ | ⟨e', rest', _, _, hd, hq', hr⟩
  · simp [hi] at hst
  · simp [hi] at hst
  · rw [hq] at hq'
    cases hq'
    exact ⟨hst, hq, hd, by rw [Timer.arm, ← hcnt, ← hr.mpr hu]⟩

/-- Before the TICK in which the response timer expires nothing has happened but its counting. -/
theorem JustSent.lastTick (h : JustSent e rest b) :
    ∃ b', tickBlock^[replyTicks b.cfg] b = tickBlock b' ∧ b'.cfg = b.cfg ∧
      b'.rtu = { b.rtu with rspt := b'.rtu.rspt } ∧ b'.rtu.rspt.expires = true ∧
      rtuTrace b'.out = rtuTrace b.out := by
  obtain ⟨n, hn⟩ : ∃ n, replyTicks b.cfg = n + 1 := ⟨replyTicks b.cfg - 1, by simp only [replyTicks]; omega⟩
  have ha : b.rtu.rspt.armed = true := by rw [h.rsptNew]; rfl
  have hmax : n + 1 = max b.rtu.rspt.cnt.toNat 1 := by rw [h.rsptNew, ← hn]; rfl
  have hlt : n < max b.rtu.rspt.cnt.toNat 1 := by omega
  obtain ⟨hrtu, hout⟩ := tickBlock_iterate_quiet (Timer.not_expires_ever h.dlyStill n) (Timer.not_expires_before ha hlt)
  rw [Timer.countDown_iterate_of_not_armed h.dlyStill] at hrtu
  refine ⟨tickBlock^[n] b, by rw [hn, Function.iterate_succ_apply'], tickBlock_iterate_cfg n b, by rw [hrtu], ?_, hout⟩
  rw [hrtu]
  exact (Timer.expires_countDown_iterate ha hlt).mpr hmax

theorem JustSent.resent (h : JustSent e rest b) (hleft : 0 < e.retries) :
    JustSent { e with retries := e.retries - 1 } rest (tickBlock^[replyTicks b.cfg] b) ∧
      rtuTrace (tickBlock^[replyTicks b.cfg] b).out = rtuTrace b.out ++ [.serTx e.adu] := by
  obtain ⟨b', htick, hcfg, hb', hexp, hout⟩ := h.lastTick
  obtain ⟨hrtu, hout'⟩ := tickBlock_resend hexp (by rw [hb']; exact h.dlyStill) (by rw [hb']; exact h.waiting)
    (by rw [hb']; exact h.queued) hleft
  rw [htick, hout', hout]
  refine ⟨⟨?_, ?_, ?_, ?_⟩, rfl⟩ <;> rw [hrtu]
  · rw [hb']; exact h.waiting
  · rw [hb']; exact h.dlyStill
  · rw [tickBlock_cfg]

theorem JustSent.failed (h : JustSent e rest b) (hleft : e.retries = 0) :
    (tickBlock^[replyTicks b.cfg] b).rtu.q = rest ∧ (tickBlock^[replyTicks b.cfg] b).rtu.st = .idle ∧
      rtuTrace (tickBlock^[replyTicks b.cfg] b).out =
        rtuTrace b.out ++ [.done .rtu e.tag .error .timeoutError 0x00 []] := by
  obtain ⟨b', htick, hcfg, hb', hexp, hout⟩ := h.lastTick
  obtain ⟨hrtu, hout'⟩ := tickBlock_fail hexp (by rw [hb']; exact h.dlyStill) (by rw [hb']; exact h.waiting)
    (by rw [hb']; exact h.queued) hleft
  rw [htick, hrtu, hout', hout]
  exact ⟨rfl, rfl, rfl⟩

/-- Each retry is one resend, and then the request fails. -/
theorem JustSent.unanswered (h : JustSent e rest b) {r : Nat} (hr : e.retries = r) :
    (tickBlock^[(r + 1) * replyTicks b.cfg] b).rtu.q = rest ∧
      (tickBlock^[(r + 1) * replyTicks b.cfg] b).rtu.st = .idle ∧
      rtuTrace (tickBlock^[(r + 1) * replyTicks b.cfg] b).out = rtuTrace b.out ++ List.replicate r (.serTx e.adu) ++
        [.done .rtu e.tag .error .timeoutError 0x00 []] := by
  induction r generalizing b e with
  | zero =>
    rw [Nat.zero_add, Nat.one_mul, List.replicate_zero, List.append_nil]
    exact h.failed hr
  | succ r ih =>
    obtain ⟨hsent, hout⟩ := h.resent (by omega)
    have hrest := ih hsent (by simp [hr])
    rw [tickBlock_iterate_cfg, ← Function.iterate_add_apply, ← Nat.succ_mul, hout,
      List.append_assoc (rtuTrace b.out) [_]] at hrest
    exact hrest
end

/-- Settles O36: from send to send, and from the last send to the failure, it is the same number of TICKs. -/
theorem unansweredRequestIsResentThenFails : Obligations.UnansweredRequestIsResentThenFails :=
  fun s _ _ hv hst hq hu hcnt => ⟨_, runOps_ticks _ s, (hv.rtu.justSent hst hq hu hcnt).unanswered rfl⟩

end Sys2Proof.Machine
end

section
/-! PROOFS. The statements of 45_tcp_transport.md: open and close (O39, O40), submission (O41), write completion (O42),
received bytes (O43 to O45), and the TCP side of TICK (O46). -/

namespace Sys2Proof.Machine

/-! ### Open and close (R261, R262) -/

section
variable {s : State}

theorem exec_tcpOpen_of_open (h : s.block.tcp.isOpen = true) :
    exec .tcpOpen s = .next (answered s (.refused .alreadyOpen)) := if_pos h

theorem exec_tcpOpen_of_closed (h : s.block.tcp.isOpen = false) :
    exec .tcpOpen s = .next (s.accept (s.block.setTcpOpen true) .nothing) := if_neg (by simp [h])

theorem exec_tcpClose_of_closed (h : s.block.tcp.isOpen = false) :
    exec .tcpClose s = .next (answered s (.refused .notOpen)) := if_neg (by simp [h])

theorem exec_tcpClose_of_open (h : s.block.tcp.isOpen = true) :
    exec .tcpClose s = .next (s.accept (tcpClose s.block) .nothing) := if_pos h
end

/-- Settles O39: the one test, and the flag is all an open writes. -/
theorem tcpOpen : Obligations.TcpOpen :=
  fun _ => ⟨rfl, exec_tcpOpen_of_open, exec_tcpOpen_of_closed⟩

/-- Settles O40: the aborts append one event an entry, in the order of the table. -/
theorem tcpCloseAbortsAll : Obligations.TcpCloseAbortsAll := by
  refine fun s _ => ⟨rfl, exec_tcpClose_of_closed, fun ho => ?_⟩
  rw [exec_tcpClose_of_open ho, tcpClose_eq]
  rfl

/-! ### Submission (R263) -/

section
variable {s : State} {fc : Byte} {p : Bytes} {tid : U16} (tag : U16) (unit : Byte)

theorem exec_tcpSubmit_of_closed (fc : Byte) (p : Bytes) (h : s.block.tcp.isOpen = false) :
    exec (.tcpSubmit tag unit fc p) s = .next (answered s (.refused .notOpen)) := if_pos h

theorem exec_tcpSubmit_of_invalid (ho : s.block.tcp.isOpen = true) (hv : ¬ pduValid fc p.length = true) :
    exec (.tcpSubmit tag unit fc p) s = .next (answered s (.refused .badPdu)) :=
  (if_neg (by simp [ho])).trans (if_pos (Bool.eq_false_iff.mpr hv))

theorem exec_tcpSubmit_of_full (ho : s.block.tcp.isOpen = true) (hv : pduValid fc p.length = true)
    (hfull : s.block.tcp.tt.length = s.build.ttDepth) :
    exec (.tcpSubmit tag unit fc p) s = .next (answered s (.refused .full)) :=
  (if_neg (by simp [ho])).trans ((if_neg (by simp [hv])).trans (if_pos hfull))

theorem exec_tcpSubmit_of_chosen (ho : s.block.tcp.isOpen = true) (hv : pduValid fc p.length = true)
    (hroom : s.block.tcp.tt.length ≠ s.build.ttDepth) (hc : chooseTid s.block.tcp = some tid) :
    exec (.tcpSubmit tag unit fc p) s =
      .next (s.accept (tcpEnter tid (tcpEntry s.block.cfg tid tag unit fc p) s.block) (.tid tid)) := by
  simp [exec, execTcpSubmit, ho, hv, ttCount, hroom, hc]
end

/-- A table that is not full leaves an id free (R263). -/
theorem TcpInv.chooseTid_isSome {p : Build} {t : Tcp} (h : TcpInv p t) (hroom : t.tt.length ≠ p.ttDepth) :
    ∃ tid, chooseTid t = some tid := by
  have hbound : t.tt.length ≤ p.ttDepth := h.countBound
  have hdepth : p.ttDepth ≤ 65536 := p.ttDepthLess1.isLt
  exact Machine.chooseTid_isSome (by omega)

/-- Settles O41: the three tests in their order, and the search ends, as the table is not full. -/
theorem tcpSubmitChoosesAFreeIdAndWrites : Obligations.TcpSubmitChoosesAFreeIdAndWrites := by
  intro s tag unit fc p hv
  refine ⟨?_, exec_tcpSubmit_of_closed tag unit fc p, fun ho hbad => ?_, fun ho hlen h0 h80 hfull => ?_,
    fun ho hlen h0 h80 hroom => ?_⟩
  · rw [encode, Instr.operands, be16_eq]
    rfl
  · exact exec_tcpSubmit_of_invalid tag unit ho (not_pduValid_iff.mpr hbad)
  · exact exec_tcpSubmit_of_full tag unit ho (pduValid_iff.mpr ⟨h0, h80, hlen⟩) hfull
  · obtain ⟨tid, hc⟩ := hv.tcp.chooseTid_isSome hroom
    obtain ⟨n, hn, htid, hfree, hfirst⟩ := searchTid_spec hc
    exact ⟨n, tid, ttPut tid (tcpEntry s.block.cfg tid tag unit fc p) s.block.tcp.tt, hn, htid, hfree, hfirst,
      length_ttPut_new _ hfree, fun k => ttGet_ttPut k tid _ _,
      exec_tcpSubmit_of_chosen tag unit ho (pduValid_iff.mpr ⟨h0, h80, hlen⟩) hroom hc⟩

/-! ### Write completion (R265) -/

section
variable {tid : U16} {b : Block}

theorem tcpWrDone_of_not_armed {e : Entry} (ho : b.tcp.isOpen = true) (he : ttGet tid b.tcp.tt = some e)
    (ha : e.tmr.armed = false) :
    tcpWrDone tid b = b.setTcpTt (ttPut tid { e with tmr := Timer.arm b.cfg.tcpTimeout } b.tcp.tt) := by
  simp [tcpWrDone, he, ho, ha]

theorem tcpWrDone_of_other
    (h : b.tcp.isOpen = false ∨ ttGet tid b.tcp.tt = none ∨ ∃ e, ttGet tid b.tcp.tt = some e ∧ e.tmr.armed = true) :
    tcpWrDone tid b = b := by
  rcases tcpWrDone_cases tid b with ⟨_, hsame⟩ | ⟨e, ho, he, ha, _⟩
  · exact hsame
  · rcases h with hc | hnone | ⟨e', he', ha'⟩
    · simp [ho] at hc
    · simp [he] at hnone
    · rw [he] at he'
      cases he'
      simp [ha] at ha'
end

/-- Settles O42: the entry is written back in its place with its timer armed, or nothing is written. -/
theorem tcpWrDoneArmsTheTimer : Obligations.TcpWrDoneArmsTheTimer := by
  intro s tid hs
  refine ⟨?_, fun e ho he ha => ⟨_, ttKeys_ttPut_of_ttGet hs he, fun k => ttGet_ttPut k tid _ _, ?_⟩, fun h => ?_⟩
  · rw [encode, Instr.operands, be16_eq]
    rfl
  · rw [exec, execTcpWrDone, tcpWrDone_of_not_armed ho he ha]
    rfl
  · rw [exec, execTcpWrDone, tcpWrDone_of_other h]
    rfl

/-! ### A received byte (R267) -/

section
variable {s : State} (x : Byte)

theorem exec_tcpRxb_of_dropped (h : s.block.tcp.isOpen = false ∨ s.block.tcp.rxfault = true) :
    exec (.tcpRxb x) s = .next s := by
  have hdrop : tcpRxb x s.block = s.block := by
    unfold tcpRxb
    split
    · rfl
    · next ho => exact if_pos (h.resolve_left ho)
  rw [exec, execTcpRxb, hdrop]
  rfl

theorem exec_tcpRxb_of_stored (ho : s.block.tcp.isOpen = true) (hf : s.block.tcp.rxfault = false)
    (hlen : s.block.tcp.rxbuf.length < 260) :
    exec (.tcpRxb x) s = .next (s.setBlock (tcpEvaluate (s.block.setTcpRxbuf (s.block.tcp.rxbuf ++ [x])))) := by
  simp [exec, execTcpRxb, tcpRxb, ho, hf, bufAppend, Config.tcpRxbufCap, hlen]
end

/-! ### The header and the ADU in the buffer (R268, R269) -/

section
variable {b : Block} {t1 t0 p1 p0 l1 l0 unit : Byte} {r : Bytes}

theorem tcpEvaluate_of_short (h : b.tcp.rxbuf.length < 7) : tcpEvaluate b = b := if_pos h

/-- The receiver on a buffer that holds a whole header. -/
theorem tcpEvaluate_of_header (hbuf : b.tcp.rxbuf = [t1, t0, p1, p0, l1, l0, unit] ++ r) :
    tcpEvaluate b =
      if l1.toNat * 256 + l0.toNat < 2 ∨ 254 < l1.toNat * 256 + l0.toNat then tcpLengthFault b
      else if b.tcp.rxbuf.length < 6 + (l1.toNat * 256 + l0.toNat) then b
      else tcpCorrelate (word16 t1 t0) (byteAt b.tcp.rxbuf 7) (slice b.tcp.rxbuf 8 (l1.toNat * 256 + l0.toNat - 2))
        (b.setTcpRxbuf (b.tcp.rxbuf.drop (6 + (l1.toNat * 256 + l0.toNat)))) := by
  have htid : (tcpParseHdr (slice b.tcp.rxbuf 0 7)).tid = word16 t1 t0 := by rw [tcpParseHdr_slice, hbuf]; rfl
  have hlen : (tcpParseHdr (slice b.tcp.rxbuf 0 7)).length.toNat = l1.toNat * 256 + l0.toNat := by
    rw [tcpParseHdr_slice, hbuf]
    exact word16_toNat l1 l0
  have h7 : 7 ≤ b.tcp.rxbuf.length := by simp [hbuf]
  have hcases := tcpEvaluate_cases b
  simp only [htid, hlen] at hcases
  rcases hcases with ⟨hshort, _⟩ | ⟨_, hbad, h⟩ | ⟨_, h2, h254, ⟨hwait, h⟩ | ⟨hwhole, h⟩⟩
  · omega
  · rw [h, if_pos hbad]
  · rw [h, if_neg (by omega), if_pos hwait]
  · rw [h, if_neg (by omega), if_neg (by omega)]

theorem tcpEvaluate_of_badLength (hbuf : b.tcp.rxbuf = [t1, t0, p1, p0, l1, l0, unit] ++ r)
    (hbad : l1.toNat * 256 + l0.toNat < 2 ∨ 254 < l1.toNat * 256 + l0.toNat) : tcpEvaluate b = tcpLengthFault b := by
  rw [tcpEvaluate_of_header hbuf, if_pos hbad]

theorem tcpEvaluate_of_partial (hbuf : b.tcp.rxbuf = [t1, t0, p1, p0, l1, l0, unit] ++ r)
    (h2 : 2 ≤ l1.toNat * 256 + l0.toNat) (h254 : l1.toNat * 256 + l0.toNat ≤ 254)
    (hwait : b.tcp.rxbuf.length < 6 + (l1.toNat * 256 + l0.toNat)) : tcpEvaluate b = b := by
  rw [tcpEvaluate_of_header hbuf, if_neg (by omega), if_pos hwait]

theorem tcpEvaluate_of_adu {fc : Byte} {p extra : Bytes}
    (hbuf : b.tcp.rxbuf = [t1, t0, p1, p0, l1, l0, unit, fc] ++ p ++ extra)
    (hlen : l1.toNat * 256 + l0.toNat = p.length + 2) (hp : p.length ≤ 252) :
    tcpEvaluate b = tcpCorrelate (word16 t1 t0) fc p (b.setTcpRxbuf extra) := by
  have hwhole : ¬ b.tcp.rxbuf.length < 6 + (p.length + 2) := by
    simp only [hbuf, List.length_append, List.length_cons, List.length_nil]
    omega
  have hpayload : slice b.tcp.rxbuf 8 (p.length + 2 - 2) = p := by
    rw [hbuf]
    exact List.take_left
  have hextra : b.tcp.rxbuf.drop (6 + (p.length + 2)) = extra := by
    rw [hbuf]
    exact List.drop_left' (by simp; omega)
  have hfc : byteAt b.tcp.rxbuf 7 = fc := by rw [hbuf]; rfl
  rw [tcpEvaluate_of_header (r := fc :: (p ++ extra)) (by rw [hbuf]; rfl), hlen, if_neg (by omega), if_neg hwhole,
    hpayload, hextra, hfc]
end

/-- Settles O43: the byte is dropped, or appended to a buffer in which nothing is whole. -/
theorem tcpByteIsDroppedOrOnlyStored : Obligations.TcpByteIsDroppedOrOnlyStored := by
  refine fun s x => ⟨rfl, exec_tcpRxb_of_dropped x, ?_⟩
  intro ho hf hlen buf h
  rw [exec_tcpRxb_of_stored x ho hf hlen]
  rcases h with hshort | ⟨t1, t0, p1, p0, l1, l0, unit, r, hbuf, h2, h254, hwait⟩
  · rw [tcpEvaluate_of_short hshort]
    rfl
  · rw [tcpEvaluate_of_partial hbuf h2 h254 hwait]
    rfl

/-- Settles O44: the header's length field decides, the flag drops what follows, and a close clears it. -/
theorem tcpBadLengthFaultsTheReceiver : Obligations.TcpBadLengthFaultsTheReceiver := by
  refine ⟨fun s x t1 t0 p1 p0 l1 l0 unit r ho hf hlen hbuf hbad => ?_, fun s x hf => exec_tcpRxb_of_dropped x (.inr hf),
    fun s ho => ⟨_, exec_tcpClose_of_open ho, ?_⟩⟩
  · rw [exec_tcpRxb_of_stored x ho hf hlen, tcpEvaluate_of_badLength hbuf hbad]
    rfl
  · rw [State.accept_block, tcpClose_eq]

/-! ### A whole ADU (R270, R271, R272) -/

section
variable {b : Block} {tid : U16} {fc : Byte} {p : Bytes} {e : Entry}

theorem tcpCorrelate_of_unmatched (h : ttGet tid b.tcp.tt = none) :
    tcpCorrelate tid fc p b = b.emit (.log .unmatchedTid tid) := by
  simp only [tcpCorrelate, h]

theorem tcpCorrelate_of_wellFormed (he : ttGet tid b.tcp.tt = some e) (hw : rspWellFormed fc p.length = true) :
    tcpCorrelate tid fc p b =
      (b.setTcpTt (ttRemove tid b.tcp.tt)).emit (.done .tcp e.elem.tag .finished .noError fc p) := by
  simp only [tcpCorrelate, he, if_pos hw, Block.complete]

theorem tcpCorrelate_of_illFormed (he : ttGet tid b.tcp.tt = some e) (hw : ¬ rspWellFormed fc p.length = true) :
    tcpCorrelate tid fc p b =
      (b.setTcpTt (ttRemove tid b.tcp.tt)).emit (.done .tcp e.elem.tag .error .invalidResponseError fc p) := by
  simp only [tcpCorrelate, he, if_neg hw, Block.complete]
end

/-- Settles O45: the id of the ADU at the front of the buffer is looked up, and only the response itself is judged. -/
theorem tcpWholeAduIsCorrelated : Obligations.TcpWholeAduIsCorrelated := by
  intro s x t1 t0 p1 p0 l1 l0 unit fc p extra hs ho hf hcap hbuf hlen hp tid wellFormed
  have hexec : exec (.tcpRxb x) s = .next (s.setBlock (tcpCorrelate tid fc p
      (s.block.setTcpRxbuf extra))) := by
    rw [exec_tcpRxb_of_stored x ho hf hcap, tcpEvaluate_of_adu hbuf hlen hp]
    rfl
  have hwf : rspWellFormed fc p.length = true ↔ wellFormed := by
    rw [rspWellFormed_iff, pduValid_iff, and_assoc, and_assoc, and_iff_right hp]
  rw [hexec]
  refine ⟨fun hnone => ?_, fun e he => ⟨ttRemove tid s.block.tcp.tt, length_ttRemove he, fun k => ttGet_ttRemove hs,
    fun hw => ?_, fun hw => ?_⟩⟩
  · rw [tcpCorrelate_of_unmatched (b := s.block.setTcpRxbuf extra) hnone]
    rfl
  · rw [tcpCorrelate_of_wellFormed (b := s.block.setTcpRxbuf extra) he (hwf.mpr hw)]
    rfl
  · rw [tcpCorrelate_of_illFormed (b := s.block.setTcpRxbuf extra) he (mt hwf.mp hw)]
    rfl

/-! ### One TICK on the TCP side (R273, R274, R305, R307)

The entries are taken in the order of the table. When an entry's turn comes, those before it have been dealt with and those
after it have counted down: the table is `pre ++ (k, e) :: post`, and every operation on `k` acts in that one place. -/

section
variable {k : U16} {e : Entry} {pre post : TransTable}

theorem ttGet_middle (h : ∀ p ∈ pre, p.1.toNat < k.toNat) : ttGet k (pre ++ (k, e) :: post) = some e := by
  induction pre with
  | nil => exact if_pos rfl
  | cons q pre ih =>
    obtain ⟨hq, hpre⟩ := List.forall_mem_cons.mp h
    exact (if_neg (by rintro rfl; omega)).trans (ih hpre)

theorem ttPut_middle (e' : Entry) (h : ∀ p ∈ pre, p.1.toNat < k.toNat) :
    ttPut k e' (pre ++ (k, e) :: post) = pre ++ (k, e') :: post := by
  induction pre with
  | nil => exact (if_neg (by omega)).trans (if_pos rfl)
  | cons q pre ih =>
    obtain ⟨hq, hpre⟩ := List.forall_mem_cons.mp h
    exact (if_neg (by omega)).trans ((if_neg (by rintro rfl; omega)).trans (congrArg (q :: ·) (ih hpre)))

theorem ttRemove_middle (h : ∀ p ∈ pre, p.1.toNat < k.toNat) :
    ttRemove k (pre ++ (k, e) :: post) = pre ++ post := by
  induction pre with
  | nil => exact if_pos rfl
  | cons q pre ih =>
    obtain ⟨hq, hpre⟩ := List.forall_mem_cons.mp h
    exact (if_neg (by rintro rfl; omega)).trans (congrArg (q :: ·) (ih hpre))
end

/-! #### What a TICK does to an entry: `tickEntry` and `tickEvents` case by case -/

section
variable {p : U16 × Entry}

theorem Entry.countDown_of_expires {e : Entry} (h : e.tmr.expires = true) : e.countDown = e := by
  rw [Entry.countDown, Timer.countDown_of_expires h]

theorem tickEntry_of_not_expires (h : p.2.tmr.expires = false) : tickEntry p = some (p.1, p.2.countDown) := by
  have hx : ¬ (p.2.tmr.armed = true ∧ p.2.tmr.cnt.toNat ≤ 1) := by rw [← Timer.expires_iff, h]; simp
  rw [tickEntry, if_neg hx, Entry.countDown]
  cases ha : p.2.tmr.armed with
  | true =>
    have hlt : 1 < p.2.tmr.cnt.toNat := Nat.lt_of_not_le fun hle => hx ⟨ha, hle⟩
    rw [if_pos rfl, Timer.countDown_of_lt ha hlt, ← ha]
  | false => rw [if_neg (by simp), Timer.countDown_of_not_armed ha]

theorem tickEvents_of_not_expires (h : p.2.tmr.expires = false) : tickEvents p = [] :=
  if_neg (by rw [← Timer.expires_iff, h]; simp)

theorem tickEntry_of_retries (hx : p.2.tmr.expires = true) (hr : 0 < p.2.elem.retries) :
    tickEntry p = some (p.1, { elem := { p.2.elem with retries := p.2.elem.retries - 1 }, tmr := p.2.tmr.stop }) :=
  (if_pos (Timer.expires_iff.mp hx)).trans (if_pos hr)

theorem tickEvents_of_retries (hx : p.2.tmr.expires = true) (hr : 0 < p.2.elem.retries) :
    tickEvents p = [.tcpTx p.2.elem.adu] := (if_pos (Timer.expires_iff.mp hx)).trans (if_pos hr)

theorem tickEntry_of_no_retries (hx : p.2.tmr.expires = true) (hr : p.2.elem.retries = 0) : tickEntry p = none :=
  (if_pos (Timer.expires_iff.mp hx)).trans (if_neg (by omega))

theorem tickEvents_of_no_retries (hx : p.2.tmr.expires = true) (hr : p.2.elem.retries = 0) :
    tickEvents p = [.done .tcp p.2.elem.tag .error .timeoutError 0x00 []] :=
  (if_pos (Timer.expires_iff.mp hx)).trans (if_neg (by omega))

theorem tickEntry_fst {q : U16 × Entry} (h : tickEntry p = some q) : q.1 = p.1 := by
  cases hx : p.2.tmr.expires with
  | false =>
    rw [tickEntry_of_not_expires hx] at h
    cases h
    rfl
  | true =>
    rcases Nat.eq_zero_or_pos p.2.elem.retries with hr | hr
    · rw [tickEntry_of_no_retries hx hr] at h
      cases h
    · rw [tickEntry_of_retries hx hr] at h
      cases h
      rfl
end

/-! #### The turn of an entry -/

section
variable {b : Block} {k : U16} {e : Entry} {pre post : TransTable}

theorem expire_tcpTmr_of_armed (he : ttGet k b.tcp.tt = some e) (ha : e.tmr.armed = true) :
    expire b (.tcpTmr k) = tcpTimeout k (b.setTcpTt (ttPut k { e with tmr := e.tmr.stop } b.tcp.tt)) := by
  simp [expire, timerOf, he, ha, fire, disarm]

theorem tcpTimeout_of_retries (he : ttGet k b.tcp.tt = some e) (hr : 0 < e.elem.retries) :
    tcpTimeout k b =
      (b.setTcpTt (ttPut k { e with elem := { e.elem with retries := e.elem.retries - 1 } } b.tcp.tt)).emit
        (.tcpTx e.elem.adu) := by
  simp only [tcpTimeout, he, if_pos hr]

theorem tcpTimeout_of_no_retries (he : ttGet k b.tcp.tt = some e) (hr : e.elem.retries = 0) :
    tcpTimeout k b = (b.setTcpTt (ttRemove k b.tcp.tt)).completeEmpty .tcp e.elem.tag .error .timeoutError := by
  simp only [tcpTimeout, he, hr, if_neg (Nat.lt_irrefl 0)]

/-- An entry whose timer expires is resent in its place, or removed. -/
theorem expire_tcpTmr_middle (htt : b.tcp.tt = pre ++ (k, e) :: post) (hpre : ∀ p ∈ pre, p.1.toNat < k.toNat)
    (hx : e.tmr.expires = true) :
    expire b (.tcpTmr k) = { b with
      tcp := { b.tcp with tt := pre ++ (tickEntry (k, e)).toList ++ post }
      out := b.out ++ tickEvents (k, e) } := by
  obtain ⟨ha, _⟩ := Timer.expires_iff.mp hx
  have hget : ttGet k b.tcp.tt = some e := by rw [htt, ttGet_middle hpre]
  have hget' : ttGet k (b.setTcpTt (pre ++ (k, { e with tmr := e.tmr.stop }) :: post)).tcp.tt =
      some { e with tmr := e.tmr.stop } := ttGet_middle hpre
  rw [expire_tcpTmr_of_armed hget ha, htt, ttPut_middle _ hpre]
  rcases Nat.eq_zero_or_pos e.elem.retries with hr | hr
  · rw [tcpTimeout_of_no_retries hget' hr, tickEntry_of_no_retries hx hr, tickEvents_of_no_retries hx hr,
      Block.setTcpTt_tcp_tt, ttRemove_middle hpre, Option.toList_none, List.append_nil]
    rfl
  · rw [tcpTimeout_of_retries hget' hr, tickEntry_of_retries hx hr, tickEvents_of_retries hx hr,
      Block.setTcpTt_tcp_tt, ttPut_middle _ hpre, Option.toList_some, List.append_assoc, List.singleton_append]
    rfl
end

/-! #### All entries in their turns -/

/-- The ids whose timers expire are those of the entries whose timers expire. -/
theorem expiringTcp_eq_map {tt : TransTable} (hs : ttSorted tt) :
    expiringTcp tt = (tt.filter fun p => p.2.tmr.expires).map Prod.fst := by
  rw [expiringTcp, ttKeys, List.filter_map]
  congr 1
  refine List.filter_congr fun p hp => ?_
  rw [Function.comp_apply, ttGet_of_mem hs hp, Option.any_some]

/-- The turns of the entries of `post`, those of `pre` having been dealt with. -/
theorem foldl_expire_tcpTmr {pre post : TransTable} {b : Block}
    (htt : b.tcp.tt = pre ++ post.map fun p => (p.1, p.2.countDown)) (hs : ttSorted post)
    (hpre : ∀ p ∈ pre, ∀ q ∈ post, p.1.toNat < q.1.toNat) :
    (expiringTcp post).foldl (fun b k => expire b (.tcpTmr k)) b = { b with
      tcp := { b.tcp with tt := pre ++ post.filterMap tickEntry }
      out := b.out ++ post.flatMap tickEvents } := by
  rw [expiringTcp_eq_map hs]
  induction post generalizing pre b with
  | nil =>
    rw [List.map_nil] at htt
    simp [← htt]
  | cons p post ih =>
    obtain ⟨k, e⟩ := p
    obtain ⟨hk, hs'⟩ := ttSorted_cons.mp hs
    have hpre' : ∀ p ∈ pre ++ (tickEntry (k, e)).toList, ∀ q ∈ post, p.1.toNat < q.1.toNat := by
      intro p hp q hq
      rcases List.mem_append.mp hp with hp | hp
      · exact hpre p hp q (List.mem_cons_of_mem _ hq)
      · rw [tickEntry_fst (Option.mem_toList.mp hp)]
        exact hk q hq
    have hfm : pre ++ ((k, e) :: post).filterMap tickEntry =
        pre ++ (tickEntry (k, e)).toList ++ post.filterMap tickEntry := by
      simp only [List.filterMap_eq_flatMap_toList, List.flatMap_cons, List.append_assoc]
    cases hx : e.tmr.expires with
    | false =>
      have htt' : b.tcp.tt = pre ++ (tickEntry (k, e)).toList ++ post.map fun p => (p.1, p.2.countDown) := by
        rw [htt, tickEntry_of_not_expires hx]
        simp
      rw [List.filter_cons_of_neg (by simp [hx]), ih htt' hs' hpre', hfm, List.flatMap_cons,
        tickEvents_of_not_expires hx, List.nil_append]
    | true =>
      have hmid := expire_tcpTmr_middle (by rw [htt, List.map_cons, Entry.countDown_of_expires hx])
        (fun p hp => hpre p hp _ List.mem_cons_self) hx
      rw [List.filter_cons_of_pos (by simp [hx]), List.map_cons, List.foldl_cons, hmid, ih rfl hs' hpre', hfm,
        List.flatMap_cons, ← List.append_assoc b.out]

/-- Settles O46: the RTU handlers leave the table alone, and each expired entry is dealt with in its place. -/
theorem tickActsOnEachEntryForItself : Obligations.TickActsOnEachEntryForItself := by
  intro s hs
  obtain ⟨rtuEvents, hout, hrtu⟩ := (rtuLocal_expiringRtu s.block.rtu).out (countDownAll s.block)
  have htcp := tickRtu_tcp s.block
  have htt : ((expiringRtu s.block.rtu).foldl expire (countDownAll s.block)).tcp.tt =
      s.block.tcp.tt.map fun p => (p.1, p.2.countDown) := by rw [htcp, countDownAll_tcp]
  have hfold := foldl_expire_tcpTmr (pre := []) htt hs nofun
  refine ⟨_, rtuEvents, exec_tick s, ?_, ?_, hrtu⟩
  · rw [State.setBlock_block, tickBlock_eq, hfold, htcp]
    rfl
  · rw [State.setBlock_block, tickBlock_eq, hfold, hout]
    rfl

end Sys2Proof.Machine
end

section
/-! PROOFS. The statements of 46_config_and_tick.md: the configuration registers (O48) and what CFG.RD reads (O49), NOP
(O50), TICK with no timer armed (O51), and TICK with no RTU timer at its last count (O52). -/

namespace Sys2Proof.Machine

/-! ### The registers (R40)

The seven registers in index order: `cfgGet` looks an index up among them, `cfgSet` replaces the one at its index. -/

/-- `CFG[0..6]` (R40). -/
def Cfg.regs (c : Cfg) : List U32 :=
  [c.baud, c.ifdOvr, c.turnaround, c.rtuTimeout, c.rtuRetries, c.tcpTimeout, c.tcpRetries]

section
variable {idx : Byte}

theorem cfgGet_eq_getElem? (idx : Byte) (c : Cfg) : cfgGet idx c = c.regs[idx.toNat]? := by
  unfold cfgGet
  generalize idx.toNat = n
  match n with
  | 0 | 1 | 2 | 3 | 4 | 5 | 6 | _ + 7 => rfl

theorem regs_cfgSet (idx : Byte) (val : U32) (c : Cfg) : (cfgSet idx val c).regs = c.regs.set idx.toNat val := by
  unfold cfgSet
  generalize idx.toNat = n
  match n with
  | 0 | 1 | 2 | 3 | 4 | 5 | 6 | _ + 7 => rfl

theorem cfgGet_of_reserved (h : 6 < idx.toNat) (c : Cfg) : cfgGet idx c = none := by
  rw [cfgGet_eq_getElem?]
  exact List.getElem?_eq_none h

/-- A write to a register is read back there, and no other index reads anything new. -/
theorem cfgGet_cfgSet (h : idx.toNat ≤ 6) (j : Byte) (val : U32) (c : Cfg) :
    cfgGet j (cfgSet idx val c) = if j = idx then some val else cfgGet j c := by
  have hlen : idx.toNat < c.regs.length := Nat.lt_succ_of_le h
  rw [cfgGet_eq_getElem?, cfgGet_eq_getElem?, regs_cfgSet]
  by_cases hj : j = idx
  · rw [if_pos hj, hj, List.getElem?_set_self hlen]
  · rw [if_neg hj, List.getElem?_set_ne fun h => hj (BitVec.eq_of_toNat_eq h.symm)]

/-! ### CFG.WR (R301) -/

variable {val : U32} {s : State}

theorem exec_cfgWr_of_badReg (h : 6 < idx.toNat) (val : U32) (s : State) :
    exec (.cfgWr idx val) s = .next (answered s (.refused .badReg)) := if_pos h

theorem exec_cfgWr_of_badCfg (h : idx = 0 ∧ val = 0 ∧ s.block.rtu.isOpen = true) :
    exec (.cfgWr idx val) s = .next (answered s (.refused .badCfg)) :=
  (if_neg (by rw [h.1]; decide)).trans (if_pos h)

theorem exec_cfgWr_of_writable (h : idx.toNat ≤ 6) (hok : ¬ (idx = 0 ∧ val = 0 ∧ s.block.rtu.isOpen = true)) :
    exec (.cfgWr idx val) s = .next (s.accept (s.block.setCfg (cfgSet idx val s.block.cfg)) .nothing) :=
  (if_neg (Nat.not_lt.mpr h)).trans (if_neg hok)

/-! ### CFG.RD (R302) -/

theorem exec_cfgRd_of_some {v : U32} (h : cfgRead idx s.block = some v) :
    exec (.cfgRd idx) s = .next (answered s (.ok (.val v))) := by
  simp only [exec, execCfgRd, h]
  rfl

theorem exec_cfgRd_of_none (h : cfgRead idx s.block = none) :
    exec (.cfgRd idx) s = .next (answered s (.refused .badReg)) := by
  simp only [exec, execCfgRd, h]
  rfl

theorem cfgRead_of_register {v : U32} {b : Block} (h : b.cfg.regs[idx.toNat]? = some v) : cfgRead idx b = some v := by
  rw [← cfgGet_eq_getElem?] at h
  rw [cfgRead, h]

theorem readOnlyView_of_reserved (h : 10 < idx.toNat) (b : Block) : readOnlyView idx b = none := by
  obtain ⟨n, hn⟩ := Nat.exists_eq_add_of_lt h
  rw [readOnlyView, hn, show 10 + n + 1 = n + 11 by omega]
  rfl

theorem cfgRead_of_reserved (h : 10 < idx.toNat) (b : Block) : cfgRead idx b = none := by
  rw [cfgRead, cfgGet_of_reserved (by omega), readOnlyView_of_reserved h]
end

/-! ### The views (R39) -/

theorem toNat_countView {n : Nat} (h : n < 2 ^ 32) : (countView n).toNat = n := by
  rw [countView, if_pos h, BitVec.toNat_ofNat, Nat.mod_eq_of_lt h]

theorem toNat_append_lt {n m k : Nat} {x : BitVec n} (h : x.toNat < 2 ^ k) (y : BitVec m) :
    (x ++ y).toNat < 2 ^ (k + m) := by
  rw [BitVec.toNat_append]
  exact Nat.or_lt_two_pow (Nat.shiftLeft_lt h) (Nat.lt_of_lt_of_le y.isLt (Nat.pow_le_pow_right (by decide) (by omega)))

/-- Bits 31:8 of `STATUS` are zero: each bit put behind a zero word makes it one bit longer. -/
theorem statusView_lt (b : Block) : (statusView b).toNat < 256 :=
  have h : (0 : BitVec 24).toNat < 2 ^ 0 := by decide
  toNat_append_lt (toNat_append_lt (toNat_append_lt (toNat_append_lt (toNat_append_lt (toNat_append_lt
    (toNat_append_lt h _) _) _) _) _) _) _

/-- Bits 3:2 of `STATUS` stand before the two open flags. -/
theorem statusView_st (b : Block) : (statusView b).extractLsb' 2 2 = b.rtu.st.code := by
  rw [statusView, BitVec.extractLsb'_append_eq_of_le (by decide), BitVec.extractLsb'_append_eq_of_le (by decide)]
  exact BitVec.extractLsb'_append_eq_right

theorem statusView_flags (b : Block) :
    (statusView b).getLsbD 0 = b.rtu.isOpen ∧ (statusView b).getLsbD 1 = b.tcp.isOpen ∧
    (statusView b).getLsbD 4 = b.rtu.dly.armed ∧ (statusView b).getLsbD 5 = b.rtu.rspt.armed ∧
    (statusView b).getLsbD 6 = b.rtu.rxovf ∧ (statusView b).getLsbD 7 = b.tcp.rxfault := by
  simp only [statusView, bit, BitVec.getLsbD_append]
  simp

/-! ### TICK with no timer at its last count (R305) -/

theorem Timer.not_expires_of_lt {t : Timer} (h : t.armed = true → 1 < t.cnt.toNat) : t.expires = false := by
  rw [Bool.eq_false_iff, Ne, Timer.expires_iff]
  rintro ⟨ha, hle⟩
  exact absurd (h ha) (Nat.not_lt.mpr hle)

theorem Timer.countDown_eq_ite {t : Timer} (h : t.armed = true → 1 < t.cnt.toNat) :
    t.countDown = if t.armed = true then { armed := true, cnt := t.cnt - 1 } else t := by
  split
  · next ha => exact Timer.countDown_of_lt ha (h ha)
  · next ha => exact Timer.countDown_of_not_armed (Bool.eq_false_iff.mpr ha)

theorem expiringTcp_of_quiet {tt : TransTable} (h : ∀ p ∈ tt, p.2.tmr.expires = false) : expiringTcp tt = [] := by
  rw [expiringTcp, List.filter_eq_nil_iff]
  intro k _
  cases he : ttGet k tt with
  | none => simp
  | some e => simp [h _ (mem_of_ttGet he)]

/-- No timer expires: a TICK is the countdown. -/
theorem tickBlock_of_quiet {b : Block} (hd : b.rtu.dly.expires = false) (hr : b.rtu.rspt.expires = false)
    (ht : ∀ p ∈ b.tcp.tt, p.2.tmr.expires = false) : tickBlock b = countDownAll b := by
  simp [tickBlock_eq, expiringTcp_of_quiet ht, expiringRtu, hd, hr]

theorem map_countDown_of_not_armed {tt : TransTable} (h : ∀ p ∈ tt, p.2.tmr.armed = false) :
    tt.map (fun p => (p.1, p.2.countDown)) = tt := by
  refine (List.map_congr_left fun p hp => ?_).trans tt.map_id
  rw [Entry.countDown, Timer.countDown_of_not_armed (h p hp)]
  rfl

/-- No timer is armed: the countdown counts nothing. -/
theorem countDownAll_of_not_armed {b : Block} (hd : b.rtu.dly.armed = false) (hr : b.rtu.rspt.armed = false)
    (ht : ∀ p ∈ b.tcp.tt, p.2.tmr.armed = false) : countDownAll b = b := by
  show { b with
    rtu := { b.rtu with dly := b.rtu.dly.countDown, rspt := b.rtu.rspt.countDown }
    tcp := { b.tcp with tt := b.tcp.tt.map fun p => (p.1, p.2.countDown) } } = b
  rw [Timer.countDown_of_not_armed hd, Timer.countDown_of_not_armed hr, map_countDown_of_not_armed ht]

/-! ### The statements -/

/-- Settles O52: neither RTU timer expires, so the RTU side of the TICK is the countdown. -/
theorem tickCountsArmedTimersDown : Obligations.TickCountsArmedTimersDown := by
  intro s hd hr
  obtain ⟨hrtu, hout⟩ := tickBlock_rtu_quiet (Timer.not_expires_of_lt hd) (Timer.not_expires_of_lt hr)
  refine ⟨_, exec_tick s, hout, ?_⟩
  rw [State.setBlock_block, hrtu, Timer.countDown_eq_ite hd, Timer.countDown_eq_ite hr]

/-- Settles O48: the two tests in their order, and the write replaces the register at its index. -/
theorem cfgWrWritesOneRegister : Obligations.CfgWrWritesOneRegister := by
  refine fun s idx val => ⟨?_, fun h => exec_cfgWr_of_badReg h val s,
    fun hi hv ho => exec_cfgWr_of_badCfg ⟨hi, hv, ho⟩,
    fun h hok => ⟨cfgSet idx val s.block.cfg, fun j _ => cfgGet_cfgSet h j val _, exec_cfgWr_of_writable h hok⟩⟩
  show 0x40 :: idx :: be32 val = _
  rw [be32_eq]

/-- Settles O49: the registers are the list they are looked up in, and each view is read bit by bit or as its number. -/
theorem cfgRdReadsRegistersAndViews : Obligations.CfgRdReadsRegistersAndViews := by
  intro s
  refine ⟨fun _ => rfl, fun idx v h => exec_cfgRd_of_some (cfgRead_of_register h),
    ⟨statusView s.block, exec_cfgRd_of_some rfl, ?_⟩, 
    ⟨countView s.block.rtu.q.length, exec_cfgRd_of_some rfl, toNat_countView⟩,
    ⟨countView (ttCount s.block.tcp.tt), exec_cfgRd_of_some rfl, toNat_countView⟩,
    ⟨s.block.tcp.nextTid.zeroExtend 32, exec_cfgRd_of_some rfl, ?_⟩,
    fun idx h => exec_cfgRd_of_none (cfgRead_of_reserved h s.block)⟩
  · obtain ⟨h0, h1, h4, h5, h6, h7⟩ := statusView_flags s.block
    exact ⟨h0, h1, statusView_st s.block, h4, h5, h6, h7, statusView_lt s.block⟩
  · exact BitVec.toNat_setWidth_of_le (by decide)

/-- Settles O50: the accepted block is the one NOP was given. -/
theorem nopChangesNothing : Obligations.NopChangesNothing := ⟨rfl, fun _ => rfl⟩

/-- Settles O51: no timer is armed, so none expires and the countdown, all that is left of the TICK, counts nothing. -/
theorem tickWithNoTimerArmedChangesNothing : Obligations.TickWithNoTimerArmedChangesNothing := by
  refine ⟨rfl, fun s hd hr ht => ?_⟩
  have hquiet := tickBlock_of_quiet (Timer.not_expires_of_not_armed hd) (Timer.not_expires_of_not_armed hr)
    fun p hp => Timer.not_expires_of_not_armed (ht p hp)
  rw [exec_tick, hquiet, countDownAll_of_not_armed hd hr ht]
  rfl

end Sys2Proof.Machine
end

section
/-! PROOFS. The statements of 60_exceptions.md: the two transports do not interfere (O59), what a refusal is (O53), every
operation completes (O56), the codes the block emits (O57), and a step without an operation (O3). -/

namespace Sys2Proof.Machine

/-! ### Noninterference (R343)

An operation is run from two states. On one side of the block the two runs do the same if they take the same branches:
each test an operation of a transport makes is on what `rtuView` or `tcpView` shows. -/

/-- What the RTU transport reads: its own elements and the configuration. -/
def rtuView (b : Block) : Rtu × Cfg := (b.rtu, b.cfg)

/-- What the TCP transport reads: its own elements and two registers. -/
def tcpView (b : Block) : Tcp × U32 × U32 := (b.tcp, b.cfg.tcpTimeout, b.cfg.tcpRetries)

theorem rtuView_eq_iff {b b' : Block} : rtuView b = rtuView b' ↔ b.rtu = b'.rtu ∧ b.cfg = b'.cfg := Prod.ext_iff

theorem tcpView_eq_iff {b b' : Block} : tcpView b = tcpView b' ↔
    b.tcp = b'.tcp ∧ b.cfg.tcpTimeout = b'.cfg.tcpTimeout ∧ b.cfg.tcpRetries = b'.cfg.tcpRetries := by
  rw [tcpView, tcpView, Prod.mk.injEq, Prod.mk.injEq]

/-- From `a` to `b` and from `a'` to `b'` the same happens on one side: its elements end the same, and the same events are
added to its trace. -/
structure Alike {α : Type} (view : Block → α) (trace : List Event → List Event) (a b a' b' : Block) : Prop where
  view_eq : view b = view b'
  added   : ∃ new, trace b.out = trace a.out ++ new ∧ trace b'.out = trace a'.out ++ new

section
variable {α : Type} {view : Block → α} {trace : List Event → List Event} {a b c a' b' c' : Block}

/-- Neither run touches the side. -/
theorem Alike.of_frame (h : view a = view a') (hb : view b = view a ∧ trace b.out = trace a.out)
    (hb' : view b' = view a' ∧ trace b'.out = trace a'.out) : Alike view trace a b a' b' :=
  ⟨by rw [hb.1, hb'.1, h], [], by rw [hb.2, List.append_nil], by rw [hb'.2, List.append_nil]⟩

theorem Alike.trans (h : Alike view trace a b a' b') (h' : Alike view trace b c b' c') : Alike view trace a c a' c' := by
  obtain ⟨_, new, hb, hb'⟩ := h
  obtain ⟨hview, more, hc, hc'⟩ := h'
  exact ⟨hview, new ++ more, by rw [hc, hb, List.append_assoc], by rw [hc', hb', List.append_assoc]⟩

/-- The events added, whatever is added on the other side, have the same trace. -/
theorem Alike.trace_new (h : Alike view trace a b a' b') (hadd : ∀ x y, trace (x ++ y) = trace x ++ trace y)
    {new new' : List Event} (ho : b.out = a.out ++ new) (ho' : b'.out = a'.out ++ new') : trace new = trace new' := by
  obtain ⟨_, more, hb, hb'⟩ := h
  rw [ho, hadd, List.append_cancel_left_eq] at hb
  rw [ho', hadd, List.append_cancel_left_eq] at hb'
  rw [hb, hb']
end

theorem RtuLocal.alike {f : Block → Block} (hf : RtuLocal f) {b b' : Block} (h : rtuView b = rtuView b') :
    Alike rtuView rtuTrace b (f b) b' (f b') := by
  obtain ⟨hr, hc⟩ := rtuView_eq_iff.mp h
  obtain ⟨hrtu, new, ho, ho'⟩ := hf.congr hc hr
  exact ⟨rtuView_eq_iff.mpr ⟨hrtu, by rw [hf.cfg, hf.cfg, hc]⟩, rtuTrace new, by rw [ho, rtuTrace_append],
    by rw [ho', rtuTrace_append]⟩

theorem TcpLocal.alike {f : Block → Block} (hf : TcpLocal f) {b b' : Block} (h : tcpView b = tcpView b') :
    Alike tcpView tcpTrace b (f b) b' (f b') := by
  obtain ⟨ht, hc, hn⟩ := tcpView_eq_iff.mp h
  obtain ⟨htcp, new, ho, ho'⟩ := hf.congr hc ht
  exact ⟨tcpView_eq_iff.mpr ⟨htcp, by rw [hf.cfg, hf.cfg, hc], by rw [hf.cfg, hf.cfg, hn]⟩, tcpTrace new,
    by rw [ho, tcpTrace_append], by rw [ho', tcpTrace_append]⟩

theorem TcpLocal.rtuView_frame {f : Block → Block} (hf : TcpLocal f) (b : Block) :
    rtuView (f b) = rtuView b ∧ Machine.rtuTrace (f b).out = Machine.rtuTrace b.out :=
  ⟨rtuView_eq_iff.mpr ⟨hf.rtu b, hf.cfg b⟩, hf.rtuTrace b⟩

theorem RtuLocal.tcpView_frame {f : Block → Block} (hf : RtuLocal f) (b : Block) :
    tcpView (f b) = tcpView b ∧ Machine.tcpTrace (f b).out = Machine.tcpTrace b.out :=
  ⟨tcpView_eq_iff.mpr ⟨hf.tcp b, by rw [hf.cfg], by rw [hf.cfg]⟩, hf.tcpTrace b⟩

/-! #### TICK, in which both transports act -/

theorem countDownAll_alike_rtu {b b' : Block} (h : rtuView b = rtuView b') :
    Alike rtuView rtuTrace b (countDownAll b) b' (countDownAll b') := by
  obtain ⟨hr, hc⟩ := rtuView_eq_iff.mp h
  exact ⟨rtuView_eq_iff.mpr ⟨by rw [countDownAll_rtu, countDownAll_rtu, hr], hc⟩, [],
    (List.append_nil _).symm, (List.append_nil _).symm⟩

theorem countDownAll_alike_tcp {b b' : Block} (h : tcpView b = tcpView b') :
    Alike tcpView tcpTrace b (countDownAll b) b' (countDownAll b') := by
  obtain ⟨ht, hc⟩ := tcpView_eq_iff.mp h
  exact ⟨tcpView_eq_iff.mpr ⟨by rw [countDownAll_tcp, countDownAll_tcp, ht], hc⟩, [],
    (List.append_nil _).symm, (List.append_nil _).symm⟩

theorem tickBlock_alike_rtu {b b' : Block} (h : rtuView b = rtuView b') :
    Alike rtuView rtuTrace b (tickBlock b) b' (tickBlock b') := by
  have hcount := countDownAll_alike_rtu h
  have hrtu := (rtuLocal_expiringRtu b.rtu).alike hcount.view_eq
  rw [tickBlock_eq, tickBlock_eq, ← (rtuView_eq_iff.mp h).1]
  exact (hcount.trans hrtu).trans (.of_frame hrtu.view_eq ((tcpLocal_expiringTcp _).rtuView_frame _)
    ((tcpLocal_expiringTcp _).rtuView_frame _))

theorem tickBlock_alike_tcp {b b' : Block} (h : tcpView b = tcpView b') :
    Alike tcpView tcpTrace b (tickBlock b) b' (tickBlock b') := by
  have hcount := countDownAll_alike_tcp h
  have hrtu : Alike tcpView tcpTrace (countDownAll b) ((expiringRtu b.rtu).foldl expire (countDownAll b))
      (countDownAll b') ((expiringRtu b'.rtu).foldl expire (countDownAll b')) :=
    .of_frame hcount.view_eq ((rtuLocal_expiringRtu _).tcpView_frame _) ((rtuLocal_expiringRtu _).tcpView_frame _)
  rw [tickBlock_eq, tickBlock_eq, ← (tcpView_eq_iff.mp h).1]
  exact (hcount.trans hrtu).trans ((tcpLocal_expiringTcp b.tcp.tt).alike hrtu.view_eq)

/-! #### The operations of one transport -/

/-- Two runs, from `s` and from `s'`, that do the same on one side if both go on. -/
def AlikeRuns {α : Type} (view : Block → α) (trace : List Event → List Event) (s s' : State)
    (x x' : Host.Outcome State Fault Refusal) : Prop :=
  ∀ t t', x = .next t → x' = .next t' → Alike view trace s.block t.block s'.block t'.block

section
variable {α : Type} {view : Block → α} {trace : List Event → List Event} {s s' t t' : State}
variable {x x' y y' : Host.Outcome State Fault Refusal}

theorem AlikeRuns.next (h : Alike view trace s.block t.block s'.block t'.block) :
    AlikeRuns view trace s s' (.next t) (.next t') := by
  rintro _ _ ⟨⟩ ⟨⟩
  exact h

theorem AlikeRuns.refuse {c c' : RefusalCode} (h : view s.block = view s'.block) :
    AlikeRuns view trace s s' (.next (s.refuse c)) (.next (s'.refuse c')) :=
  .next (.of_frame h ⟨rfl, rfl⟩ ⟨rfl, rfl⟩)

/-- Both runs take the same branch. -/
theorem AlikeRuns.ite {p p' : Prop} [Decidable p] [Decidable p'] (h : p ↔ p') (hx : AlikeRuns view trace s s' x x')
    (hy : AlikeRuns view trace s s' y y') :
    AlikeRuns view trace s s' (if p then x else y) (if p' then x' else y') := by
  by_cases hp : p
  · rwa [if_pos hp, if_pos (h.mp hp)]
  · rwa [if_neg hp, if_neg fun hp' => hp (h.mpr hp')]
end

/-- A submission samples the retry count and is queued. -/
theorem rtuLocal_submit (tag : U16) (unit fc : Byte) (payload : Bytes) :
    RtuLocal fun b => rtuEnqueue (rtuElem b.cfg tag unit fc payload) b :=
  RtuLocal.choose (f := fun c _ => rtuEnqueue (rtuElem c tag unit fc payload)) fun _ _ => rtuLocal_enqueue _

/-- The retry count is all that an entry takes from the configuration. -/
theorem tcpEntry_congr {c c' : Cfg} (h : c.tcpRetries = c'.tcpRetries) (tid tag : U16) (unit fc : Byte)
    (payload : Bytes) : tcpEntry c tid tag unit fc payload = tcpEntry c' tid tag unit fc payload := by
  rw [tcpEntry, tcpEntry, h]

section
variable {i : Instr} {s t : State}

theorem exec_rtu_frame (h : exec i s = .next t) (hi : rtuOp i = false) (ht : i ≠ .tick) :
    t.block.rtu = s.block.rtu ∧ rtuTrace t.block.out = rtuTrace s.block.out := by
  rcases exec_effect h with hb | he
  · rw [hb]; exact ⟨rfl, rfl⟩
  · exact he.writesOwnPart.rtu_eq hi ht

theorem exec_tcp_frame (h : exec i s = .next t) (hi : tcpOp i = false) (ht : i ≠ .tick) :
    t.block.tcp = s.block.tcp ∧ tcpTrace t.block.out = tcpTrace s.block.out := by
  rcases exec_effect h with hb | he
  · rw [hb]; exact ⟨rfl, rfl⟩
  · exact he.writesOwnPart.tcp_eq hi ht

theorem exec_cfg_frame (h : exec i s = .next t) (hi : ∀ idx v, i ≠ .cfgWr idx v) : t.block.cfg = s.block.cfg := by
  rcases exec_effect h with hb | he
  · rw [hb]
  · exact he.writesOwnPart.cfg_eq hi

theorem exec_rtuView_frame (h : exec i s = .next t) (hi : rtuOp i = false) (ht : i ≠ .tick)
    (hw : ∀ idx v, i ≠ .cfgWr idx v) : rtuView t.block = rtuView s.block ∧ rtuTrace t.block.out = rtuTrace s.block.out := by
  obtain ⟨hr, ho⟩ := exec_rtu_frame h hi ht
  exact ⟨rtuView_eq_iff.mpr ⟨hr, exec_cfg_frame h hw⟩, ho⟩

theorem exec_tcpView_frame (h : exec i s = .next t) (hi : tcpOp i = false) (ht : i ≠ .tick)
    (hw : ∀ idx v, i ≠ .cfgWr idx v) : tcpView t.block = tcpView s.block ∧ tcpTrace t.block.out = tcpTrace s.block.out := by
  obtain ⟨htcp, ho⟩ := exec_tcp_frame h hi ht
  have hc := exec_cfg_frame h hw
  exact ⟨tcpView_eq_iff.mpr ⟨htcp, by rw [hc], by rw [hc]⟩, ho⟩

/-- A register that no open transport refuses to write is after CFG.WR what the operands say, refused or not. -/
theorem exec_cfgWr_cfgGet {idx j : Byte} {val : U32} (h0 : j ≠ 0) (h6 : j.toNat ≤ 6)
    (h : exec (.cfgWr idx val) s = .next t) :
    cfgGet j t.block.cfg = if j = idx then some val else cfgGet j s.block.cfg := by
  by_cases hreg : 6 < idx.toNat
  · rw [exec_cfgWr_of_badReg hreg] at h
    cases h
    exact (if_neg (by rintro rfl; omega)).symm
  · by_cases hbad : idx = 0 ∧ val = 0 ∧ s.block.rtu.isOpen = true
    · rw [exec_cfgWr_of_badCfg hbad] at h
      cases h
      exact (if_neg (by rw [hbad.1]; exact h0)).symm
    · rw [exec_cfgWr_of_writable (by omega) hbad] at h
      cases h
      exact cfgGet_cfgSet (by omega) j val s.block.cfg
end

theorem exec_cfgWr_tcpView {idx : Byte} {val : U32} {s t s' t' : State} (hv : tcpView s.block = tcpView s'.block)
    (h : exec (.cfgWr idx val) s = .next t) (h' : exec (.cfgWr idx val) s' = .next t') :
    tcpView t.block = tcpView t'.block := by
  obtain ⟨htcp, htime, hretr⟩ := tcpView_eq_iff.mp hv
  have hget {j : Byte} (h0 : j ≠ 0) (h6 : j.toNat ≤ 6) (hj : cfgGet j s.block.cfg = cfgGet j s'.block.cfg) :
      cfgGet j t.block.cfg = cfgGet j t'.block.cfg := by
    rw [exec_cfgWr_cfgGet h0 h6 h, exec_cfgWr_cfgGet h0 h6 h', hj]
  refine tcpView_eq_iff.mpr ⟨?_, ?_, ?_⟩
  · rw [(exec_tcp_frame h rfl nofun).1, (exec_tcp_frame h' rfl nofun).1, htcp]
  · exact Option.some.inj (hget (j := 5) (by decide) (by decide) (congrArg some htime))
  · exact Option.some.inj (hget (j := 6) (by decide) (by decide) (congrArg some hretr))

/-- What an operation does on the RTU side is a matter of that side and the configuration. -/
theorem exec_alike_rtu (i : Instr) {s s' : State} (hp : s.build = s'.build) (hv : rtuView s.block = rtuView s'.block) :
    AlikeRuns rtuView rtuTrace s s' (exec i s) (exec i s') := by
  obtain ⟨hr, hc⟩ := rtuView_eq_iff.mp hv
  cases i
  case rtuOpen =>
    exact .ite (by rw [hr]) (.refuse hv) (.ite (by rw [hc]) (.refuse hv) (.next (rtuLocal_open.alike hv)))
  case rtuClose => exact .ite (by rw [hr]) (.next (rtuLocal_close.alike hv)) (.refuse hv)
  case rtuSubmit tag unit fc payload =>
    exact .ite (by rw [hr]) (.refuse hv) (.ite .rfl (.refuse hv) (.ite (by rw [hr, hp]) (.refuse hv)
      (.next ((rtuLocal_submit tag unit fc payload).alike hv))))
  case rtuRxb x =>
    have hx := (rtuLocal_rxb s.build.rspSizer x).alike hv
    exact .next (t' := s'.setBlock (rtuRxb s'.build.rspSizer x s'.block)) (hp ▸ hx)
  case rtuWrDone => exact .next (rtuLocal_wrDone.alike hv)
  case cfgWr idx val =>
    exact .ite .rfl (.refuse hv) (.ite (by rw [hr]) (.refuse hv)
      (.next ⟨rtuView_eq_iff.mpr ⟨hr, by simp [hc]⟩, [], by simp, by simp⟩))
  case tick => exact .next (tickBlock_alike_rtu hv)
  case nop | crcInit | crcUpd | crcGet | rtuFrame | rtuParse | tcpFrame | tcpParseHdr | tcpOpen | tcpClose | tcpSubmit |
      tcpRxb | tcpWrDone | cfgRd =>
    exact fun t t' h h' => .of_frame hv (exec_rtuView_frame h rfl nofun nofun) (exec_rtuView_frame h' rfl nofun nofun)

/-- What an operation does on the TCP side is a matter of that side and its two registers. -/
theorem exec_alike_tcp (i : Instr) {s s' : State} (hp : s.build = s'.build) (hv : tcpView s.block = tcpView s'.block) :
    AlikeRuns tcpView tcpTrace s s' (exec i s) (exec i s') := by
  obtain ⟨ht, hc, hn⟩ := tcpView_eq_iff.mp hv
  cases i
  case tcpOpen => exact .ite (by rw [ht]) (.refuse hv) (.next (tcpLocal_open.alike hv))
  case tcpClose => exact .ite (by rw [ht]) (.next (tcpLocal_close.alike hv)) (.refuse hv)
  case tcpSubmit tag unit fc payload =>
    simp only [exec, execTcpSubmit, ← ht, ← hp]
    refine .ite .rfl (.refuse hv) (.ite .rfl (.refuse hv) (.ite .rfl (.refuse hv) ?_))
    cases chooseTid s.block.tcp with
    | none => exact fun _ _ h => nomatch h
    | some tid =>
      simp only [tcpEntry_congr hn]
      exact .next ((tcpLocal_enter tid _).alike hv)
  case tcpRxb x => exact .next ((tcpLocal_rxb x).alike hv)
  case tcpWrDone tid => exact .next ((tcpLocal_wrDone tid).alike hv)
  case cfgWr idx val =>
    intro t t' h h'
    obtain ⟨_, ho⟩ := exec_tcp_frame h rfl nofun
    obtain ⟨_, ho'⟩ := exec_tcp_frame h' rfl nofun
    exact ⟨exec_cfgWr_tcpView hv h h', [], by rw [ho, List.append_nil], by rw [ho', List.append_nil]⟩
  case tick => exact .next (tickBlock_alike_tcp hv)
  case nop | crcInit | crcUpd | crcGet | rtuFrame | rtuParse | tcpFrame | tcpParseHdr | rtuOpen | rtuClose | rtuSubmit |
      rtuRxb | rtuWrDone | cfgRd =>
    exact fun t t' h h' => .of_frame hv (exec_tcpView_frame h rfl nofun nofun) (exec_tcpView_frame h' rfl nofun nofun)

theorem tcpOp_eq_false_of_rtuOp {i : Instr} (h : rtuOp i = true) : tcpOp i = false := by
  cases i with
  | rtuOpen | rtuClose | rtuSubmit | rtuRxb | rtuWrDone => rfl
  | _ => cases h

theorem trace_new_eq_nil {trace : List Event → List Event} (hadd : ∀ x y, trace (x ++ y) = trace x ++ trace y)
    {out out' new : List Event} (ho : out' = out ++ new) (h : trace out' = trace out) : trace new = [] := by
  rwa [ho, hadd, List.append_right_eq_self] at h

/-- Settles O59: two runs that see the same of a side take the same branches on it, and no operation but TICK is one of
both transports. -/
theorem transportsDoNotInterfere : Obligations.TransportsDoNotInterfere := by
  intro i s t s' t' new new' hp h h' ho ho'
  refine ⟨fun hr hc => ?_, fun ht hc hn => ?_, fun hi => ?_⟩
  · have ha := exec_alike_rtu i hp (rtuView_eq_iff.mpr ⟨hr, hc⟩) t t' h h'
    obtain ⟨hrtu, hcfg⟩ := rtuView_eq_iff.mp ha.view_eq
    exact ⟨hrtu, hcfg, ha.trace_new rtuTrace_append ho ho'⟩
  · have ha := exec_alike_tcp i hp (tcpView_eq_iff.mpr ⟨ht, hc, hn⟩) t t' h h'
    obtain ⟨htcp, htime, hretr⟩ := tcpView_eq_iff.mp ha.view_eq
    exact ⟨htcp, htime, hretr, ha.trace_new tcpTrace_append ho ho'⟩
  · cases hop : rtuOp i with
    | false =>
      obtain ⟨hrtu, htrace⟩ := exec_rtu_frame h hop hi
      exact .inl ⟨hrtu, trace_new_eq_nil rtuTrace_append ho htrace⟩
    | true =>
      obtain ⟨htcp, htrace⟩ := exec_tcp_frame h (tcpOp_eq_false_of_rtuOp hop) hi
      exact .inr ⟨htcp, trace_new_eq_nil tcpTrace_append ho htrace⟩

/-! ### How an operation ends (R326, R263) -/

/-- The ways an operation can end: refused with a code that R326 lists for it, accepted, an input event taken, or stopped
with the table not full and yet no id free. -/
inductive Ending (i : Instr) (s : State) : Host.Outcome State Fault Refusal → Prop
  | refuse (c) (listed : mayRaise c i = true) : Ending i s (.next (s.refuse c))
  | accept (b v) : Ending i s (.next (s.accept b v))
  | event (b) : Ending i s (.next (s.setBlock b))
  | noFreeTid (room : s.block.tcp.tt.length ≠ s.build.ttDepth) (taken : chooseTid s.block.tcp = none) :
      Ending i s (.fault .noFreeTid)

section
variable {i : Instr} {s t : State} {x y : Host.Outcome State Fault Refusal}

theorem Ending.ite {p : Prop} [Decidable p] (hx : Ending i s x) (hy : ¬ p → Ending i s y) :
    Ending i s (if p then x else y) := by
  by_cases hp : p
  · rwa [if_pos hp]
  · rw [if_neg hp]; exact hy hp

theorem exec_ending (i : Instr) (s : State) : Ending i s (exec i s) := by
  cases i with
  | nop | crcInit | crcUpd | crcGet => exact .accept _ _
  | rtuRxb | rtuWrDone | tcpRxb | tcpWrDone | tick => exact .event _
  | rtuFrame | tcpFrame | rtuClose | tcpClose => exact .ite (.accept _ _) fun _ => .refuse _ rfl
  | rtuParse | tcpParseHdr | tcpOpen => exact .ite (.refuse _ rfl) fun _ => .accept _ _
  | rtuOpen | cfgWr => exact .ite (.refuse _ rfl) fun _ => .ite (.refuse _ rfl) fun _ => .accept _ _
  | rtuSubmit =>
    exact .ite (.refuse _ rfl) fun _ => .ite (.refuse _ rfl) fun _ => .ite (.refuse _ rfl) fun _ => .accept _ _
  | tcpSubmit =>
    refine .ite (.refuse _ rfl) fun _ => .ite (.refuse _ rfl) fun _ => .ite (.refuse _ rfl) fun hroom => ?_
    split
    · next hnone => exact .noFreeTid hroom hnone
    · exact .accept _ _
  | cfgRd =>
    simp only [exec, execCfgRd]
    split
    · exact .accept _ _
    · exact .refuse _ rfl

theorem Ending.of_refused {c : RefusalCode} (h : Ending i s (.next t)) (hr : t.rsp = s.rsp ++ [.refused c]) :
    t = s.refuse c ∧ mayRaise c i = true := by
  cases h with
  | refuse c' listed =>
    obtain rfl : c' = c := by simpa using hr
    exact ⟨rfl, listed⟩
  | accept => simp at hr
  | event => simp at hr

/-- Under the invariant a table that is not full leaves an id free, so no operation stops. -/
theorem Ending.next_of_inv (h : Ending i s x) (hv : s.Inv) : ∃ t, x = .next t := by
  cases h with
  | refuse | accept | event => exact ⟨_, rfl⟩
  | noFreeTid room taken =>
    obtain ⟨tid, hc⟩ := hv.tcp.chooseTid_isSome room
    cases taken.symm.trans hc
end

/-- Settles O53: a refusal is one of the branches that answer with a listed code, and only `CMD` operations respond. -/
theorem refusedOperationChangesNothing : Obligations.RefusedOperationChangesNothing := by
  intro i s t c h hr
  obtain ⟨ht, hlisted⟩ := Ending.of_refused (h ▸ exec_ending i s) hr
  refine ⟨ht, ?_, hlisted⟩
  by_contra hport
  have hsame : t.rsp = s.rsp := (exec_responses h).2 hport
  simp [hsame] at hr

/-- Settles O56: the one stop an operation has does not happen under the invariant. -/
theorem everyOperationCompletes : Obligations.EveryOperationCompletes :=
  fun i s hv => (exec_ending i s).next_of_inv hv

/-! ### The codes in what the block emits (R320, R323, R327)

In every state, while `EmitsLegal` needs the invariant for the bytes of what is sent and received. -/

/-- The codes R320, R323 and R327 allow in a completion and an intermediate error; the other events carry none. -/
def Event.codesRaised : Event → Prop
  | .done port _ st err fc p =>
    (st = .finished ∧ err = .noError) ∨
    (st = .error ∧ (err = .timeoutError ∨ err = .replyAbortedError) ∧ fc = 0x00 ∧ p = []) ∨
    (st = .error ∧ err = .invalidResponseError ∧ port = .tcp)
  | .ierr port _ _ => port = .rtu
  | .serTx _ | .tcpTx _ | .log _ _ => True

theorem Event.legal.codesRaised {e : Event} (h : e.legal) : e.codesRaised := by
  cases e with
  | done => exact h.2
  | ierr => exact h
  | serTx | tcpTx | log => trivial

/-- `b'` is `b` with events appended to `OUT` that carry only the codes the block raises, as far as `OUT` goes. -/
def EmitsRaised (b b' : Block) : Prop := ∃ new, b'.out = b.out ++ new ∧ ∀ e ∈ new, e.codesRaised

theorem EmitsLegal.raised {b b' : Block} (h : EmitsLegal b b') : EmitsRaised b b' := by
  obtain ⟨new, ho, hl⟩ := h
  exact ⟨new, ho, fun e he => (hl e he).codesRaised⟩

theorem EmitsRaised.of_out_eq {b b' : Block} (h : b'.out = b.out) : EmitsRaised b b' := (EmitsLegal.of_out_eq h).raised

theorem EmitsRaised.refl (b : Block) : EmitsRaised b b := .of_out_eq rfl

theorem EmitsRaised.one {b b' : Block} {e : Event} (h : b'.out = b.out ++ [e]) (he : e.codesRaised) : EmitsRaised b b' :=
  ⟨[e], h, fun _ hx => List.mem_singleton.mp hx ▸ he⟩

theorem EmitsRaised.trans {a b c : Block} (h : EmitsRaised a b) (h' : EmitsRaised b c) : EmitsRaised a c := by
  obtain ⟨new, ho, hn⟩ := h
  obtain ⟨more, ho', hm⟩ := h'
  refine ⟨new ++ more, by rw [ho', ho, List.append_assoc], fun e he => ?_⟩
  exact (List.mem_append.mp he).elim (hn e) (hm e)

theorem EmitsRaised.rtuSend (b : Block) : EmitsRaised b (rtuSend b) := by
  cases hq : b.rtu.q with
  | nil => rw [rtuSend_nil hq]; exact .refl b
  | cons e rest => rw [rtuSend_cons hq]; exact .one rfl trivial

theorem EmitsRaised.rtuTimeout (b : Block) : EmitsRaised b (rtuTimeout b) := by
  rcases rtuTimeout_cases b with ⟨_, h⟩ | ⟨e, rest, _, hq, ⟨_, h⟩ | ⟨_, h⟩⟩ <;> rw [h]
  · exact .refl b
  · rw [rtuResend_eq hq]; exact .one rfl trivial
  · rw [rtuFail_eq hq]; exact .one (rtuKick_out _ _) legal_timeout.codesRaised

theorem EmitsRaised.rtuAccept {b : Block} {e : Elem} {rest : List Elem} (hq : b.rtu.q = e :: rest) (n : Nat) :
    EmitsRaised b (rtuAccept e n b) := by
  rcases rtuAccept_cases e n b with ⟨_, h⟩ | ⟨_, _, h⟩ | ⟨_, _, _, h⟩ <;> rw [h]
  · exact .one rfl rfl
  · exact .one rfl rfl
  · rw [rtuReplyDone_eq (b := b.setRtuRxbuf (b.rtu.rxbuf.drop n)) _ hq]
    exact .one (rtuKick_out _ _) (.inl ⟨rfl, rfl⟩)

theorem EmitsRaised.rtuRxb (z : Sizer) (x : Byte) (b : Block) : EmitsRaised b (rtuRxb z x b) := by
  have happ : EmitsRaised b (rtuAppend x b) := .of_out_eq (by rw [rtuAppend_eq]; rfl)
  rcases rtuRxb_cases z x b with ⟨_, h⟩ | ⟨_, h⟩ | ⟨e, rest, n, _, _, hq, _, _, h⟩ <;> rw [h]
  · exact .refl b
  · exact happ
  · exact happ.trans (.rtuAccept (rest := rest) (by rw [(rtuAppend_fields x b).1, hq]) n)

theorem EmitsRaised.tcpTimeout (tid : U16) (b : Block) : EmitsRaised b (tcpTimeout tid b) := by
  rcases tcpTimeout_cases tid b with ⟨_, h⟩ | ⟨e, _, ⟨_, h⟩ | ⟨_, h⟩⟩ <;> rw [h]
  · exact .refl b
  · exact .one rfl trivial
  · exact .one rfl legal_timeout.codesRaised

theorem EmitsRaised.expire (i : TimerId) (b : Block) : EmitsRaised b (expire b i) := by
  cases i with
  | rtuDly =>
    rw [expire_rtuDly]
    split
    · exact .trans (.of_out_eq rfl) (.rtuSend (b.setRtuDly b.rtu.dly.stop))
    · exact .refl b
  | rtuRspt =>
    rw [expire_rtuRspt]
    split
    · exact .trans (.of_out_eq rfl) (.rtuTimeout (b.setRtuRspt b.rtu.rspt.stop))
    · exact .refl b
  | tcpTmr tid =>
    rcases expire_tcpTmr_cases tid b with ⟨_, h⟩ | ⟨e, _, _, h⟩ <;> rw [h]
    · exact .refl b
    · exact .trans (.of_out_eq rfl) (.tcpTimeout tid (b.setTcpTt (ttPut tid { e with tmr := e.tmr.stop } b.tcp.tt)))

theorem EmitsRaised.foldl_expire (ids : List TimerId) (b : Block) : EmitsRaised b (ids.foldl Machine.expire b) := by
  induction ids generalizing b with
  | nil => exact .refl b
  | cons i ids ih => exact (EmitsRaised.expire i b).trans (ih _)

theorem EmitsRaised.tick (b : Block) : EmitsRaised b (tickBlock b) :=
  .trans (.of_out_eq (countDownAll_out b)) (.foldl_expire (expiring b) (countDownAll b))

theorem Effect.emitsRaised {p : Build} {i : Instr} {b b' : Block} (h : Effect p i b b') : EmitsRaised b b' := by
  cases h
  case rtuClose => exact (EmitsLegal.rtuClose b).raised
  case rtuSubmit => exact .of_out_eq (by rw [rtuEnqueue_eq])
  case rtuRxb x => exact .rtuRxb _ x b
  case rtuWrDone => exact (EmitsLegal.rtuWrDone b).raised
  case tcpClose => exact (EmitsLegal.tcpClose b).raised
  case tcpSubmit => exact .one rfl trivial
  case tcpRxb x => exact (EmitsLegal.tcpRxb x b).raised
  case tcpWrDone tid => exact (EmitsLegal.tcpWrDone tid b).raised
  case tick => exact .tick b
  case crcInit | crcUpd | rtuOpen | tcpOpen | cfgWr => exact .of_out_eq rfl

theorem exec_emitsRaised {i : Instr} {s t : State} (h : exec i s = .next t) : EmitsRaised s.block t.block := by
  rcases exec_effect h with hb | he
  · exact .of_out_eq (by rw [hb])
  · exact he.emitsRaised

/-- Settles O57: every event an operation appends carries a code the block raises; the numbers are evaluated. -/
theorem onlyTheRaisedErrorCodesAreEmitted : Obligations.OnlyTheRaisedErrorCodesAreEmitted := by
  refine ⟨fun i s t added h ho => ?_, rfl, rfl, rfl, rfl, rfl, rfl, rfl, rfl, rfl⟩
  obtain ⟨new, hnew, hraised⟩ := exec_emitsRaised h
  obtain rfl : new = added := List.append_cancel_left (hnew.symm.trans ho)
  exact ⟨fun _ _ _ _ _ _ he => hraised _ he, fun _ _ _ he => hraised _ he⟩

/-! ### A step without an operation (R345, R111, R360) -/

theorem step_nothing {s : State} (h : s.input = []) : step s = .next s := by simp only [step, h]

theorem step_truncated {s : State} {w : Bytes} {later : List Presented} (h : s.input = .word w :: later)
    (hd : decode w = .truncated) : step s = .refused .truncatedWord := by simp only [step, h, hd]

/-- A string that starts with no command word and no reserved opcode decodes to nothing. -/
theorem decode_eq_truncated {w : Bytes} (hop : ∀ i rest, w ≠ encode i ++ rest ∨ i.wf = false)
    (hres : ∀ op, w.head? = some op → ¬ reservedOpcode op) : decode w = .truncated := by
  cases hd : decode w with
  | truncated => rfl
  | op i rest =>
    obtain ⟨hwf, hw⟩ := encode_of_decode hd
    rcases hop i rest with hne | hbad
    · exact absurd hw.symm hne
    · cases hbad.symm.trans hwf
  | reserved op rest =>
    cases w with
    | nil => cases hd
    | cons o r =>
      obtain ⟨_, _, ho⟩ := reserved_of_decode hd
      exact absurd (reservedOpcode_iff.mpr ho) (hres o rfl)

/-- Settles O3: nothing is presented, or nothing the decoder reads, or a reset. -/
theorem stepWithoutAnOperation : Obligations.StepWithoutAnOperation :=
  ⟨fun _ h => step_nothing h, fun _ _ _ h hop hres => step_truncated h (decode_eq_truncated hop hres),
    fun s later h => ⟨s.applyReset later, step_reset h, rfl, rfl⟩⟩

end Sys2Proof.Machine
end
